-- ==== Sys2Proof/Word.lean ====
section
/-! DEFINITION. The word types of AGMD and the sizes of its arrays (00_scope.md R7 to R13). -/

namespace Sys2Proof

/-- A 32-bit word of the host port, and the width of a pre-mantissa and of a coefficient (R10, R81). -/
abbrev Word := BitVec 32

/-- A host byte address (20_memory.md R81). -/
abbrev HostAddr := BitVec 17

/-- A channel slot, 0 to 6 (00_scope.md R7). -/
abbrev Chan := Fin 7

/-- A block index, 0 to 5 (00_scope.md R9). -/
abbrev Blk := Fin 6

/-- A bit-allocation pointer value (00_scope.md R11). -/
abbrev Hebap := BitVec 5

/-- The bits a cursor will still deliver, first bit first (20_memory.md R88). -/
abbrev Bits := List Bool

end Sys2Proof
end

