-- ==== Sys2Proof/Config.lean ====
section
/-! DEFINITION. What an implementation fixes (the open parameters of 00_scope.md R14 and R22) and the free values. -/

namespace Sys2Proof

/-- GAQ_OOR_POLICY, the treatment of a group code above 26 (41_gaq_gain.md R198). -/
inductive OorPolicy where
  | fault
  | clamp
  deriving DecidableEq, Repr

/-- One known row of the vector-quantization table: the six entries VQ[h][v][0..5] (00_scope.md R22). -/
structure VqRow where
  h   : Hebap
  v   : Nat
  row : Vector (BitVec 16) 6
  deriving DecidableEq, Repr

/-- The open parameters: HEBAP_MAX (R11), the constant tables (R22) and GAQ_OOR_POLICY (R198).
UNGROUP is not among them, since the spec fixes it (R197).
`vq` lists the rows that are known; an entry of any other row is the free constant `Config.freeVq`. -/
structure Params where
  hebapMax : Hebap
  bits     : Vector (BitVec 5) 32
  vq       : List VqRow
  remap1   : Vector (BitVec 16) 24
  remapA   : Vector (Vector (BitVec 16) 2) 9
  remapB   : Vector (Vector (BitVec 16) 2) 9
  cosTab   : Vector (Vector (BitVec 25) 5) 6
  policy   : OorPolicy
  deriving DecidableEq, Repr

namespace Config

/-- DEXP_MAX, the largest exponent AGMD accepts (00_scope.md R12, 43_idct.md R261). -/
def dexpMax : Nat := 24

/-- The free value of the n-th draw: what a host read of a never-written or invalid cell returns
(40_commands.md R150; log entry 6). -/
opaque freeWord : Nat → Word

/-- The free value of the n-th dither call, when no listed value is left (20_memory.md R92; log entry 8). -/
opaque freeDither : Nat → BitVec 23

/-- The unstated entry VQ[h][v][blk] (00_scope.md R22, 91_not_in_source.md N2; log entry 10). -/
opaque freeVq : Hebap → Nat → Nat → BitVec 16

/-- How many further bits the cursor stands past the bits already consumed, after a failed read
(20_memory.md R90, 93_implementation_defined.md U11; log entry 7). -/
opaque freeCursorSkip : Nat → Nat

end Config

end Sys2Proof
end

