-- ==== Sys2Proof/Syntax.lean ====
section
/-! DEFINITION. The instructions of AGMD: one constructor per row of spec/opcode_table.json. -/

namespace Sys2Proof

/-- The fifteen rows of the opcode table.
The first five are command words (30_encoding.md R112), the next two are host bus operations (40_commands.md R150, R151),
the rest are the bitstream elements and bin operations of AHT_DECODE (30_encoding.md R121).
The element rows carry the operands their rules name: the hebap `h`, its width `w`, the gain shift `g` and the value read. -/
inductive Instr where
  /-- R155. -/
  | nop
  /-- R157. -/
  | frameStart
  /-- R190: decode channel `ch`. -/
  | ahtDecode (ch : Chan)
  /-- R260: reconstruct block `blk` of channel `ch`. -/
  | idct (ch : Chan) (blk : Blk)
  /-- R117, R301: a command word that selects no command. -/
  | illegal (w : Word)
  /-- R150: a host read of `width` bits at byte address `a`. -/
  | hostRead (width : Nat) (a : HostAddr)
  /-- R151: a host write of `width` bits of `v` at byte address `a`. -/
  | hostWrite (width : Nat) (a : HostAddr) (v : Word)
  /-- R192: the 2-bit gain mode. -/
  | gaqmod (mode : BitVec 2)
  /-- R195: a 1-bit gain code. -/
  | gaqgain (gain : BitVec 1)
  /-- R196: a 5-bit group code. -/
  | gaqgrp (code : BitVec 5)
  /-- R222: a bin of hebap 0; no bits are read. -/
  | ditherFill
  /-- R224: a codeword `v` of width `w` for hebap `h`. -/
  | vqDecode (h : Hebap) (w v : Nat)
  /-- R227: a GMANT of value `m` and width `w`, no gain shift. -/
  | gaqPlain (h : Hebap) (w : Nat) (m : Int)
  /-- R229: a GMANT of value `m` and width `w - g` that is not the escape. -/
  | gaqSmall (h : Hebap) (w g : Nat) (m : Int)
  /-- R231: the escape GMANT of width `w - g` and the GLARGE of value `l` and width `w - 2 + g`. -/
  | gaqLarge (h : Hebap) (w g : Nat) (l : Int)
  deriving DecidableEq, Repr

/-- One access of the host port (20_memory.md R81): a width in bits, a byte address, and for a write the value.
A width other than 32 is an access the host can attempt and a bus error (R84; log entry 19). -/
inductive BusReq where
  | read (width : Nat) (a : HostAddr)
  | write (width : Nat) (a : HostAddr) (v : Word)
  deriving DecidableEq, Repr

end Sys2Proof
end

