-- ==== Sys2Proof/WellFormed.lean ====
section
/-! DEFINITION. The well-formed instructions: operands at the values the opcode table and the rules allow. -/

namespace Sys2Proof

/-- The command words that 30_encoding.md R113 to R116 select, by their match and mask. -/
def commandWord (w : Word) : Bool :=
  w == 0x00000000#32
  || w == 0x00000001#32
  || (w &&& 0xFFFFFF8F#32 == 0x00000002#32 && w &&& 0x70#32 != 0x70#32)
  || (w &&& 0xFFFFFC0F#32 == 0x00000003#32 && w &&& 0x70#32 != 0x70#32 && w &&& 0x300#32 != 0x300#32)

/-- The addresses a host may read: the mapped RO and RW registers (20_memory.md R82), word-aligned (R84). -/
def readableAddr (a : HostAddr) : Bool :=
  let n := a.toNat
  n % 4 == 0 &&
    (n == 0x4 || (0x10 ≤ n && n ≤ 0x28) || (0x40 ≤ n && n ≤ 0x58) || (0x1000 ≤ n && n ≤ 0x2BFC)
      || (0x3000 ≤ n && n ≤ 0x4BFC) || (0x5000 ≤ n && n ≤ 0x6BFC) || (0x8000 ≤ n && n ≤ 0x127FC))

/-- The addresses a host may write: the mapped WO and RW registers (20_memory.md R82), word-aligned (R84). -/
def writableAddr (a : HostAddr) : Bool :=
  let n := a.toNat
  n % 4 == 0 &&
    (n == 0x0 || (0x10 ≤ n && n ≤ 0x28) || (0x1000 ≤ n && n ≤ 0x2BFC) || (0x3000 ≤ n && n ≤ 0x4BFC))

/-- The values of an n-bit two's-complement field, [-2^(n-1), 2^(n-1) - 1] (20_memory.md R89). -/
def signedFits (n : Nat) (m : Int) : Bool :=
  decide (-(2 : Int) ^ (n - 1) ≤ m) && decide (m < (2 : Int) ^ (n - 1))

/-- An instruction as the opcode table writes it.
A host write to CMD is the command it issues (40_commands.md R151), so its well-formed term is the command's. -/
def Instr.wf : Instr → Bool
  | .nop => true
  | .frameStart => true
  | .ahtDecode _ => true
  | .idct _ _ => true
  | .illegal w => !commandWord w
  | .hostRead width a => width == 32 && readableAddr a
  | .hostWrite width a _ => width == 32 && writableAddr a && a != 0
  | .gaqmod _ => true
  | .gaqgain _ => true
  | .gaqgrp _ => true
  | .ditherFill => true
  | .vqDecode h w v => decide (1 ≤ h.toNat ∧ h.toNat ≤ 7 ∧ 1 ≤ w ∧ w ≤ 16 ∧ v < 2 ^ w)
  | .gaqPlain h w m => decide (8 ≤ h.toNat ∧ 3 ≤ w ∧ w ≤ 16) && signedFits w m
  | .gaqSmall h w g m =>
    decide (8 ≤ h.toNat ∧ h.toNat ≤ 16 ∧ 3 ≤ w ∧ w ≤ 16 ∧ 1 ≤ g ∧ g ≤ 2 ∧ m ≠ -(2 : Int) ^ (w - g - 1))
      && signedFits (w - g) m
  | .gaqLarge h w g l =>
    decide (8 ≤ h.toNat ∧ h.toNat ≤ 16 ∧ 3 ≤ w ∧ w ≤ 16 ∧ 1 ≤ g ∧ g ≤ 2) && signedFits (w - 2 + g) l

end Sys2Proof
end

