-- ==== Sys2Proof/Decode.lean ====
section
/-! DEFINITION. Decoding and encoding: command words, host bus accesses, and the bitstream elements of AHT_DECODE. -/

namespace Sys2Proof

/-! ## Command words (30_encoding.md R110 to R118) -/

/-- CMD32.OP, bits [3:0] (R110). -/
def cmdOp (w : Word) : BitVec 4 := w.extractLsb' 0 4

/-- CMD32.CH, bits [6:4] (R110, R111). -/
def cmdCh (w : Word) : BitVec 3 := w.extractLsb' 4 3

/-- CMD32.BLK, bits [9:7] (R110, R111). -/
def cmdBlk (w : Word) : BitVec 3 := w.extractLsb' 7 3

/-- CMD32.RSV, bits [31:10] (R110). -/
def cmdRsv (w : Word) : BitVec 22 := w.extractLsb' 10 22

/-- The command decoder, total on every word (R112 to R118). -/
def decodeCommand (w : Word) : Instr :=
  if cmdRsv w = 0 then
    match (cmdOp w).toNat with
    | 0 => if cmdCh w = 0 ∧ cmdBlk w = 0 then .nop else .illegal w
    | 1 => if cmdCh w = 0 ∧ cmdBlk w = 0 then .frameStart else .illegal w
    | 2 => if h : (cmdCh w).toNat < 7 ∧ cmdBlk w = 0 then .ahtDecode ⟨(cmdCh w).toNat, h.1⟩ else .illegal w
    | 3 =>
      if h : (cmdCh w).toNat < 7 ∧ (cmdBlk w).toNat < 6 then .idct ⟨(cmdCh w).toNat, h.1⟩ ⟨(cmdBlk w).toNat, h.2⟩
      else .illegal w
    | _ => .illegal w
  else .illegal w

/-! ## Host bus accesses (20_memory.md R81, 40_commands.md R150 to R153) -/

/-- The instruction a host access is: a 32-bit write to CMD is the command it issues (R33, R153). -/
def decodeBus : BusReq → Instr
  | .read width a => .hostRead width a
  | .write width a v => if width = 32 ∧ a = 0 then decodeCommand v else .hostWrite width a v

/-! ## The bit cursor's two methods (20_memory.md R88, R89) -/

/-- The next `n` bits, first bit most significant, on top of the value `acc` of the bits before them;
none where the buffer holds fewer. -/
def readBitsOnto (acc : Nat) : Nat → Bits → Option (Nat × Bits)
  | 0, bs => some (acc, bs)
  | _ + 1, [] => none
  | n + 1, b :: bs => readBitsOnto (2 * acc + b.toNat) n bs

/-- ReadBits(n): the value and the bits that follow, or none where the read fails (R89, R90). -/
def readBits (n : Nat) (bs : Bits) : Option (Nat × Bits) := readBitsOnto 0 n bs

/-- sext_n (00_scope.md R16): the two's-complement value of an n-bit field. -/
def sext (n u : Nat) : Int := if 2 ^ (n - 1) ≤ u then (u : Int) - 2 ^ n else u

/-- ReadSBits(n) (R17, R89). -/
def readSBits (n : Nat) (bs : Bits) : Option (Int × Bits) :=
  match readBits n bs with
  | some (u, rest) => some (sext n u, rest)
  | none => none

/-! ## Bitstream elements (30_encoding.md R121 to R126) -/

/-- Which element AHT_DECODE reads next, with the context that fixes its width (R121):
the hebap `h`, its width `w = BITS[h]` and the bin's gain shift `g`. -/
inductive Slot where
  | gaqmod
  | gaqgain
  | gaqgrp
  | dither
  | vqcw (h : Hebap) (w : Nat)
  | gmant (h : Hebap) (w g : Nat)
  deriving DecidableEq, Repr

/-- What fetching an element gives: the element and the bits after it, or a failed read,
with the bits that were left when the failing call was made (20_memory.md R90). -/
inductive Fetched where
  | element (i : Instr) (rest : Bits)
  | cursorFail (rest : Bits)
  deriving DecidableEq, Repr

/-- The escape GMANT of width w - g (30_encoding.md R124). -/
def escapeValue (w g : Nat) : Int := -(2 : Int) ^ (w - g - 1)

/-- A GMANT of value `m` and what follows it: the escape is read on with its GLARGE (R124, R226). -/
def decodeMantissa (h : Hebap) (w g : Nat) (m : Int) (bs : Bits) : Fetched :=
  if 0 < g ∧ m = escapeValue w g then
    match readSBits (w - 2 + g) bs with
    | some (l, rest) => .element (.gaqLarge h w g l) rest
    | none => .cursorFail bs
  else if g = 0 then .element (.gaqPlain h w m) bs
  else .element (.gaqSmall h w g m) bs

/-- The element decoder: total on any bits; too few bits are a failed cursor read (R121, R90). -/
def decodeElement : Slot → Bits → Fetched
  | .gaqmod, bs =>
    match readBits 2 bs with
    | some (u, rest) => .element (.gaqmod (BitVec.ofNat 2 u)) rest
    | none => .cursorFail bs
  | .gaqgain, bs =>
    match readBits 1 bs with
    | some (u, rest) => .element (.gaqgain (BitVec.ofNat 1 u)) rest
    | none => .cursorFail bs
  | .gaqgrp, bs =>
    match readBits 5 bs with
    | some (u, rest) => .element (.gaqgrp (BitVec.ofNat 5 u)) rest
    | none => .cursorFail bs
  | .dither, bs => .element .ditherFill bs
  | .vqcw h w, bs =>
    match readBits w bs with
    | some (v, rest) => .element (.vqDecode h w v) rest
    | none => .cursorFail bs
  | .gmant h w g, bs =>
    match readSBits (w - g) bs with
    | some (m, rest) => decodeMantissa h w g m rest
    | none => .cursorFail bs

/-! ## Encoding, from the same tables -/

/-- The `n` bits of `v`, most significant first (R89). -/
def bitsOf : Nat → Nat → Bits
  | 0, _ => []
  | n + 1, v => v.testBit n :: bitsOf n v

/-- The two's-complement field of `n` bits that holds `m` (R89). -/
def signedBitsOf (n : Nat) (m : Int) : Bits := bitsOf n (m % (2 : Int) ^ n).toNat

/-- Where an instruction's encoding stands: on the host port or in the bitstream. -/
inductive Encoded where
  | bus (r : BusReq)
  | bits (bs : Bits)
  deriving DecidableEq, Repr

/-- A command word written to CMD (R33). -/
def cmdWrite (w : Word) : BusReq := .write 32 0 w

/-- The encoding of an instruction (30_encoding.md R113 to R116, R119, R121, R124). -/
def encode : Instr → Encoded
  | .nop => .bus (cmdWrite 0x0#32)
  | .frameStart => .bus (cmdWrite 0x1#32)
  | .ahtDecode ch => .bus (cmdWrite (0x2#32 ||| (BitVec.ofNat 32 ch.val <<< 4)))
  | .idct ch blk => .bus (cmdWrite (0x3#32 ||| (BitVec.ofNat 32 ch.val <<< 4) ||| (BitVec.ofNat 32 blk.val <<< 7)))
  | .illegal w => .bus (cmdWrite w)
  | .hostRead width a => .bus (.read width a)
  | .hostWrite width a v => .bus (.write width a v)
  | .gaqmod mode => .bits (bitsOf 2 mode.toNat)
  | .gaqgain gain => .bits (bitsOf 1 gain.toNat)
  | .gaqgrp code => .bits (bitsOf 5 code.toNat)
  | .ditherFill => .bits []
  | .vqDecode _ w v => .bits (bitsOf w v)
  | .gaqPlain _ w m => .bits (signedBitsOf w m)
  | .gaqSmall _ w g m => .bits (signedBitsOf (w - g) m)
  | .gaqLarge _ w g l => .bits (signedBitsOf (w - g) (escapeValue w g) ++ signedBitsOf (w - 2 + g) l)

/-- The slot in which AHT_DECODE meets an element (R121); none for the other instructions. -/
def slotOf : Instr → Option Slot
  | .nop => none
  | .frameStart => none
  | .ahtDecode _ => none
  | .idct _ _ => none
  | .illegal _ => none
  | .hostRead _ _ => none
  | .hostWrite _ _ _ => none
  | .gaqmod _ => some .gaqmod
  | .gaqgain _ => some .gaqgain
  | .gaqgrp _ => some .gaqgrp
  | .ditherFill => some .dither
  | .vqDecode h w _ => some (.vqcw h w)
  | .gaqPlain h w _ => some (.gmant h w 0)
  | .gaqSmall h w g _ => some (.gmant h w g)
  | .gaqLarge h w g _ => some (.gmant h w g)

/-! ## The host's window on the decoder -/

/-- The instruction read from a row's word. The rows with a word of their own are the 32-bit command words. -/
def decodeTableWord (nbits w : Nat) : Option Instr :=
  if nbits = 32 ∧ w < 2 ^ 32 then some (decodeCommand (BitVec.ofNat 32 w)) else none

end Sys2Proof
end

