-- ==== Sys2Proof/Machine/Tables.lean ====
section
/-! DEFINITION. The read-only tables: their lookups (00_scope.md R22, 10_state.md R46), the constraints on them,
and the reference contents of 93_implementation_defined.md. -/

namespace Sys2Proof.Machine

/-! ## Lookups -/

/-- BITS[h], the width of a hebap (R22). -/
def widthOf (p : Params) (h : Hebap) : Nat := (p.bits[h.toNat]'h.isLt).toNat

/-- VQ[h][v][blk]: the listed row's entry, and where no row is listed the free constant (R22; log entry 10). -/
def vqEntry (p : Params) (h : Hebap) (v blk : Nat) : Int :=
  match p.vq.find? (fun r => r.h == h && r.v == v) with
  | some r => ((r.row[blk]?).getD 0).toInt
  | none => (Config.freeVq h v blk).toInt

/-- REMAP1[h-8] (R22). -/
def remap1Of (p : Params) (h : Hebap) : Int := ((p.remap1[h.toNat - 8]?).getD 0).toInt

/-- A row and column of REMAP_A or REMAP_B: [h-8][g-1] (R22). -/
def remapEntry (t : Vector (Vector (BitVec 16) 2) 9) (h : Hebap) (g : Nat) : Int :=
  match t[h.toNat - 8]? with
  | some row => ((row[g - 1]?).getD 0).toInt
  | none => 0

/-- REMAP_A[h-8][g-1] (R22). -/
def remapAOf (p : Params) (h : Hebap) (g : Nat) : Int := remapEntry p.remapA h g

/-- REMAP_B[h-8][g-1] (R22). -/
def remapBOf (p : Params) (h : Hebap) (g : Nat) : Int := remapEntry p.remapB h g

/-- COS_TAB[blk][i-1] (R22, 43_idct.md R263). -/
def cosOf (p : Params) (blk : Blk) (i : Nat) : Int := (((p.cosTab[blk.val]'blk.isLt)[i - 1]?).getD 0).toInt

/-- UNGROUP[g] = (g/9, (g%9)/3, g%3) (41_gaq_gain.md R197). -/
def ungroup (code : Nat) : List Nat := [code / 9, code % 9 / 3, code % 3]

/-- The constraints of 00_scope.md R22 on BITS: 1..16 for hebaps 1 to 7, 3..16 for 8 to HEBAP_MAX. -/
def paramsOk (p : Params) : Bool :=
  (List.range' 1 7).all (fun h => 1 ≤ widthOf p (BitVec.ofNat 5 h) && widthOf p (BitVec.ofNat 5 h) ≤ 16) &&
  (List.range' 8 24).all (fun h =>
    p.hebapMax.toNat < h || (3 ≤ widthOf p (BitVec.ofNat 5 h) && widthOf p (BitVec.ofNat 5 h) ≤ 16))

/-! ## Reference contents (93_implementation_defined.md; PRESUMED, log entry 9) -/

/-- I1, the widths of hebap 0 to 19; a larger hebap is never used (R11). -/
def referenceBits : Vector (BitVec 5) 32 :=
  #v[0, 2, 3, 4, 5, 7, 8, 9, 3, 4, 5, 6, 7, 8, 9, 10, 11, 12, 14, 16, 0, 0, 0, 0, 0, 0, 0, 0, 0, 0, 0, 0]

/-- I2, for hebap 8 to 19; a larger hebap is never used (R11). -/
def referenceRemap1 : Vector (BitVec 16) 24 :=
  #v[4681, 2185, 1057, 520, 258, 129, 64, 32, 16, 8, 2, 0, 0, 0, 0, 0, 0, 0, 0, 0, 0, 0, 0, 0]

/-- A row of two signed 16-bit entries, for g = 1 and g = 2. -/
def entryPair (a b : Int) : Vector (BitVec 16) 2 := #v[BitVec.ofInt 16 a, BitVec.ofInt 16 b]

/-- I3, REMAP_A for hebap 8 to 16. -/
def referenceRemapA : Vector (Vector (BitVec 16) 2) 9 :=
  #v[entryPair (-10923) (-4681), entryPair (-14043) (-6554), entryPair (-15292) (-7399),
     entryPair (-15855) (-7802), entryPair (-16124) (-7998), entryPair (-16255) (-8096),
     entryPair (-16320) (-8144), entryPair (-16352) (-8168), entryPair (-16368) (-8180)]

/-- I3, REMAP_B for hebap 8 to 16. -/
def referenceRemapB : Vector (Vector (BitVec 16) 2) 9 :=
  #v[entryPair (-5461) (-1170), entryPair (-11703) (-4915), entryPair (-14199) (-6606),
     entryPair (-15327) (-7412), entryPair (-15864) (-7805), entryPair (-16126) (-7999),
     entryPair (-16255) (-8096), entryPair (-16320) (-8144), entryPair (-16352) (-8168)]

/-- A row of five signed 25-bit entries, for i = 1 to 5. -/
def cosRow (a b c d e : Int) : Vector (BitVec 25) 5 :=
  #v[BitVec.ofInt 25 a, BitVec.ofInt 25 b, BitVec.ofInt 25 c, BitVec.ofInt 25 d, BitVec.ofInt 25 e]

/-- I5, COS_TAB for blocks 0 to 5. -/
def referenceCosTab : Vector (Vector (BitVec 25) 5) 6 :=
  #v[cosRow 11459052 10273905 8388608 5931642 3070444,
     cosRow 8388608 0 (-8388607) (-11863282) (-8388607),
     cosRow 3070444 (-10273904) (-8388607) 5931642 11459052,
     cosRow (-3070443) (-10273904) 8388608 5931642 (-11459051),
     cosRow (-8388607) 0 8388608 (-11863282) 8388608,
     cosRow (-11459051) 10273905 (-8388607) 5931642 (-3070443)]

/-- The reference parameters: the tables of I1 to I5, HEBAP_MAX 19 (I8), the policy FAULT (92 D13), no VQ row known. -/
def referenceParams : Params where
  hebapMax := 19
  bits := referenceBits
  vq := []
  remap1 := referenceRemap1
  remapA := referenceRemapA
  remapB := referenceRemapB
  cosTab := referenceCosTab
  policy := .fault

end Sys2Proof.Machine
end

