-- ==== Sys2Proof/Machine/State.lean ====
section
/-! DEFINITION. The state of AGMD (10_state.md), the external agents as AGMD sees them, the reasons a step can stop, and reset. -/

namespace Sys2Proof.Machine

/-- A sparse store of w-bit cells by index, indexes rising, no cell listed that holds zero (log entry 20). -/
abbrev Memory (w : Nat) := List (Nat × BitVec w)

/-- The fields of STATUS (R34); `bin` is 0x1FF where no bin applies. -/
structure Status where
  err  : Bool
  code : BitVec 4
  ch   : BitVec 3
  bin  : BitVec 9
  deriving DecidableEq, Repr

/-- STATUS = 0 (R48). -/
def Status.clear : Status := ⟨false, 0, 0, 0⟩

/-- The registers, stores and hidden bits of one channel slot (R36 to R44).
Bins are store indexes; the six pre-mantissas of bin b stand at 6*b .. 6*b+5.
`stop` is the field END. -/
structure Channel where
  start    : BitVec 9
  stop     : BitVec 9
  wRange   : Bool
  gaqValid : Bool
  gaqMode  : BitVec 2
  bap      : Memory 5
  wBap     : Memory 1
  dexp     : Memory 5
  wDexp    : Memory 1
  pm       : Memory 32
  pmv      : Memory 1
  coef     : Memory 32
  cv       : Memory 1
  deriving DecidableEq, Repr

/-- A channel after reset: written and valid bits 0, GAQMODE 0 (R48), the unspecified values zero (log entry 5). -/
def Channel.reset : Channel where
  start := 0
  stop := 0
  wRange := false
  gaqValid := false
  gaqMode := 0
  bap := []
  wBap := []
  dexp := []
  wDexp := []
  pm := []
  pmv := []
  coef := []
  cv := []

/-- The phases of the sequencer (R31). -/
inductive Phase where
  | idle
  | mode
  | gain
  | mant
  | idct
  deriving DecidableEq, Repr

/-- SEQ = (phase, bin, blk, k, gc) (R31). -/
structure Seq where
  phase : Phase
  bin   : Nat
  blk   : Nat
  k     : Nat
  gc    : Nat
  deriving DecidableEq, Repr

/-- (IDLE, 0, 0, 0, 0) (R31, R48). -/
def Seq.idle : Seq := ⟨.idle, 0, 0, 0, 0⟩

/-- The transient state of a running command (R45): its operands CH and BLK, the gain mode, the staging copy SPM,
the gain list G (n_G is its length) and the staged coefficients C of an IDCT (43_idct.md R260). -/
structure Staging where
  ch    : Chan
  blk   : Blk
  mode  : BitVec 2
  spm   : Memory 32
  gains : List Nat
  coefs : Memory 32
  deriving DecidableEq, Repr

/-- No command runs (R45, R48; log entry 18). -/
def Staging.empty : Staging := ⟨0, 0, 0, [], [], []⟩

/-- What the host does next (log entries 2 and 13): an access of the host port (R81), a reset (R340),
placing the bit cursor (R91, R344), seeding the dither source (R344). -/
inductive Event where
  | access (r : BusReq)
  | reset
  | placeCursor (bits : Bits)
  | seedDither (draws : List (BitVec 23))
  deriving DecidableEq, Repr

/-- The state of AGMD and of its surroundings.
`status` to `staging` are AGMD's (10_state.md R32 to R45), `rom` its read-only tables and parameters (R46; log entry 9),
`cursor`, `dither`, `ditherCount` and `host` the external agents (R47), `rdata` and `draws` the model's own (log entries 3, 6). -/
structure State where
  status      : Status
  chans       : Vector Channel 7
  seq         : Seq
  staging     : Staging
  rom         : Params
  cursor      : Bits
  dither      : List (BitVec 23)
  ditherCount : Nat
  host        : List Event
  rdata       : Word
  draws       : Nat
  deriving DecidableEq, Repr

/-- Why a host access fails (R84, R85). A bus error changes no AGMD state (R86: "a model records it as a fault of the
host program"). All four are raised by HOST_READ and HOST_WRITE, and all four are safe: the model stops (log entry 4). -/
inductive Fault where
  /-- An access of any width but 32 bits (R84). Raised by HOST_READ and HOST_WRITE; safe. -/
  | busWidth
  /-- An address that is not a multiple of 4 (R84). Raised by HOST_READ and HOST_WRITE; safe. -/
  | busMisaligned
  /-- An access to an unmapped address (R84). Raised by HOST_READ and HOST_WRITE; safe. -/
  | busUnmapped
  /-- A read of a WO register, or a write of a RO register (R85). Raised by HOST_READ and HOST_WRITE; safe. -/
  | busDirection
  deriving DecidableEq, Repr

/-- Why a step is refused. -/
inductive Refusal where
  /-- The instruction has no meaning yet. Raised by no arm of exec; safe. -/
  | notModelled (mnemonic : String)
  deriving DecidableEq, Repr

/-- AGMD right after reset (R48, R340), with the reference tables (log entry 9), nothing known of the external agents
(log entries 7 and 8) and a host that has not begun (log entry 12). -/
def State.reset : State where
  status := Status.clear
  chans := Vector.replicate 7 Channel.reset
  seq := Seq.idle
  staging := Staging.empty
  rom := referenceParams
  cursor := []
  dither := []
  ditherCount := 0
  host := []
  rdata := 0
  draws := 0

end Sys2Proof.Machine
end

