-- ==== Sys2Proof/Machine/Ops.lean ====
section
/-! DEFINITION. The named operations over the state: fixed-point arithmetic, stores, channels, the external agents,
the error entry and the return from it. -/

namespace Sys2Proof.Machine

/-! ## Arithmetic (00_scope.md R16) -/

/-- asr(v, n) = floor(v / 2^n). -/
def asr (v : Int) (n : Nat) : Int := v / (2 : Int) ^ n

/-- v << n = v * 2^n, for negative v too. -/
def shl (v : Int) (n : Nat) : Int := v * (2 : Int) ^ n

/-- The 32-bit two's-complement register value of trunc32(v) (R10, R16). -/
def toReg (v : Int) : Word := BitVec.ofInt 32 v

/-! ## Stores -/

/-- The cell at index `a`; a cell that is not listed holds zero. -/
def Memory.get {w : Nat} : Memory w → Nat → BitVec w
  | [], _ => 0
  | (k, x) :: rest, a => if k = a then x else Memory.get rest a

/-- Store `v` at index `a`, keeping the canonical form. -/
def Memory.set {w : Nat} : Memory w → Nat → BitVec w → Memory w
  | [], a, v => if v = 0 then [] else [(a, v)]
  | (k, x) :: rest, a, v =>
    if a < k then (if v = 0 then (k, x) :: rest else (a, v) :: (k, x) :: rest)
    else if a = k then (if v = 0 then rest else (a, v) :: rest)
    else (k, x) :: Memory.set rest a v

/-- The canonical form: indexes strictly rising, no listed cell zero. -/
def Memory.wf {w : Nat} : Memory w → Bool
  | [] => true
  | (k, x) :: rest => x != 0 && rest.all (fun p => decide (k < p.1)) && Memory.wf rest

/-- Copy the `n` cells from index `a` on out of `src` into `dst`. -/
def copyRange {w : Nat} (dst src : Memory w) (a n : Nat) : Memory w :=
  (List.range' a n).foldl (fun m k => m.set k (src.get k)) dst

/-- The bits that are 1 exactly at the `n` indexes from `a` on. -/
def onesRange (a n : Nat) : Memory 1 := (List.range' a n).map (fun b => (b, 1#1))

/-! ## Channels -/

/-- The slot `ch`. -/
def State.chan (s : State) (ch : Chan) : Channel := s.chans[ch.val]'ch.isLt

/-- Replace the slot `ch`. -/
def State.setChan (s : State) (ch : Chan) (c : Channel) : State := { s with chans := s.chans.set ch.val c ch.isLt }

/-- START as an index (R36). -/
def Channel.first (c : Channel) : Nat := c.start.toNat

/-- END as an index (R36). -/
def Channel.last (c : Channel) : Nat := c.stop.toNat

/-- How many bins the coded range [START, END) has (R8). -/
def Channel.count (c : Channel) : Nat := c.last - c.first

/-- The bins of the coded range, ascending. -/
def Channel.bins (c : Channel) : List Nat := List.range' c.first c.count

/-- The index of PM[ch][bin][blk] in the store of its channel. -/
def pmIndex (bin blk : Nat) : Nat := 6 * bin + blk

/-! ## Free values and the external agents -/

/-- The free value of this draw, and the state with the draw counted (log entry 6). -/
def drawWord (s : State) : Word × State := (Config.freeWord s.draws, { s with draws := s.draws + 1 })

/-- Dither(): the next value of the dither source (20_memory.md R92; log entry 8). -/
def drawDither (s : State) : BitVec 23 × State :=
  match s.dither with
  | d :: rest => (d, { s with dither := rest, ditherCount := s.ditherCount + 1 })
  | [] => (Config.freeDither s.ditherCount, { s with ditherCount := s.ditherCount + 1 })

/-- The cursor after a failed read: past the bits already consumed by a free number of bits (20_memory.md R90; log entry 7). -/
def loseCursor (s : State) : State :=
  { s with cursor := s.cursor.drop (Config.freeCursorSkip s.draws), draws := s.draws + 1 }

/-! ## The error entry (60_exceptions.md R300, R310) and the return from it (R314) -/

/-- The eight error causes of R300. -/
inductive ErrCode where
  | illegalCmd
  | badRange
  | badHebap
  | gaqGroupRange
  | cursorFail
  | premantUnwritten
  | inputUnwritten
  | badDexp
  deriving DecidableEq, Repr

/-- STATUS.CODE of a cause (R300). -/
def ErrCode.number : ErrCode → BitVec 4
  | .illegalCmd => 1
  | .badRange => 2
  | .badHebap => 3
  | .gaqGroupRange => 4
  | .cursorFail => 5
  | .premantUnwritten => 6
  | .inputUnwritten => 7
  | .badDexp => 8

/-- BIN where no bin applies (R34). -/
def noBin : BitVec 9 := 0x1FF

/-- BIN of a bin (R34). -/
def binField (b : Nat) : BitVec 9 := BitVec.ofNat 9 b

/-- The command that raises an error (R310): an illegal word with its raw CH field, AHT_DECODE(ch) or IDCT(ch, blk). -/
inductive Origin where
  | dispatch (chField : BitVec 3)
  | aht (ch : Chan)
  | idct (ch : Chan)
  deriving DecidableEq, Repr

/-- STATUS.CH of a failing command (R300). -/
def Origin.chField : Origin → BitVec 3
  | .dispatch f => f
  | .aht ch => BitVec.ofNat 3 ch.val
  | .idct ch => BitVec.ofNat 3 ch.val

/-- The end of a command: SEQ is IDLE and nothing is staged (10_state.md R31, R45). -/
def endCommand (s : State) : State := { s with seq := Seq.idle, staging := Staging.empty }

/-- What the error entry does to the failing channel (R310). -/
def invalidate (o : Origin) (s : State) : State :=
  match o with
  | .dispatch _ => s
  | .aht ch => s.setChan ch { s.chan ch with pmv := [], gaqValid := false, gaqMode := 0 }
  | .idct ch => s.setChan ch { s.chan ch with cv := [] }

/-- raise Error(code, ch, bin), the error entry (R310). -/
def raiseError (o : Origin) (code : ErrCode) (bin : BitVec 9) (s : State) : State :=
  endCommand (invalidate o { s with status := ⟨true, code.number, o.chField, bin⟩ })

/-- A channel after FRAME_START (40_commands.md R157). -/
def Channel.newFrame (c : Channel) : Channel := { c with gaqValid := false, gaqMode := 0, pmv := [], cv := [] }

/-- The return from the error state: STATUS cleared and every channel's outputs invalidated (R157, R314). -/
def returnFromError (s : State) : State :=
  { s with status := Status.clear, chans := s.chans.map Channel.newFrame }

end Sys2Proof.Machine
end

