-- ==== Sys2Proof/Machine/Flags.lean ====
section
/-! DEFINITION. STATUS, AGMD's only flag register (10_state.md R34, R35), and GAQMODE as words. -/

namespace Sys2Proof.Machine

/-- STATUS as the host reads it (R34). -/
def Status.word (t : Status) : Word :=
  (0#15 ++ (t.bin ++ (t.ch ++ (t.code ++ BitVec.ofBool t.err))) : BitVec (15 + (9 + (3 + (4 + 1)))))

/-- The values R34 allows: 0 throughout when ERR = 0; a code of 1 to 8 and a bin of 0 to 255 or 0x1FF when ERR = 1. -/
def Status.legal (t : Status) : Bool :=
  if t.err then 1 ≤ t.code.toNat && t.code.toNat ≤ 8 && (t.bin.toNat < 256 || t.bin == noBin)
  else t.code == 0 && t.ch == 0 && t.bin == 0

/-- STATUS.ERR = 1: commands other than FRAME_START are dropped (R35, 40_commands.md R153, R154). -/
def State.inError (s : State) : Bool := s.status.err

/-- GAQMODE[ch] as the host reads it: 0 when VALID = 0 (R37). -/
def Channel.gaqWord (c : Channel) : Word :=
  if c.gaqValid then (1#1 ++ (0#29 ++ c.gaqMode) : BitVec (1 + (29 + 2))) else 0

end Sys2Proof.Machine
end

