-- ==== Sys2Proof/Machine/Operands.lean ====
section
/-! DEFINITION. The operand forms: the register map of the host port (20_memory.md R82, R83) with the field layouts
(10_state.md R36 to R41), and the bin operands of the commands. -/

namespace Sys2Proof.Machine

/-- A host-visible register (10_state.md R32). -/
inductive Reg where
  | cmd
  | status
  | range (ch : Chan)
  | gaqmode (ch : Chan)
  | bap (ch : Chan) (bin : Fin 256)
  | dexp (ch : Chan) (bin : Fin 256)
  | coef (ch : Chan) (bin : Fin 256)
  | pm (ch : Chan) (bin : Fin 256) (blk : Blk)
  deriving DecidableEq, Repr

/-- The element address of a register (R82). -/
def Reg.addr : Reg → Nat
  | .cmd => 0x00000
  | .status => 0x00004
  | .range ch => 0x00010 + 4 * ch.val
  | .gaqmode ch => 0x00040 + 4 * ch.val
  | .bap ch bin => 0x01000 + 0x400 * ch.val + 4 * bin.val
  | .dexp ch bin => 0x03000 + 0x400 * ch.val + 4 * bin.val
  | .coef ch bin => 0x05000 + 0x400 * ch.val + 4 * bin.val
  | .pm ch bin blk => 0x08000 + 0x1800 * ch.val + 0x18 * bin.val + 4 * blk.val

/-- The channel of an array offset with 0x400 bytes a channel (R83). -/
def arrayChan (off : Nat) : Chan := Fin.ofNat 7 (off / 0x400)

/-- The bin of an array offset with 0x400 bytes a channel (R83). -/
def arrayBin (off : Nat) : Fin 256 := Fin.ofNat 256 (off % 0x400 / 4)

/-- The register at a word-aligned address, none where it is unmapped (R82, R83). -/
def regAt (a : Nat) : Option Reg :=
  if a = 0x00000 then some .cmd
  else if a = 0x00004 then some .status
  else if 0x00010 ≤ a ∧ a ≤ 0x00028 then some (.range (Fin.ofNat 7 ((a - 0x00010) / 4)))
  else if 0x00040 ≤ a ∧ a ≤ 0x00058 then some (.gaqmode (Fin.ofNat 7 ((a - 0x00040) / 4)))
  else if 0x01000 ≤ a ∧ a ≤ 0x02BFC then some (.bap (arrayChan (a - 0x01000)) (arrayBin (a - 0x01000)))
  else if 0x03000 ≤ a ∧ a ≤ 0x04BFC then some (.dexp (arrayChan (a - 0x03000)) (arrayBin (a - 0x03000)))
  else if 0x05000 ≤ a ∧ a ≤ 0x06BFC then some (.coef (arrayChan (a - 0x05000)) (arrayBin (a - 0x05000)))
  else if 0x08000 ≤ a ∧ a ≤ 0x127FC then
    let off := a - 0x08000
    let r := off % 0x1800
    some (.pm (Fin.ofNat 7 (off / 0x1800)) (Fin.ofNat 256 (r / 0x18)) (Fin.ofNat 6 (r % 0x18 / 4)))
  else none

/-- The registers a host read may name: all but the WO register CMD (R82, R85). -/
def Reg.readable : Reg → Bool
  | .cmd => false
  | .status => true
  | .range _ => true
  | .gaqmode _ => true
  | .bap _ _ => true
  | .dexp _ _ => true
  | .coef _ _ => true
  | .pm _ _ _ => true

/-- The registers a host write may name: all but the RO registers (R82, R85). -/
def Reg.writable : Reg → Bool
  | .cmd => true
  | .status => false
  | .range _ => true
  | .gaqmode _ => false
  | .bap _ _ => true
  | .dexp _ _ => true
  | .coef _ _ => false
  | .pm _ _ _ => false

/-- The register a host access reaches, or the bus error it is (R84, R85). -/
def busTarget (width : Nat) (a : HostAddr) (allowed : Reg → Bool) : Except Fault Reg :=
  if width ≠ 32 then .error .busWidth
  else if a.toNat % 4 ≠ 0 then .error .busMisaligned
  else
    match regAt a.toNat with
    | none => .error .busUnmapped
    | some r => if allowed r then .ok r else .error .busDirection

/-- RANGE[ch] as the host reads it: START in [8:0], END in [24:16] (R36). -/
def Channel.rangeWord (c : Channel) : Word := (0#7 ++ (c.stop ++ (0#7 ++ c.start)) : BitVec (7 + (9 + (7 + 9))))

/-- START of a word written to RANGE (R36). -/
def startField (v : Word) : BitVec 9 := v.extractLsb' 0 9

/-- END of a word written to RANGE (R36). -/
def stopField (v : Word) : BitVec 9 := v.extractLsb' 16 9

/-- HEBAP of a word written to BAP, and EXP of a word written to DEXP (R38, R39). -/
def lowFive (v : Word) : BitVec 5 := v.extractLsb' 0 5

/-- The word a host read returns, none where the cell was never written or is not valid (40_commands.md R150).
CMD holds no state (R33). -/
def Reg.stored (s : State) : Reg → Option Word
  | .cmd => none
  | .status => some s.status.word
  | .range ch => if (s.chan ch).wRange then some (s.chan ch).rangeWord else none
  | .gaqmode ch => some (s.chan ch).gaqWord
  | .bap ch bin =>
    if (s.chan ch).wBap.get bin.val = 1 then some (((s.chan ch).bap.get bin.val).setWidth 32) else none
  | .dexp ch bin =>
    if (s.chan ch).wDexp.get bin.val = 1 then some (((s.chan ch).dexp.get bin.val).setWidth 32) else none
  | .coef ch bin => if (s.chan ch).cv.get bin.val = 1 then some ((s.chan ch).coef.get bin.val) else none
  | .pm ch bin blk =>
    if (s.chan ch).pmv.get bin.val = 1 then some ((s.chan ch).pm.get (pmIndex bin.val blk.val)) else none

/-- The bits of a register that a draw fills; its reserved bits read 0 (R36, R38, R39; 93 U1 to U4). -/
def Reg.openBits : Reg → Word
  | .cmd => 0
  | .status => 0
  | .range _ => 0x01FF01FF
  | .gaqmode _ => 0
  | .bap _ _ => 0x1F
  | .dexp _ _ => 0x1F
  | .coef _ _ => 0xFFFFFFFF
  | .pm _ _ _ => 0xFFFFFFFF

/-! ## Bin operands of the commands -/

/-- BAP[ch][b] (R38). -/
def Channel.hebap (c : Channel) (b : Nat) : Hebap := c.bap.get b

/-- DEXP[ch][b] (R39). -/
def Channel.exponent (c : Channel) (b : Nat) : Nat := (c.dexp.get b).toNat

/-- PM[ch][b][blk] as an integer (R40). -/
def Channel.premant (c : Channel) (b blk : Nat) : Int := (c.pm.get (pmIndex b blk)).toInt

/-- The threshold of a gain mode (41_gaq_gain.md R193). -/
def threshold (mode : BitVec 2) : Nat := if mode.toNat < 2 then 12 else 17

/-- A qualifying bin: 7 < hebap < thr (R194). -/
def qualifies (mode : BitVec 2) (h : Hebap) : Bool := decide (7 < h.toNat ∧ h.toNat < threshold mode)

/-- A bin that takes a gain: a qualifying bin of a mode other than NONE (R199). -/
def takesGain (mode : BitVec 2) (h : Hebap) : Bool := mode != 0 && qualifies mode h

end Sys2Proof.Machine
end

