-- ==== Sys2Proof/Machine/GainPhase.lean ====
section
/-! DEFINITION. The gain phase of AHT_DECODE: GAQMOD, GAQGAIN and GAQGRP (41_gaq_gain.md R192 to R203). -/

namespace Sys2Proof.Machine

/-- The channel of the running command. -/
def State.running (s : State) : Channel := s.chan s.staging.ch

/-- The hebap of the bin SEQ stands at. -/
def State.binHebap (s : State) : Hebap := s.running.hebap s.seq.bin

/-- SEQ goes on to the next bin of the gain phase with group counter `gc` (R195, R196). -/
def nextGainBin (gc : Nat) (s : State) : State := { s with seq := { s.seq with bin := s.seq.bin + 1, gc := gc } }

/-- Append to the gain list G (10_state.md R45). -/
def addGains (gs : List Nat) (s : State) : State :=
  { s with staging := { s.staging with gains := s.staging.gains ++ gs } }

/-- GAQMOD (R192, R193): the mode is kept, and the gain phase begins at START with n_G = 0 and gc = 2 (R195, R196). -/
def applyGaqmod (mode : BitVec 2) (s : State) : State :=
  { s with
    staging := { s.staging with mode := mode, gains := [] }
    seq := ⟨.gain, s.running.first, 0, 0, 2⟩ }

/-- The gain of a GAQGAIN bit: bit << (mode - 1) (R195). -/
def gainOfBit (mode : BitVec 2) (gain : BitVec 1) : Nat := gain.toNat * 2 ^ (mode.toNat - 1)

/-- GAQGAIN (R195). -/
def applyGaqgain (gain : BitVec 1) (s : State) : State :=
  nextGainBin s.seq.gc (addGains [gainOfBit s.staging.mode gain] s)

/-- A group code that is out of range under the policy FAULT (R198). -/
def groupFaults (p : Params) (code : BitVec 5) : Bool := decide (26 < code.toNat) && p.policy == .fault

/-- The code that is ungrouped: CLAMP treats a code above 26 as 26 (R198). -/
def clampCode (code : BitVec 5) : Nat := if 26 < code.toNat then 26 else code.toNat

/-- GAQGRP (R196 to R198). -/
def applyGaqgrp (code : BitVec 5) (s : State) : State :=
  if groupFaults s.rom code then raiseError (.aht s.staging.ch) .gaqGroupRange (binField s.seq.bin) s
  else nextGainBin 0 (addGains (ungroup (clampCode code)) s)

/-- The meaning of GAQMOD. -/
def execGaqmod (mode : BitVec 2) (s : State) : Host.Outcome State Fault Refusal := .next (applyGaqmod mode s)

/-- The meaning of GAQGAIN. -/
def execGaqgain (gain : BitVec 1) (s : State) : Host.Outcome State Fault Refusal := .next (applyGaqgain gain s)

/-- The meaning of GAQGRP. -/
def execGaqgrp (code : BitVec 5) (s : State) : Host.Outcome State Fault Refusal := .next (applyGaqgrp code s)

end Sys2Proof.Machine
end

