-- ==== Sys2Proof/Machine/Mantissa.lean ====
section
/-! DEFINITION. The per-bin phase of AHT_DECODE: DITHER_FILL, VQ_DECODE, GAQ_PLAIN, GAQ_SMALL, GAQ_LARGE
and the commit (42_mantissa.md R220 to R237). -/

namespace Sys2Proof.Machine

/-! ## The values -/

/-- DITHER_FILL: d - 2^22 (R222). -/
def ditherValue (d : BitVec 23) : Int := (d.toNat : Int) - 4194304

/-- VQ_DECODE: VQ[h][v][blk] * 256 (R224). -/
def vqValue (p : Params) (h : Hebap) (v blk : Nat) : Int := vqEntry p h v blk * 256

/-- GAQ_PLAIN: x + asr(REMAP1[h-8] * x, 15) with x = m << (24 - w) (R227). -/
def gaqPlainValue (p : Params) (h : Hebap) (w : Nat) (m : Int) : Int :=
  let x := shl m (24 - w)
  x + asr (remap1Of p h * x) 15

/-- GAQ_SMALL: m << (24 - w), no remap (R229). -/
def gaqSmallValue (w : Nat) (m : Int) : Int := shl m (24 - w)

/-- The offset of GAQ_LARGE, by the sign of x (R231). -/
def largeOffset (p : Params) (h : Hebap) (g : Nat) (x : Int) : Int :=
  if 0 ≤ x then (2 : Int) ^ (23 - g) else remapBOf p h g * 256

/-- GAQ_LARGE: x + asr(REMAP_A[h-8][g-1] * x, 15) + b with x = L << (24 - mb), mb = w - 2 + g (R231). -/
def gaqLargeValue (p : Params) (h : Hebap) (w g : Nat) (l : Int) : Int :=
  let x := shl l (24 - (w - 2 + g))
  x + asr (remapAOf p h g * x) 15 + largeOffset p h g x

/-! ## Staging -/

/-- SPM[bin][blk] <- the register value of `v`, at the bin SEQ stands at (R190; 10_state.md R45). -/
def stagePremant (blk : Nat) (v : Int) (s : State) : State :=
  { s with staging := { s.staging with spm := s.staging.spm.set (pmIndex s.seq.bin blk) (toReg v) } }

/-- SEQ goes on to the next bin; a bin that took a gain has used up G[k] (R199; log entry 15). -/
def nextBin (s : State) : State :=
  { s with
    seq := { s.seq with
      bin := s.seq.bin + 1
      blk := 0
      k := if takesGain s.staging.mode s.binHebap then s.seq.k + 1 else s.seq.k } }

/-- SEQ goes on to the next block of a GAQ bin, and after block 5 to the next bin (R220, R221). -/
def nextBlock (s : State) : State :=
  if 5 ≤ s.seq.blk then nextBin s else { s with seq := { s.seq with blk := s.seq.blk + 1 } }

/-- One dithered pre-mantissa: draw, then stage (R222). -/
def ditherBlock (s : State) (blk : Nat) : State := stagePremant blk (ditherValue (drawDither s).1) (drawDither s).2

/-! ## The operations -/

/-- DITHER_FILL: six draws, blocks 0 to 5 (R222, R223). -/
def applyDitherFill (s : State) : State := nextBin ((List.range 6).foldl ditherBlock s)

/-- VQ_DECODE: the six entries of the codeword's row (R224, R225). -/
def applyVqDecode (h : Hebap) (_w v : Nat) (s : State) : State :=
  nextBin ((List.range 6).foldl (fun t blk => stagePremant blk (vqValue s.rom h v blk) t) s)

/-- GAQ_PLAIN for the block SEQ stands at (R227). -/
def applyGaqPlain (h : Hebap) (w : Nat) (m : Int) (s : State) : State :=
  nextBlock (stagePremant s.seq.blk (gaqPlainValue s.rom h w m) s)

/-- GAQ_SMALL for the block SEQ stands at (R229). -/
def applyGaqSmall (_h : Hebap) (w _g : Nat) (m : Int) (s : State) : State :=
  nextBlock (stagePremant s.seq.blk (gaqSmallValue w m) s)

/-- GAQ_LARGE for the block SEQ stands at (R231). -/
def applyGaqLarge (h : Hebap) (w g : Nat) (l : Int) (s : State) : State :=
  nextBlock (stagePremant s.seq.blk (gaqLargeValue s.rom h w g l) s)

/-- A channel after the commit of AHT_DECODE (R236). -/
def Channel.commitPremants (c : Channel) (mode : BitVec 2) (spm : Memory 32) : Channel :=
  { c with
    pm := copyRange c.pm spm (pmIndex c.first 0) (6 * c.count)
    pmv := onesRange c.first c.count
    gaqValid := true
    gaqMode := mode }

/-- commit(ch, s, e, mode), and the command ends (R236). -/
def commitAht (s : State) : State :=
  endCommand (s.setChan s.staging.ch (s.running.commitPremants s.staging.mode s.staging.spm))

/-- The meaning of DITHER_FILL. -/
def execDitherFill (s : State) : Host.Outcome State Fault Refusal := .next (applyDitherFill s)

/-- The meaning of VQ_DECODE. -/
def execVqDecode (h : Hebap) (w v : Nat) (s : State) : Host.Outcome State Fault Refusal := .next (applyVqDecode h w v s)

/-- The meaning of GAQ_PLAIN. -/
def execGaqPlain (h : Hebap) (w : Nat) (m : Int) (s : State) : Host.Outcome State Fault Refusal :=
  .next (applyGaqPlain h w m s)

/-- The meaning of GAQ_SMALL. -/
def execGaqSmall (h : Hebap) (w g : Nat) (m : Int) (s : State) : Host.Outcome State Fault Refusal :=
  .next (applyGaqSmall h w g m s)

/-- The meaning of GAQ_LARGE. -/
def execGaqLarge (h : Hebap) (w g : Nat) (l : Int) (s : State) : Host.Outcome State Fault Refusal :=
  .next (applyGaqLarge h w g l s)

end Sys2Proof.Machine
end

