-- ==== Sys2Proof/Machine/Coefficient.lean ====
section
/-! DEFINITION. The arithmetic, the input checks and the commit of IDCT (43_idct.md R260 to R268). -/

namespace Sys2Proof.Machine

/-- acc of a bin: PM[0] plus the five floored products (R260, R262). -/
def idctSum (p : Params) (blk : Blk) (pm : Nat → Int) : Int :=
  (List.range' 1 5).foldl (fun acc i => acc + asr (cosOf p blk i * pm i) 23) (pm 0)

/-- C[b] = trunc32(asr(acc, DEXP[ch][b])) (R260, R264). -/
def idctCoef (p : Params) (c : Channel) (blk : Blk) (b : Nat) : Word :=
  toReg (asr (idctSum p blk (c.premant b)) (c.exponent b))

/-- The check of one bin of IDCT, in the order of R261. -/
def idctBinError (c : Channel) (b : Nat) : Option (ErrCode × BitVec 9) :=
  if c.pmv.get b ≠ 1 then some (.premantUnwritten, binField b)
  else if c.wDexp.get b ≠ 1 then some (.inputUnwritten, binField b)
  else if Config.dexpMax < c.exponent b then some (.badDexp, binField b)
  else none

/-- The range check that AHT_DECODE and IDCT share (R191, R261): INPUT_UNWRITTEN for RANGE, then BAD_RANGE. -/
def rangeError (c : Channel) : Option (ErrCode × BitVec 9) :=
  if c.wRange = false then some (.inputUnwritten, noBin)
  else if c.first ≤ c.last ∧ c.last ≤ 256 then none
  else some (.badRange, noBin)

/-- check_idct_inputs(ch): the first error in the order of R261, if any. -/
def idctInputError (c : Channel) : Option (ErrCode × BitVec 9) :=
  match rangeError c with
  | some e => some e
  | none => c.bins.findSome? (idctBinError c)

/-- C[bin] is staged for the bin SEQ stands at, and SEQ goes on to the next bin (R260). -/
def stageCoef (s : State) : State :=
  { s with
    staging := { s.staging with
      coefs := s.staging.coefs.set s.seq.bin (idctCoef s.rom s.running s.staging.blk s.seq.bin) }
    seq := { s.seq with bin := s.seq.bin + 1 } }

/-- A channel after the commit of IDCT (R265). -/
def Channel.commitCoefs (c : Channel) (coefs : Memory 32) : Channel :=
  { c with coef := copyRange c.coef coefs c.first c.count, cv := onesRange c.first c.count }

/-- commit_idct(ch, s, e), and the command ends (R265). -/
def commitIdct (s : State) : State :=
  endCommand (s.setChan s.staging.ch (s.running.commitCoefs s.staging.coefs))

end Sys2Proof.Machine
end

