-- ==== Sys2Proof/Machine/Sequencer.lean ====
section
/-! DEFINITION. The sequencer of a running command (10_state.md R31, 30_encoding.md R125): what SEQ does next, one action at a
time, and the whole run of a command (20_memory.md R100; log entry 1). -/

namespace Sys2Proof.Machine

/-- What SEQ does next: fetch and run a bitstream element, or a move that reads no bits. -/
inductive Action where
  | element (slot : Slot)
  | move (t : State)
  deriving DecidableEq, Repr

/-- The gain phase is over: the bins are visited from START on with k = 0 (41_gaq_gain.md R190). -/
def beginBins (s : State) : State :=
  { s with seq := { s.seq with phase := .mant, bin := s.running.first, blk := 0, k := 0 } }

/-- The gain shift g of the bin SEQ stands at (41_gaq_gain.md R199). -/
def binGain (s : State) : Nat :=
  if takesGain s.staging.mode s.binHebap then s.staging.gains.getD s.seq.k 0 else 0

/-- The gain phase (R195, R196, R200): past the range, or in mode NONE, on to the bins; a bin that takes no gain is passed over;
modes HALF-STEP and QUARTER-STEP read a GAQGAIN; MIXED reads a GAQGRP when gc = 2 and else counts the bin. -/
def gainAction (s : State) : Action :=
  if s.staging.mode = 0 ∨ s.running.last ≤ s.seq.bin then .move (beginBins s)
  else if takesGain s.staging.mode s.binHebap = false then .move (nextGainBin s.seq.gc s)
  else if s.staging.mode ≠ 3 then .element .gaqgain
  else if s.seq.gc = 2 then .element .gaqgrp
  else .move (nextGainBin (s.seq.gc + 1) s)

/-- The per-bin phase (42_mantissa.md R220): past the range the commit, else the branch on the bin's hebap. -/
def mantAction (s : State) : Action :=
  if s.running.last ≤ s.seq.bin then .move (commitAht s)
  else if s.binHebap = 0 then .element .dither
  else if s.binHebap.toNat ≤ 7 then .element (.vqcw s.binHebap (widthOf s.rom s.binHebap))
  else .element (.gmant s.binHebap (widthOf s.rom s.binHebap) (binGain s))

/-- The bins of an IDCT, ascending, then the commit (43_idct.md R260). -/
def idctAction (s : State) : Action :=
  if s.running.last ≤ s.seq.bin then .move (commitIdct s) else .move (stageCoef s)

/-- What SEQ does next, by its phase (R31). -/
def nextAction (s : State) : Action :=
  match s.seq.phase with
  | .idle => .move s
  | .mode => .element .gaqmod
  | .gain => gainAction s
  | .mant => mantAction s
  | .idct => idctAction s

/-- CURSOR_FAIL at the bin SEQ stands at, and with no bin at GAQMOD (20_memory.md R90, 60_exceptions.md R304). -/
def cursorError (s : State) : State :=
  raiseError (.aht s.staging.ch) .cursorFail (if s.seq.phase = .mode then noBin else binField s.seq.bin) (loseCursor s)

/-- Run a fetched element. The fetch gives no other instruction, and the others change nothing here. -/
def runElement (i : Instr) (s : State) : State :=
  match i with
  | .nop => s
  | .frameStart => s
  | .ahtDecode _ => s
  | .idct _ _ => s
  | .illegal _ => s
  | .hostRead _ _ => s
  | .hostWrite _ _ _ => s
  | .gaqmod mode => applyGaqmod mode s
  | .gaqgain gain => applyGaqgain gain s
  | .gaqgrp code => applyGaqgrp code s
  | .ditherFill => applyDitherFill s
  | .vqDecode h w v => applyVqDecode h w v s
  | .gaqPlain h w m => applyGaqPlain h w m s
  | .gaqSmall h w g m => applyGaqSmall h w g m s
  | .gaqLarge h w g l => applyGaqLarge h w g l s

/-- One action of SEQ. -/
def seqStep (s : State) : State :=
  match nextAction s with
  | .move t => t
  | .element slot =>
    match decodeElement slot s.cursor with
    | .element i rest => runElement i { s with cursor := rest }
    | .cursorFail rest => cursorError { s with cursor := rest }

/-- At most `n` actions of SEQ, until it is IDLE. -/
def runToIdle : Nat → State → State
  | 0, s => s
  | n + 1, s => if s.seq.phase = .idle then s else runToIdle n (seqStep s)

/-- More actions than any command takes: 1 for GAQMOD, 257 for the gain phase, 6 * 256 + 1 for the bins (R357). -/
def commandFuel : Nat := 2048

end Sys2Proof.Machine
end

