-- ==== Sys2Proof/Machine/Commands.lean ====
section
/-! DEFINITION. The command words: NOP, FRAME_START, AHT_DECODE, IDCT and the illegal words, each with the dispatch's check of the
error state (40_commands.md R153 to R161, 41_gaq_gain.md R190 and R191, 43_idct.md R260). -/

namespace Sys2Proof.Machine

/-- A command that the error state drops (R153, R154). -/
def unlessInError (run : State → State) (s : State) : Host.Outcome State Fault Refusal :=
  if s.inError then .next s else .next (run s)

/-- NOP (R155). -/
def execNop (s : State) : Host.Outcome State Fault Refusal := unlessInError id s

/-- FRAME_START, also in the error state (R153, R157). -/
def execFrameStart (s : State) : Host.Outcome State Fault Refusal := .next (returnFromError s)

/-- The check of one bin of AHT_DECODE, in the order of R191. -/
def ahtBinError (p : Params) (c : Channel) (b : Nat) : Option (ErrCode × BitVec 9) :=
  if c.wBap.get b ≠ 1 then some (.inputUnwritten, binField b)
  else if p.hebapMax.toNat < (c.hebap b).toNat then some (.badHebap, binField b)
  else none

/-- check_inputs(ch): the first error in the order of R191, if any. -/
def ahtInputError (p : Params) (c : Channel) : Option (ErrCode × BitVec 9) :=
  match rangeError c with
  | some e => some e
  | none => c.bins.findSome? (ahtBinError p c)

/-- SEQ at the first read of AHT_DECODE(ch) (10_state.md R31). -/
def beginAht (ch : Chan) (s : State) : State :=
  { s with seq := ⟨.mode, 0, 0, 0, 0⟩, staging := { Staging.empty with ch := ch } }

/-- AHT_DECODE(ch): the input checks, then the whole command (R190). -/
def ahtDecode (ch : Chan) (s : State) : State :=
  match ahtInputError s.rom (s.chan ch) with
  | some (code, bin) => raiseError (.aht ch) code bin s
  | none => runToIdle commandFuel (beginAht ch s)

/-- The meaning of AHT_DECODE. -/
def execAhtDecode (ch : Chan) (s : State) : Host.Outcome State Fault Refusal := unlessInError (ahtDecode ch) s

/-- SEQ at the first bin of IDCT(ch, blk) (10_state.md R31). -/
def beginIdct (ch : Chan) (blk : Blk) (s : State) : State :=
  { s with
    seq := ⟨.idct, (s.chan ch).first, 0, 0, 0⟩
    staging := { Staging.empty with ch := ch, blk := blk } }

/-- IDCT(ch, blk): the input checks, then the whole command (R260). -/
def idct (ch : Chan) (blk : Blk) (s : State) : State :=
  match idctInputError (s.chan ch) with
  | some (code, bin) => raiseError (.idct ch) code bin s
  | none => runToIdle commandFuel (beginIdct ch blk s)

/-- The meaning of IDCT. -/
def execIdct (ch : Chan) (blk : Blk) (s : State) : Host.Outcome State Fault Refusal := unlessInError (idct ch blk) s

/-- The meaning of an illegal word: ILLEGAL_CMD with the word's raw CH field and no bin (R153, R301). -/
def execIllegal (w : Word) (s : State) : Host.Outcome State Fault Refusal :=
  unlessInError (raiseError (.dispatch (cmdCh w)) .illegalCmd noBin) s

/-- The command dispatch of a word written to CMD (R153). The decoder gives command words only. -/
def runCommand (w : Word) (s : State) : Host.Outcome State Fault Refusal :=
  match decodeCommand w with
  | .nop => execNop s
  | .frameStart => execFrameStart s
  | .ahtDecode ch => execAhtDecode ch s
  | .idct ch blk => execIdct ch blk s
  | .illegal x => execIllegal x s
  | .hostRead _ _ => .next s
  | .hostWrite _ _ _ => .next s
  | .gaqmod _ => .next s
  | .gaqgain _ => .next s
  | .gaqgrp _ => .next s
  | .ditherFill => .next s
  | .vqDecode _ _ _ => .next s
  | .gaqPlain _ _ _ => .next s
  | .gaqSmall _ _ _ _ => .next s
  | .gaqLarge _ _ _ _ => .next s

end Sys2Proof.Machine
end

