-- ==== Sys2Proof/Machine/HostAccess.lean ====
section
/-! DEFINITION. The host operations HOST_READ and HOST_WRITE (40_commands.md R150, R151), and the host's other events
(70_reset_and_hazards.md R340, R344; log entry 13). -/

namespace Sys2Proof.Machine

/-- The word a host read of a register returns: the stored one, or a free value in the register's open bits (R150). -/
def readReg (r : Reg) (s : State) : State :=
  match r.stored s with
  | some v => { s with rdata := v }
  | none => { (drawWord s).2 with rdata := (drawWord s).1 &&& r.openBits }

/-- The meaning of HOST_READ: a bus error, or the word in `rdata` and no change of AGMD state (R150, 20_memory.md R96). -/
def execHostRead (width : Nat) (a : HostAddr) (s : State) : Host.Outcome State Fault Refusal :=
  match busTarget width a Reg.readable with
  | .error f => .fault f
  | .ok r => .next (readReg r s)

/-- A channel after a write to RANGE (R151, 10_state.md R36). -/
def Channel.writeRange (c : Channel) (v : Word) : Channel :=
  { c with start := startField v, stop := stopField v, wRange := true }

/-- A channel after a write to BAP[bin] (R151, 10_state.md R38). -/
def Channel.writeBap (c : Channel) (bin : Nat) (v : Word) : Channel :=
  { c with bap := c.bap.set bin (lowFive v), wBap := c.wBap.set bin 1 }

/-- A channel after a write to DEXP[bin] (R151, 10_state.md R39). -/
def Channel.writeDexp (c : Channel) (bin : Nat) (v : Word) : Channel :=
  { c with dexp := c.dexp.set bin (lowFive v), wDexp := c.wDexp.set bin 1 }

/-- A host write of `v` to a register: an input register takes its fields, CMD runs the command (R151, R153).
A RO register is a wrong direction (20_memory.md R85). -/
def writeReg (r : Reg) (v : Word) (s : State) : Host.Outcome State Fault Refusal :=
  match r with
  | .cmd => runCommand v s
  | .range ch => .next (s.setChan ch ((s.chan ch).writeRange v))
  | .bap ch bin => .next (s.setChan ch ((s.chan ch).writeBap bin.val v))
  | .dexp ch bin => .next (s.setChan ch ((s.chan ch).writeDexp bin.val v))
  | .status => .fault .busDirection
  | .gaqmode _ => .fault .busDirection
  | .coef _ _ => .fault .busDirection
  | .pm _ _ _ => .fault .busDirection

/-- The meaning of HOST_WRITE (R151). -/
def execHostWrite (width : Nat) (a : HostAddr) (v : Word) (s : State) : Host.Outcome State Fault Refusal :=
  match busTarget width a Reg.writable with
  | .error f => .fault f
  | .ok r => writeReg r v s

/-! ## The host's other events -/

/-- Reset (70_reset_and_hazards.md R340): AGMD's own state as after reset; the tables, the cursor and the dither source are not
touched. -/
def resetBlock (s : State) : State :=
  { s with
    status := Status.clear
    chans := Vector.replicate 7 Channel.reset
    seq := Seq.idle
    staging := Staging.empty }

/-- The host places the bit cursor: `bits` is what it will deliver (20_memory.md R91). -/
def placeCursor (bits : Bits) (s : State) : State := { s with cursor := bits }

/-- The host has the dither source seeded: `draws` is what it will deliver first (70_reset_and_hazards.md R344). -/
def seedDither (draws : List (BitVec 23)) (s : State) : State := { s with dither := draws }

end Sys2Proof.Machine
end

