-- ==== Sys2Proof/Machine/Dispatch.lean ====
section
/-! DEFINITION. The dispatch of every instruction to its meaning. -/

namespace Sys2Proof.Machine

def exec (i : Instr) (s : State) : Host.Outcome State Fault Refusal :=
  match i with
  | .nop => Sys2Proof.Machine.execNop s
  | .frameStart => Sys2Proof.Machine.execFrameStart s
  | .ahtDecode ch => Sys2Proof.Machine.execAhtDecode ch s
  | .idct ch blk => Sys2Proof.Machine.execIdct ch blk s
  | .illegal w => Sys2Proof.Machine.execIllegal w s
  | .hostRead width a => Sys2Proof.Machine.execHostRead width a s
  | .hostWrite width a v => Sys2Proof.Machine.execHostWrite width a v s
  | .gaqmod mode => Sys2Proof.Machine.execGaqmod mode s
  | .gaqgain gain => Sys2Proof.Machine.execGaqgain gain s
  | .gaqgrp code => Sys2Proof.Machine.execGaqgrp code s
  | .ditherFill => Sys2Proof.Machine.execDitherFill s
  | .vqDecode h w v => Sys2Proof.Machine.execVqDecode h w v s
  | .gaqPlain h w m => Sys2Proof.Machine.execGaqPlain h w m s
  | .gaqSmall h w g m => Sys2Proof.Machine.execGaqSmall h w g m s
  | .gaqLarge h w g l => Sys2Proof.Machine.execGaqLarge h w g l s

end Sys2Proof.Machine
end

