-- ==== Sys2Proof/Machine/Step.lean ====
section
/-! DEFINITION. One step of the machine: one action of a running command, or the next event of the host. -/

namespace Sys2Proof.Machine

/-- One step when SEQ is IDLE: the host's next event. With none left the machine stays as it is (70_reset_and_hazards.md R358). -/
def stepHost (s : State) : Host.Outcome State Fault Refusal :=
  match s.host with
  | [] => .next s
  | .access r :: rest => exec (decodeBus r) { s with host := rest }
  | .reset :: rest => .next (resetBlock { s with host := rest })
  | .placeCursor bits :: rest => .next (placeCursor bits { s with host := rest })
  | .seedDither draws :: rest => .next (seedDither draws { s with host := rest })

/-- One step while a command runs: SEQ's next action (log entry 1). -/
def stepSeq (s : State) : Host.Outcome State Fault Refusal :=
  match nextAction s with
  | .move t => .next t
  | .element slot =>
    match decodeElement slot s.cursor with
    | .element i rest => exec i { s with cursor := rest }
    | .cursorFail rest => .next (cursorError { s with cursor := rest })

/-- One step. The host reaches AGMD only when SEQ is IDLE (10_state.md R31, 20_memory.md R100). -/
def step (s : State) : Host.Outcome State Fault Refusal :=
  if s.seq.phase = .idle then stepHost s else stepSeq s

/-- `s` with the command word `w` as the host's next access, a write to CMD, and no command running (log entry 12). -/
def State.withFetchWord (s : State) (nbits w : Nat) : State :=
  { s with
    seq := Seq.idle
    staging := Staging.empty
    host := .access (cmdWrite (BitVec.ofNat 32 (w % 2 ^ nbits))) :: s.host }

end Sys2Proof.Machine
end

