-- ==== Sys2Proof/Safety.lean ====
section
/-! DEFINITION. What counts as a good state (the invariant of the machine), and the spec's own pseudocode of AHT_DECODE as a direct
recursion over the bins (41_gaq_gain.md R190 to R199, 42_mantissa.md R220 to R231), against which the sequencer is stated. -/

namespace Sys2Proof.Safety

open Sys2Proof.Machine

/-! ## The invariant -/

/-- Every index listed in a store is below `n`. -/
def below {w : Nat} (n : Nat) (m : Memory w) : Bool := m.all (fun p => decide (p.1 < n))

/-- The stores of a channel are in canonical form, and hold nothing outside the 256 bins of 6 blocks (R82). -/
def channelStoresOk (c : Channel) : Bool :=
  (c.bap.wf && c.wBap.wf && c.dexp.wf && c.wDexp.wf && c.pm.wf && c.pmv.wf && c.coef.wf && c.cv.wf)
  && (below 256 c.bap && below 256 c.wBap && below 256 c.dexp && below 256 c.wDexp
    && below 1536 c.pm && below 256 c.pmv && below 256 c.coef && below 256 c.cv)

/-- GAQMODE reads 0 when it is not valid (R37), and a bin is valid only while the gain mode is (R37, R43). -/
def channelValidOk (c : Channel) : Bool :=
  (c.gaqValid || c.gaqMode == 0) && (c.gaqValid || c.pmv == [])

/-- The range of the running command has passed the checks of R191 and R261. -/
def rangeOk (c : Channel) : Bool := c.wRange && decide (c.first ≤ c.last ∧ c.last ≤ 256)

/-- SEQ and the staging state (R31, R45): nothing is staged when SEQ is IDLE, and a running command stands inside its checked range,
with no error raised. -/
def seqOk (s : State) : Bool :=
  match s.seq.phase with
  | .idle => s.seq == Seq.idle && s.staging == Staging.empty
  | .mode => !s.status.err && rangeOk s.running
  | .gain => !s.status.err && rangeOk s.running && decide (s.seq.bin ≤ s.running.last ∧ s.seq.gc ≤ 2)
  | .mant => !s.status.err && rangeOk s.running && decide (s.seq.bin ≤ s.running.last ∧ s.seq.blk ≤ 5)
  | .idct => !s.status.err && rangeOk s.running && decide (s.seq.bin ≤ s.running.last)

/-- The invariant of the machine. -/
structure Inv (s : State) : Prop where
  stores  : ∀ ch, channelStoresOk (s.chan ch) = true
  valid   : ∀ ch, channelValidOk (s.chan ch) = true
  staged  : s.staging.spm.wf = true ∧ s.staging.coefs.wf = true
  status  : s.status.legal = true
  seq     : seqOk s = true

/-- A state in which the host can access AGMD (R31): SEQ is IDLE and nothing is staged. -/
def Ready (s : State) : Prop := s.seq = Seq.idle ∧ s.staging = Staging.empty

/-- The inputs of AHT_DECODE pass the checks of R191. -/
structure AhtInputsOk (p : Params) (c : Channel) : Prop where
  written : c.wRange = true
  range   : c.start.toNat ≤ c.stop.toNat ∧ c.stop.toNat ≤ 256
  bins    : ∀ b, c.start.toNat ≤ b → b < c.stop.toNat → c.wBap.get b = 1 ∧ (c.bap.get b).toNat ≤ p.hebapMax.toNat

/-- The inputs of IDCT pass the checks of R261. -/
structure IdctInputsOk (c : Channel) : Prop where
  written : c.wRange = true
  range   : c.start.toNat ≤ c.stop.toNat ∧ c.stop.toNat ≤ 256
  bins    : ∀ b, c.start.toNat ≤ b → b < c.stop.toNat →
    c.pmv.get b = 1 ∧ c.wDexp.get b = 1 ∧ (c.dexp.get b).toNat ≤ 24

/-! ## The pseudocode of AHT_DECODE -/

/-- The external agents as the pseudocode reads them: the bits left, the dither values left, the draws taken. -/
structure Source where
  cursor : Bits
  dither : List (BitVec 23)
  count  : Nat
  deriving DecidableEq, Repr

/-- How a read of the pseudocode ends a command: the cause, the bin, and the agents as they stand at the failing call. -/
structure Failure where
  code : ErrCode
  bin  : BitVec 9
  src  : Source
  deriving DecidableEq, Repr

/-- Put a value in front of a list that a later read gives. -/
def consOk {α ε σ : Type} (x : α) : Except ε (List α × σ) → Except ε (List α × σ)
  | .ok (xs, r) => .ok (x :: xs, r)
  | .error e => .error e

/-- Put values in front of a list that a later read gives. -/
def appendOk {α ε σ : Type} (xs : List α) : Except ε (List α × σ) → Except ε (List α × σ)
  | .ok (ys, r) => .ok (xs ++ ys, r)
  | .error e => .error e

/-- R195: one gain bit for each qualifying bin, ascending. -/
def gainBits (mode : BitVec 2) (hebap : Nat → Hebap) : List Nat → Source → Except Failure (List Nat × Source)
  | [], src => .ok ([], src)
  | b :: bs, src =>
    if 7 < (hebap b).toNat ∧ (hebap b).toNat < (if mode.toNat < 2 then 12 else 17) then
      match readBits 1 src.cursor with
      | none => .error ⟨.cursorFail, BitVec.ofNat 9 b, src⟩
      | some (u, rest) => consOk (u * 2 ^ (mode.toNat - 1)) (gainBits mode hebap bs { src with cursor := rest })
    else gainBits mode hebap bs src

/-- R196 to R198: one group code at every third qualifying bin, from the first on, `gc` being the group counter. -/
def gainGroups (policy : OorPolicy) (hebap : Nat → Hebap) : Nat → List Nat → Source → Except Failure (List Nat × Source)
  | _, [], src => .ok ([], src)
  | gc, b :: bs, src =>
    if 7 < (hebap b).toNat ∧ (hebap b).toNat < 17 then
      if gc = 2 then
        match readBits 5 src.cursor with
        | none => .error ⟨.cursorFail, BitVec.ofNat 9 b, src⟩
        | some (code, rest) =>
          if 26 < code ∧ policy = .fault then .error ⟨.gaqGroupRange, BitVec.ofNat 9 b, { src with cursor := rest }⟩
          else
            let c := if 26 < code then 26 else code
            appendOk [c / 9, c % 9 / 3, c % 3] (gainGroups policy hebap 0 bs { src with cursor := rest })
      else gainGroups policy hebap (gc + 1) bs src
    else gainGroups policy hebap gc bs src

/-- read_gains (R190, R195, R196, R200). -/
def readGains (policy : OorPolicy) (mode : BitVec 2) (hebap : Nat → Hebap) (bins : List Nat) (src : Source) :
    Except Failure (List Nat × Source) :=
  if mode = 0 then .ok ([], src)
  else if mode = 3 then gainGroups policy hebap 2 bins src
  else gainBits mode hebap bins src

/-- R222: `n` dither draws as pre-mantissas. -/
def ditherWords : Nat → Source → List Word × Source
  | 0, src => ([], src)
  | n + 1, src =>
    match src.dither with
    | d :: ds =>
      let r := ditherWords n { src with dither := ds, count := src.count + 1 }
      (toReg ((d.toNat : Int) - 2 ^ 22) :: r.1, r.2)
    | [] =>
      let r := ditherWords n { src with count := src.count + 1 }
      (toReg (((Config.freeDither src.count).toNat : Int) - 2 ^ 22) :: r.1, r.2)

/-- R220, R227, R229, R231: `n` mantissas of a bin of hebap `h`, width `w` and gain shift `g`, with the bin for an error. -/
def mantissas (p : Params) (b : Nat) (h : Hebap) (w g : Nat) : Nat → Source → Except Failure (List Word × Source)
  | 0, src => .ok ([], src)
  | n + 1, src =>
    match readSBits (w - g) src.cursor with
    | none => .error ⟨.cursorFail, BitVec.ofNat 9 b, src⟩
    | some (m, rest) =>
      if 0 < g ∧ m = -(2 : Int) ^ (w - g - 1) then
        match readSBits (w - 2 + g) rest with
        | none => .error ⟨.cursorFail, BitVec.ofNat 9 b, { src with cursor := rest }⟩
        | some (l, rest') =>
          let x := l * 2 ^ (24 - (w - 2 + g))
          let off := if 0 ≤ x then (2 : Int) ^ (23 - g) else remapBOf p h g * 256
          consOk (toReg (x + remapAOf p h g * x / 2 ^ 15 + off))
            (mantissas p b h w g n { src with cursor := rest' })
      else
        let x := m * 2 ^ (24 - w)
        consOk (toReg (if g = 0 then x + remap1Of p h * x / 2 ^ 15 else x))
          (mantissas p b h w g n { src with cursor := rest })

/-- decode_bin (R220): the six pre-mantissas of bin `b` with the gain shift `g`. -/
def decodeBin (p : Params) (hebap : Nat → Hebap) (g b : Nat) (src : Source) : Except Failure (List Word × Source) :=
  let h := hebap b
  let w := widthOf p h
  if h = 0 then .ok (ditherWords 6 src)
  else if h.toNat ≤ 7 then
    match readBits w src.cursor with
    | none => .error ⟨.cursorFail, BitVec.ofNat 9 b, src⟩
    | some (v, rest) => .ok ((List.range 6).map (fun blk => toReg (vqEntry p h v blk * 256)), { src with cursor := rest })
  else mantissas p b h w g 6 src

/-- The bins ascending (R190); a GAQ bin of a mode other than NONE with hebap below the threshold takes the next gain of G (R199). -/
def decodeBins (p : Params) (mode : BitVec 2) (hebap : Nat → Hebap) :
    List Nat → List Nat → Source → Except Failure (List (List Word) × Source)
  | [], _, src => .ok ([], src)
  | b :: bs, gs, src =>
    let gained := mode ≠ 0 ∧ 8 ≤ (hebap b).toNat ∧ (hebap b).toNat < (if mode.toNat < 2 then 12 else 17)
    match decodeBin p hebap (if gained then gs.headD 0 else 0) b src with
    | .error e => .error e
    | .ok (ws, src') => consOk ws (decodeBins p mode hebap bs (if gained then gs.tail else gs) src')

/-- AHT_DECODE after its input checks (R190): the gain mode, the six pre-mantissas of every bin, and the agents. -/
def decodeChannel (p : Params) (c : Channel) (src : Source) : Except Failure (BitVec 2 × List (List Word) × Source) :=
  let bins := List.range' c.start.toNat (c.stop.toNat - c.start.toNat)
  match readBits 2 src.cursor with
  | none => .error ⟨.cursorFail, 0x1FF, src⟩
  | some (u, rest) =>
    let mode := BitVec.ofNat 2 u
    match readGains p.policy mode (fun b => c.bap.get b) bins { src with cursor := rest } with
    | .error e => .error e
    | .ok (gs, src') =>
      match decodeBins p mode (fun b => c.bap.get b) bins gs src' with
      | .error e => .error e
      | .ok (ws, src'') => .ok (mode, ws, src'')

end Sys2Proof.Safety
end

