-- ==== Sys2Proof/Certificates/Slice0/Obligations.lean ====
section
/-! DEFINITION. The statements for the provers, each about the machine of Sys2Proof/Machine, from the rules of spec/. -/

open Sys2Proof Sys2Proof.Machine Sys2Proof.Safety

/-! ## Encoding -/

/-- Command words written out from R113 to R117, and bitstream fields from R122 to R124, decode to what they stand for. -/
def Obligations.WrittenOutWordsDecode : Prop :=
  decodeCommand 0x00000000#32 = .nop ∧ decodeCommand 0x00000001#32 = .frameStart ∧
  decodeCommand 0x00000062#32 = .ahtDecode 6 ∧ decodeCommand 0x000002A3#32 = .idct 2 5 ∧
  decodeCommand 0x00000303#32 = .illegal 0x00000303#32 ∧ decodeCommand 0x00000072#32 = .illegal 0x00000072#32 ∧
  decodeElement .gaqmod [true, false] = .element (.gaqmod 2) [] ∧
  decodeElement (.gmant 8 3 1) [true, false, false, true] = .element (.gaqLarge 8 3 1 1) [] ∧
  decodeElement (.gmant 8 3 0) [true, false, false] = .element (.gaqPlain 8 3 (-4)) []

/-- R113 to R118: which words are which command, exactly, for every 32-bit word. -/
def Obligations.CommandDecoderIsExact : Prop :=
  ∀ w : Word,
    (decodeCommand w = .nop ↔ w = 0x00000000#32) ∧
    (decodeCommand w = .frameStart ↔ w = 0x00000001#32) ∧
    (∀ ch : Chan, decodeCommand w = .ahtDecode ch ↔ w = 0x2#32 ||| (BitVec.ofNat 32 ch.val <<< 4)) ∧
    (∀ (ch : Chan) (blk : Blk), decodeCommand w = .idct ch blk ↔
      w = 0x3#32 ||| (BitVec.ofNat 32 ch.val <<< 4) ||| (BitVec.ofNat 32 blk.val <<< 7)) ∧
    (decodeCommand w = .illegal w ↔ commandWord w = false) ∧
    (decodeCommand w = .nop ∨ decodeCommand w = .frameStart ∨ (∃ ch, decodeCommand w = .ahtDecode ch) ∨
      (∃ ch blk, decodeCommand w = .idct ch blk) ∨ decodeCommand w = .illegal w)

/-- Decoding the encoding of any well-formed instruction gives it back: on the host port from its bus access, in the bitstream
in its slot, whatever bits follow. -/
def Obligations.EncodeThenDecodeGivesInstructionBack : Prop :=
  ∀ i : Instr, i.wf = true →
    (∀ r, encode i = .bus r → decodeBus r = i) ∧
    (∀ bs, encode i = .bits bs →
      ∃ slot, slotOf i = some slot ∧ ∀ rest, decodeElement slot (bs ++ rest) = .element i rest)

/-- A decoded element consumes exactly the bits of its encoding, and belongs to the slot it was read in (R121, R126). -/
def Obligations.ElementConsumesExactlyItsEncoding : Prop :=
  ∀ (slot : Slot) (bs rest : Bits) (i : Instr), decodeElement slot bs = .element i rest →
    slotOf i = some slot ∧ ∃ used, encode i = .bits used ∧ bs = used ++ rest

/-! ## Stepping -/

/-- When SEQ is IDLE a step runs the host's next access as the instruction it decodes to, and the queue moves on.
(The queue of the host's accesses is the model's choice, log entry 2.) -/
def Obligations.StepRunsHostAccess : Prop :=
  ∀ (s : State) (r : BusReq) (rest : List Event), s.seq.phase = .idle → s.host = .access r :: rest →
    step s = exec (decodeBus r) { s with host := rest }

/-- While a command runs, a step whose next action is an element runs the element decoded at the cursor, and the cursor moves past
its bits. (One element a step is the model's choice of the grain, log entry 1.) -/
def Obligations.StepRunsFetchedElement : Prop :=
  ∀ (s : State) (slot : Slot) (i : Instr) (rest : Bits), s.seq.phase ≠ .idle → nextAction s = .element slot →
    decodeElement slot s.cursor = .element i rest → step s = exec i { s with cursor := rest }

/-- A command word placed for the next fetch is the command the next step runs. (How a program comes to run is log entry 12.) -/
def Obligations.FetchWordRunsItsCommand : Prop :=
  ∀ (s : State) (w : Word),
    step (s.withFetchWord 32 w.toNat) = exec (decodeCommand w) { s with seq := Seq.idle, staging := Staging.empty }

/-- R153: a host write of a word to CMD is the command the word decodes to; in the error state only FRAME_START has an effect, and
outside it an illegal word raises ILLEGAL_CMD with the field w[6:4] and the bin 0x1FF. -/
def Obligations.CmdWriteIsTheCommand : Prop :=
  ∀ (s : State) (w : Word),
    exec (.hostWrite 32 0 w) s = exec (decodeCommand w) s ∧
    (s.status.err = true → decodeCommand w ≠ .frameStart → exec (.hostWrite 32 0 w) s = .next s) ∧
    (s.status.err = false → decodeCommand w = .illegal w →
      exec (.hostWrite 32 0 w) s = .next (raiseError (.dispatch (w.extractLsb' 4 3)) .illegalCmd 0x1FF s))

/-- R100 in the model: the whole of a command that passes its input checks is what its single actions give, one step of the machine
after the other. (Log entry 1 names the model's choice of the grain.) -/
def Obligations.CommandIsItsSingleSteps : Prop :=
  ∀ (s : State) (ch : Chan) (blk : Blk), s.status.err = false →
    (AhtInputsOk s.rom (s.chan ch) →
      ∃ n t, Host.Core.run Sys2Proof.core n (beginAht ch s) = .next t ∧ exec (.ahtDecode ch) s = .next t ∧ t.seq = Seq.idle) ∧
    (IdctInputsOk (s.chan ch) →
      ∃ n t, Host.Core.run Sys2Proof.core n (beginIdct ch blk s) = .next t ∧ exec (.idct ch blk) s = .next t ∧ t.seq = Seq.idle)

/-! ## Reset -/

/-- From R340 and R48: a reset clears STATUS, GAQMODE, the written bits and the valid bits, SEQ is IDLE, and the tables, the cursor and
the dither source are not touched. The same values hold in the reset state.
(That a reset is an event of the host's queue is the model's choice, log entry 13.) -/
def Obligations.ResetClearsStateAndKeepsAgents : Prop :=
  (∀ (s : State) (rest : List Event), s.seq.phase = .idle → s.host = .reset :: rest →
    ∃ t, step s = .next t ∧ t.status.word = 0 ∧ t.seq = ⟨.idle, 0, 0, 0, 0⟩ ∧
      (∀ ch, (t.chan ch).gaqWord = 0 ∧ (t.chan ch).wRange = false ∧
        ∀ b, (t.chan ch).wBap.get b = 0 ∧ (t.chan ch).wDexp.get b = 0 ∧ (t.chan ch).pmv.get b = 0 ∧ (t.chan ch).cv.get b = 0) ∧
      t.rom = s.rom ∧ t.cursor = s.cursor ∧ t.dither = s.dither ∧ t.ditherCount = s.ditherCount ∧ t.host = rest) ∧
  State.reset.status.word = 0 ∧ State.reset.seq = ⟨.idle, 0, 0, 0, 0⟩ ∧
  (∀ ch, (State.reset.chan ch).gaqWord = 0 ∧ (State.reset.chan ch).wRange = false ∧
    ∀ b, (State.reset.chan ch).wBap.get b = 0 ∧ (State.reset.chan ch).wDexp.get b = 0 ∧
      (State.reset.chan ch).pmv.get b = 0 ∧ (State.reset.chan ch).cv.get b = 0)

/-- The invariant holds after reset, the host can access AGMD, and the tables meet the constraints of R22.
(The table contents at reset are the reference values, PRESUMED, log entry 9.) -/
def Obligations.InvariantHoldsAfterReset : Prop :=
  Inv State.reset ∧ Ready State.reset ∧ paramsOk State.reset.rom = true

/-! ## Control commands and the error state -/

/-- R155: NOP completes and changes nothing, in the error state too; the word 0 is NOP, and any other word with OP = 0 is illegal. -/
def Obligations.NopChangesNothing : Prop :=
  (∀ s : State, exec .nop s = .next s) ∧
  (∀ w : Word, w.extractLsb' 0 4 = 0 → decodeCommand w = if w = 0 then .nop else .illegal w)

/-- R157: FRAME_START completes in every state; it clears STATUS, every GAQMODE, PMV and CV, and changes nothing else. -/
def Obligations.FrameStartClearsOutputs : Prop :=
  ∀ s : State, ∃ t, exec .frameStart s = .next t ∧
    t.status.word = 0 ∧ t = { s with status := t.status, chans := t.chans } ∧
    ∀ ch, (t.chan ch).gaqWord = 0 ∧ (∀ b, (t.chan ch).pmv.get b = 0 ∧ (t.chan ch).cv.get b = 0) ∧
      t.chan ch = { s.chan ch with
        gaqValid := (t.chan ch).gaqValid, gaqMode := (t.chan ch).gaqMode, pmv := (t.chan ch).pmv, cv := (t.chan ch).cv }

/-- R343: a FRAME_START right after reset changes nothing. -/
def Obligations.FrameStartAfterResetChangesNothing : Prop := exec .frameStart State.reset = .next State.reset

/-- R154: in the error state AHT_DECODE, IDCT, NOP and illegal words are dropped and change no state. -/
def Obligations.ErrorStateDropsCommands : Prop :=
  ∀ (s : State) (ch : Chan) (blk : Blk) (w : Word), s.status.err = true →
    exec .nop s = .next s ∧ exec (.ahtDecode ch) s = .next s ∧ exec (.idct ch blk) s = .next s ∧ exec (.illegal w) s = .next s

/-- R117, R301: outside the error state an illegal word, issued by a CMD write, records ILLEGAL_CMD with its raw CH field and no bin,
and changes nothing else. -/
def Obligations.IllegalWordRecordsIllegalCmd : Prop :=
  ∀ (s : State) (w : Word), s.status.err = false → Ready s →
    exec (.illegal w) s = .next { s with status := ⟨true, 1, w.extractLsb' 4 3, 0x1FF⟩ } ∧
    (commandWord w = false → exec (.hostWrite 32 0 w) s = .next { s with status := ⟨true, 1, w.extractLsb' 4 3, 0x1FF⟩ })

/-- R310: what the error entry writes and what it leaves alone, for a word of the dispatch, for AHT_DECODE(ch) and for IDCT(ch, blk). -/
def Obligations.ErrorEntryInvalidatesFailingChannel : Prop :=
  ∀ (s : State) (code : ErrCode) (bin : BitVec 9) (field : BitVec 3) (ch : Chan),
    (raiseError (.dispatch field) code bin s =
      { s with status := ⟨true, code.number, field, bin⟩, seq := Seq.idle, staging := Staging.empty }) ∧
    (∃ t, raiseError (.aht ch) code bin s = t ∧
      t = { s with status := ⟨true, code.number, BitVec.ofNat 3 ch.val, bin⟩, seq := Seq.idle, staging := Staging.empty,
                   chans := t.chans } ∧
      (∀ c, c ≠ ch → t.chan c = s.chan c) ∧ (t.chan ch).gaqWord = 0 ∧ (∀ b, (t.chan ch).pmv.get b = 0) ∧
      t.chan ch = { s.chan ch with
        gaqValid := (t.chan ch).gaqValid, gaqMode := (t.chan ch).gaqMode, pmv := (t.chan ch).pmv }) ∧
    (∃ t, raiseError (.idct ch) code bin s = t ∧
      t = { s with status := ⟨true, code.number, BitVec.ofNat 3 ch.val, bin⟩, seq := Seq.idle, staging := Staging.empty,
                   chans := t.chans } ∧
      (∀ c, c ≠ ch → t.chan c = s.chan c) ∧ (∀ b, (t.chan ch).cv.get b = 0) ∧
      t.chan ch = { s.chan ch with cv := (t.chan ch).cv })

/-- From R34, R35 and R313: in the error state a step of the host leaves STATUS as it is, unless it is FRAME_START or a reset, which
clear it. (The host's queue is the model's choice, log entry 2.) -/
def Obligations.OnlyFrameStartOrResetClearsStatus : Prop :=
  ∀ s t : State, s.seq.phase = .idle → s.status.err = true → step s = .next t →
    t.status = s.status ∨
    (t.status.word = 0 ∧ ∃ rest, s.host = .reset :: rest ∨ s.host = .access (.write 32 0 0x00000001#32) :: rest)

/-! ## Host accesses -/

/-- R82, R83: the element addresses and the decoding of a word-aligned address are inverse to each other. -/
def Obligations.RegisterMapIsExact : Prop :=
  (∀ r : Reg, regAt r.addr = some r ∧ r.addr % 4 = 0 ∧ r.addr < 2 ^ 17) ∧
  (∀ (a : Nat) (r : Reg), a % 4 = 0 → regAt a = some r → r.addr = a)

/-- R84, R85, R86: a host access completes exactly when it is 32 bits wide, word-aligned, mapped and of a direction the register
allows; every other access is a bus error, which gives no state. -/
def Obligations.HostAccessFaultsExactly : Prop :=
  ∀ (s : State) (width : Nat) (a : HostAddr) (v : Word),
    ((width = 32 ∧ readableAddr a = true → ∃ t, exec (.hostRead width a) s = .next t) ∧
     (¬ (width = 32 ∧ readableAddr a = true) → ∃ f, exec (.hostRead width a) s = .fault f)) ∧
    ((width = 32 ∧ writableAddr a = true → ∃ t, exec (.hostWrite width a v) s = .next t) ∧
     (¬ (width = 32 ∧ writableAddr a = true) → ∃ f, exec (.hostWrite width a v) s = .fault f))

/-- R150, with the layouts of R34, R36 and R37: what a host read returns where the cell is written or valid; nothing but the returned
word changes (R96). -/
def Obligations.HostReadReturnsRegister : Prop :=
  ∀ (s : State) (ch : Chan) (bin : Fin 256) (blk : Blk),
    exec (.hostRead 32 0x00004) s = .next { s with
      rdata := BitVec.ofNat 32 (s.status.err.toNat + 2 * s.status.code.toNat + 2 ^ 5 * s.status.ch.toNat
        + 2 ^ 8 * s.status.bin.toNat) } ∧
    ((s.chan ch).wRange = true → exec (.hostRead 32 (BitVec.ofNat 17 (0x00010 + 4 * ch.val))) s =
      .next { s with rdata := BitVec.ofNat 32 ((s.chan ch).start.toNat + 2 ^ 16 * (s.chan ch).stop.toNat) }) ∧
    (exec (.hostRead 32 (BitVec.ofNat 17 (0x00040 + 4 * ch.val))) s =
      .next { s with rdata := if (s.chan ch).gaqValid then BitVec.ofNat 32 (2 ^ 31 + (s.chan ch).gaqMode.toNat) else 0 }) ∧
    ((s.chan ch).wBap.get bin.val = 1 → exec (.hostRead 32 (BitVec.ofNat 17 (0x01000 + 0x400 * ch.val + 4 * bin.val))) s =
      .next { s with rdata := BitVec.ofNat 32 ((s.chan ch).bap.get bin.val).toNat }) ∧
    ((s.chan ch).wDexp.get bin.val = 1 → exec (.hostRead 32 (BitVec.ofNat 17 (0x03000 + 0x400 * ch.val + 4 * bin.val))) s =
      .next { s with rdata := BitVec.ofNat 32 ((s.chan ch).dexp.get bin.val).toNat }) ∧
    ((s.chan ch).cv.get bin.val = 1 → exec (.hostRead 32 (BitVec.ofNat 17 (0x05000 + 0x400 * ch.val + 4 * bin.val))) s =
      .next { s with rdata := (s.chan ch).coef.get bin.val }) ∧
    ((s.chan ch).pmv.get bin.val = 1 →
      exec (.hostRead 32 (BitVec.ofNat 17 (0x08000 + 0x1800 * ch.val + 0x18 * bin.val + 4 * blk.val))) s =
      .next { s with rdata := (s.chan ch).pm.get (6 * bin.val + blk.val) })

/-- R150: a host read of a never-written or invalid cell completes with some value (a draw) in the register's width, and changes no
AGMD state. The value is free (log entry 6). -/
def Obligations.HostReadOfInvalidCellIsADraw : Prop :=
  ∀ (s : State) (ch : Chan) (bin : Fin 256) (blk : Blk),
    ((s.chan ch).wRange = false → ∃ v : Word, v &&& 0xFE00FE00#32 = 0 ∧
      exec (.hostRead 32 (BitVec.ofNat 17 (0x00010 + 4 * ch.val))) s = .next { s with rdata := v, draws := s.draws + 1 }) ∧
    ((s.chan ch).wBap.get bin.val = 0 → ∃ v : Word, v.toNat < 32 ∧
      exec (.hostRead 32 (BitVec.ofNat 17 (0x01000 + 0x400 * ch.val + 4 * bin.val))) s =
        .next { s with rdata := v, draws := s.draws + 1 }) ∧
    ((s.chan ch).wDexp.get bin.val = 0 → ∃ v : Word, v.toNat < 32 ∧
      exec (.hostRead 32 (BitVec.ofNat 17 (0x03000 + 0x400 * ch.val + 4 * bin.val))) s =
        .next { s with rdata := v, draws := s.draws + 1 }) ∧
    ((s.chan ch).cv.get bin.val = 0 → ∃ v : Word,
      exec (.hostRead 32 (BitVec.ofNat 17 (0x05000 + 0x400 * ch.val + 4 * bin.val))) s =
        .next { s with rdata := v, draws := s.draws + 1 }) ∧
    ((s.chan ch).pmv.get bin.val = 0 → ∃ v : Word,
      exec (.hostRead 32 (BitVec.ofNat 17 (0x08000 + 0x1800 * ch.val + 0x18 * bin.val + 4 * blk.val))) s =
        .next { s with rdata := v, draws := s.draws + 1 })

/-- R151: what a host write to RANGE, BAP and DEXP stores, in the error state too, and that it changes nothing else: no other channel,
no other bin, no valid bit, not STATUS. -/
def Obligations.HostWriteStoresItsFields : Prop :=
  ∀ (s : State) (ch : Chan) (bin : Fin 256) (v : Word), channelStoresOk (s.chan ch) = true →
    (∃ t, exec (.hostWrite 32 (BitVec.ofNat 17 (0x00010 + 4 * ch.val)) v) s = .next t ∧
      t = { s with chans := t.chans } ∧ (∀ c, c ≠ ch → t.chan c = s.chan c) ∧
      t.chan ch = { s.chan ch with start := v.extractLsb' 0 9, stop := v.extractLsb' 16 9, wRange := true }) ∧
    (∃ t, exec (.hostWrite 32 (BitVec.ofNat 17 (0x01000 + 0x400 * ch.val + 4 * bin.val)) v) s = .next t ∧
      t = { s with chans := t.chans } ∧ (∀ c, c ≠ ch → t.chan c = s.chan c) ∧
      t.chan ch = { s.chan ch with bap := (t.chan ch).bap, wBap := (t.chan ch).wBap } ∧
      (t.chan ch).bap.get bin.val = v.extractLsb' 0 5 ∧ (t.chan ch).wBap.get bin.val = 1 ∧
      ∀ b, b ≠ bin.val → (t.chan ch).bap.get b = (s.chan ch).bap.get b ∧ (t.chan ch).wBap.get b = (s.chan ch).wBap.get b) ∧
    (∃ t, exec (.hostWrite 32 (BitVec.ofNat 17 (0x03000 + 0x400 * ch.val + 4 * bin.val)) v) s = .next t ∧
      t = { s with chans := t.chans } ∧ (∀ c, c ≠ ch → t.chan c = s.chan c) ∧
      t.chan ch = { s.chan ch with dexp := (t.chan ch).dexp, wDexp := (t.chan ch).wDexp } ∧
      (t.chan ch).dexp.get bin.val = v.extractLsb' 0 5 ∧ (t.chan ch).wDexp.get bin.val = 1 ∧
      ∀ b, b ≠ bin.val →
        (t.chan ch).dexp.get b = (s.chan ch).dexp.get b ∧ (t.chan ch).wDexp.get b = (s.chan ch).wDexp.get b)

/-- From R97, R99, R150 and R151: for the input registers, writing the same value again leaves the same state as one write, and a read
after the write returns the written value with the reserved bits 0.
(The field rdata that keeps the returned word is the model's choice, log entry 3.) -/
def Obligations.RepeatedAndReadBackWrites : Prop :=
  ∀ (s t : State) (r : Reg) (v : Word), (∀ ch, channelStoresOk (s.chan ch) = true) →
    (∃ ch bin, r = .range ch ∨ r = .bap ch bin ∨ r = .dexp ch bin) →
    exec (.hostWrite 32 (BitVec.ofNat 17 r.addr) v) s = .next t →
    exec (.hostWrite 32 (BitVec.ofNat 17 r.addr) v) t = .next t ∧
    exec (.hostRead 32 (BitVec.ofNat 17 r.addr)) t = .next { t with rdata := v &&& r.openBits }

/-! ## The gain elements -/

/-- R192, R193: GAQMOD keeps the mode and begins the gain phase at START with an empty gain list; the threshold is 12 for the modes
0 and 1 and 17 for 2 and 3, and gains apply, in a mode other than NONE, to the hebaps above 7 and below it. -/
def Obligations.GaqmodSetsModeAndThreshold : Prop :=
  ∀ (s : State) (mode : BitVec 2),
    exec (.gaqmod mode) s = .next { s with
      staging := { s.staging with mode := mode, gains := [] }
      seq := ⟨.gain, (s.chan s.staging.ch).start.toNat, 0, 0, 2⟩ } ∧
    threshold mode = (if mode = 0 ∨ mode = 1 then 12 else 17) ∧
    ∀ h : Hebap, takesGain mode h = true ↔ mode ≠ 0 ∧ 7 < h.toNat ∧ h.toNat < (if mode = 0 ∨ mode = 1 then 12 else 17)

/-- R195: GAQGAIN appends bit << (mode - 1) to the gain list, 0 or 1 in HALF-STEP and 0 or 2 in QUARTER-STEP, and goes on to the next
bin. -/
def Obligations.GaqgainAppendsScaledBit : Prop :=
  ∀ (s : State) (gain : BitVec 1),
    (s.staging.mode = 1 → exec (.gaqgain gain) s = .next { s with
      staging := { s.staging with gains := s.staging.gains ++ [if gain = 1 then 1 else 0] }
      seq := { s.seq with bin := s.seq.bin + 1 } }) ∧
    (s.staging.mode = 2 → exec (.gaqgain gain) s = .next { s with
      staging := { s.staging with gains := s.staging.gains ++ [if gain = 1 then 2 else 0] }
      seq := { s.seq with bin := s.seq.bin + 1 } })

/-- R196, R197: a group code of 0 to 26 appends its three gains, each 0, 1 or 2, sets gc to 0 and goes on to the next bin, under either
policy. -/
def Obligations.GaqgrpAppendsThreeGains : Prop :=
  ∀ (s : State) (code : BitVec 5),
    code.toNat ≤ 26 → exec (.gaqgrp code) s = .next { s with
        staging := { s.staging with gains := s.staging.gains ++ [code.toNat / 9, code.toNat % 9 / 3, code.toNat % 3] }
        seq := { s.seq with bin := s.seq.bin + 1, gc := 0 } } ∧
      code.toNat / 9 ≤ 2 ∧ code.toNat % 9 / 3 ≤ 2 ∧ code.toNat % 3 ≤ 2

/-- R198, R308: a group code of 27 to 31 under FAULT raises GAQ_GROUP_RANGE at the bin, which ends the command; under CLAMP it is
treated as 26. -/
def Obligations.GaqgrpOutOfRangeFollowsPolicy : Prop :=
  ∀ (s : State) (code : BitVec 5), 26 < code.toNat →
    (s.rom.policy = .fault → ∃ t, exec (.gaqgrp code) s = .next t ∧
      t = { s with status := ⟨true, 4, BitVec.ofNat 3 s.staging.ch.val, BitVec.ofNat 9 s.seq.bin⟩,
                   seq := Seq.idle, staging := Staging.empty, chans := t.chans } ∧
      (∀ c, c ≠ s.staging.ch → t.chan c = s.chan c) ∧
      (t.chan s.staging.ch).gaqWord = 0 ∧ (∀ b, (t.chan s.staging.ch).pmv.get b = 0)) ∧
    (s.rom.policy = .clamp → exec (.gaqgrp code) s = exec (.gaqgrp 26) s)

/-- R195 to R198: whatever GAQGAIN in the modes 1 and 2, or GAQGRP under either policy, puts on the gain list is at most 2. -/
def Obligations.GainsAreAtMostTwo : Prop :=
  ∀ (s t : State) (i : Instr),
    ((∃ gain, i = .gaqgain gain ∧ (s.staging.mode = 1 ∨ s.staging.mode = 2)) ∨ (∃ code, i = .gaqgrp code)) →
    exec i s = .next t → (∀ g ∈ s.staging.gains, g ≤ 2) → ∀ g ∈ t.staging.gains, g ≤ 2

/-! ## The mantissa elements -/

/-- R222: DITHER_FILL with six values listed: block i of the bin gets d_i - 2^22, exactly six values are drawn, no bit is read, no
other staged cell changes. (The list of the dither source's values is the model's choice, log entry 8.) -/
def Obligations.DitherFillStagesSixDraws : Prop :=
  ∀ (s : State) (d : Vector (BitVec 23) 6) (rest : List (BitVec 23)),
    s.staging.spm.wf = true → s.binHebap = 0 → s.dither = d.toList ++ rest →
    ∃ t, exec .ditherFill s = .next t ∧
      t = { s with dither := rest, ditherCount := s.ditherCount + 6,
                   staging := { s.staging with spm := t.staging.spm },
                   seq := { s.seq with bin := s.seq.bin + 1, blk := 0 } } ∧
      (∀ i : Fin 6, (t.staging.spm.get (6 * s.seq.bin + i.val)).toInt = ((d[i.val]'i.isLt).toNat : Int) - 2 ^ 22) ∧
      (∀ a, a < 6 * s.seq.bin ∨ 6 * s.seq.bin + 6 ≤ a → t.staging.spm.get a = s.staging.spm.get a)

/-- R222: DITHER_FILL completes whatever the dither source holds, reads no bit, counts six draws, and every value it stages lies in
[-4194304, 4194303]. -/
def Obligations.DitherValuesStayInRange : Prop :=
  ∀ s : State, s.staging.spm.wf = true →
    ∃ t, exec .ditherFill s = .next t ∧ t.cursor = s.cursor ∧ t.ditherCount = s.ditherCount + 6 ∧ t.chans = s.chans ∧
      t.status = s.status ∧
      ∀ i : Fin 6, -4194304 ≤ (t.staging.spm.get (6 * s.seq.bin + i.val)).toInt ∧
        (t.staging.spm.get (6 * s.seq.bin + i.val)).toInt ≤ 4194303

/-- R224, R225: VQ_DECODE is the unsigned read of w bits at its slot; it stages, for each block, the table entry of (h, v) times 256, a function of the codeword alone; nothing else
is changed but SEQ going on to the next bin. -/
def Obligations.VqDecodeStagesTableRow : Prop :=
  (∀ (h : Hebap) (w v : Nat) (bs rest : Bits),
    (readBits w bs = some (v, rest) → decodeElement (.vqcw h w) bs = .element (.vqDecode h w v) rest) ∧
    (readBits w bs = none → decodeElement (.vqcw h w) bs = .cursorFail bs)) ∧
  ∀ (s : State) (h : Hebap) (w v : Nat), s.staging.spm.wf = true → s.binHebap = h → h.toNat ≤ 7 →
    ∃ t, exec (.vqDecode h w v) s = .next t ∧
      t = { s with staging := { s.staging with spm := t.staging.spm },
                   seq := { s.seq with bin := s.seq.bin + 1, blk := 0 } } ∧
      (∀ i : Fin 6, (t.staging.spm.get (6 * s.seq.bin + i.val)).toInt = vqEntry s.rom h v i.val * 256) ∧
      (∀ a, a < 6 * s.seq.bin ∨ 6 * s.seq.bin + 6 ≤ a → t.staging.spm.get a = s.staging.spm.get a)

/-- R227: GAQ_PLAIN is the signed read of w bits with gain shift 0; it stages x + floor(REMAP1[h-8] * x / 2^15), x = m * 2^(24-w), for the block SEQ stands at; nothing else is changed
but SEQ. -/
def Obligations.GaqPlainStagesRemappedValue : Prop :=
  (∀ (h : Hebap) (w : Nat) (m : Int) (bs rest : Bits),
    (readSBits w bs = some (m, rest) → decodeElement (.gmant h w 0) bs = .element (.gaqPlain h w m) rest) ∧
    (readSBits w bs = none → decodeElement (.gmant h w 0) bs = .cursorFail bs)) ∧
  ∀ (s : State) (h : Hebap) (w : Nat) (m : Int), s.staging.spm.wf = true →
    ∃ t, exec (.gaqPlain h w m) s = .next t ∧
      t = { s with staging := { s.staging with spm := t.staging.spm }, seq := t.seq } ∧
      t.staging.spm.get (6 * s.seq.bin + s.seq.blk) =
        BitVec.ofInt 32 (m * 2 ^ (24 - w) + remap1Of s.rom h * (m * 2 ^ (24 - w)) / 2 ^ 15) ∧
      (∀ a, a ≠ 6 * s.seq.bin + s.seq.blk → t.staging.spm.get a = s.staging.spm.get a)

/-- R229: GAQ_SMALL is the signed read of w - g bits with g > 0 when it is not the escape; it stages m * 2^(24-w), not remapped, for the block SEQ stands at; nothing else is changed but SEQ. -/
def Obligations.GaqSmallStagesShiftedValue : Prop :=
  (∀ (h : Hebap) (w g : Nat) (m : Int) (bs rest : Bits), 0 < g →
    (readSBits (w - g) bs = some (m, rest) → m ≠ -(2 : Int) ^ (w - g - 1) →
      decodeElement (.gmant h w g) bs = .element (.gaqSmall h w g m) rest) ∧
    (readSBits (w - g) bs = none → decodeElement (.gmant h w g) bs = .cursorFail bs)) ∧
  ∀ (s : State) (h : Hebap) (w g : Nat) (m : Int), s.staging.spm.wf = true →
    ∃ t, exec (.gaqSmall h w g m) s = .next t ∧
      t = { s with staging := { s.staging with spm := t.staging.spm }, seq := t.seq } ∧
      t.staging.spm.get (6 * s.seq.bin + s.seq.blk) = BitVec.ofInt 32 (m * 2 ^ (24 - w)) ∧
      (∀ a, a ≠ 6 * s.seq.bin + s.seq.blk → t.staging.spm.get a = s.staging.spm.get a)

/-- R231: GAQ_LARGE is the escape and then the signed read of w - 2 + g bits; it stages x + floor(REMAP_A[h-8][g-1] * x / 2^15) + b, x = L * 2^(24-mb), mb = w - 2 + g, with b = 2^(23-g) for
x >= 0 and REMAP_B[h-8][g-1] * 256 for x < 0; nothing else is changed but SEQ. -/
def Obligations.GaqLargeStagesAsymmetricRemap : Prop :=
  (∀ (h : Hebap) (w g : Nat) (l : Int) (bs mid rest : Bits), 0 < g →
    readSBits (w - g) bs = some (-(2 : Int) ^ (w - g - 1), mid) →
    (readSBits (w - 2 + g) mid = some (l, rest) →
      decodeElement (.gmant h w g) bs = .element (.gaqLarge h w g l) rest) ∧
    (readSBits (w - 2 + g) mid = none → decodeElement (.gmant h w g) bs = .cursorFail mid)) ∧
  ∀ (s : State) (h : Hebap) (w g : Nat) (l : Int), s.staging.spm.wf = true →
    ∃ t, exec (.gaqLarge h w g l) s = .next t ∧
      t = { s with staging := { s.staging with spm := t.staging.spm }, seq := t.seq } ∧
      (0 ≤ l → t.staging.spm.get (6 * s.seq.bin + s.seq.blk) =
        BitVec.ofInt 32 (l * 2 ^ (24 - (w - 2 + g)) + remapAOf s.rom h g * (l * 2 ^ (24 - (w - 2 + g))) / 2 ^ 15
          + 2 ^ (23 - g))) ∧
      (l < 0 → t.staging.spm.get (6 * s.seq.bin + s.seq.blk) =
        BitVec.ofInt 32 (l * 2 ^ (24 - (w - 2 + g)) + remapAOf s.rom h g * (l * 2 ^ (24 - (w - 2 + g))) / 2 ^ 15
          + remapBOf s.rom h g * 256)) ∧
      (∀ a, a ≠ 6 * s.seq.bin + s.seq.blk → t.staging.spm.get a = s.staging.spm.get a)

/-- R199, R220: how SEQ goes on after a mantissa: to the next block, and after block 5 to the next bin, where a bin that took a gain
has used up one entry of the gain list. -/
def Obligations.MantissaElementsAdvanceBlocks : Prop :=
  ∀ (s t : State) (i : Instr),
    ((∃ h w m, i = .gaqPlain h w m) ∨ (∃ h w g m, i = .gaqSmall h w g m) ∨ (∃ h w g l, i = .gaqLarge h w g l)) →
    exec i s = .next t →
    (s.seq.blk < 5 → t.seq = { s.seq with blk := s.seq.blk + 1 }) ∧
    (s.seq.blk = 5 → t.seq = { s.seq with
      bin := s.seq.bin + 1, blk := 0,
      k := if s.staging.mode ≠ 0 ∧ 7 < s.binHebap.toNat ∧ s.binHebap.toNat < threshold s.staging.mode then s.seq.k + 1
           else s.seq.k })

/-- R230: the value of a well-formed GAQ_SMALL lies in [-2^(23-g), 2^(23-g)). -/
def Obligations.GaqSmallValueIsBounded : Prop :=
  ∀ (h : Hebap) (w g : Nat) (m : Int), (Instr.gaqSmall h w g m).wf = true →
    -(2 : Int) ^ (23 - g) ≤ gaqSmallValue w m ∧ gaqSmallValue w m < (2 : Int) ^ (23 - g)

/-- R233: with the reference tables a GAQ_LARGE value lies in (-2^24, 2^24), and a GAQ_PLAIN value in (-1.15 * 2^23, 1.15 * 2^23).
(The reference tables are PRESUMED, log entry 9.) -/
def Obligations.ReferenceTableValuesAreBounded : Prop :=
  ∀ (h : Hebap) (w g : Nat) (m : Int), h.toNat ≤ 19 → w = widthOf referenceParams h →
    ((Instr.gaqLarge h w g m).wf = true →
      -(2 : Int) ^ 24 < gaqLargeValue referenceParams h w g m ∧ gaqLargeValue referenceParams h w g m < (2 : Int) ^ 24) ∧
    ((Instr.gaqPlain h w m).wf = true →
      -(115 * (2 : Int) ^ 23) < 100 * gaqPlainValue referenceParams h w m ∧
      100 * gaqPlainValue referenceParams h w m < 115 * (2 : Int) ^ 23)

/-! ## AHT_DECODE -/

/-- R191, R312: the input checks of AHT_DECODE in their order, and that a failed check reads no bit and draws no dither value:
RANGE never written, a bad range, and at the lowest failing bin a BAP never written before a hebap above HEBAP_MAX. -/
def Obligations.AhtDecodeReportsFirstInputError : Prop :=
  ∀ (s : State) (ch : Chan), s.status.err = false →
    ((s.chan ch).wRange = false →
      exec (.ahtDecode ch) s = .next (raiseError (.aht ch) .inputUnwritten 0x1FF s)) ∧
    ((s.chan ch).wRange = true → ¬ ((s.chan ch).start.toNat ≤ (s.chan ch).stop.toNat ∧ (s.chan ch).stop.toNat ≤ 256) →
      exec (.ahtDecode ch) s = .next (raiseError (.aht ch) .badRange 0x1FF s)) ∧
    (∀ b, (s.chan ch).wRange = true → (s.chan ch).stop.toNat ≤ 256 →
      (s.chan ch).start.toNat ≤ b → b < (s.chan ch).stop.toNat →
      (∀ b', (s.chan ch).start.toNat ≤ b' → b' < b →
        (s.chan ch).wBap.get b' = 1 ∧ ((s.chan ch).bap.get b').toNat ≤ s.rom.hebapMax.toNat) →
      ((s.chan ch).wBap.get b = 0 →
        exec (.ahtDecode ch) s = .next (raiseError (.aht ch) .inputUnwritten (BitVec.ofNat 9 b) s)) ∧
      ((s.chan ch).wBap.get b = 1 → s.rom.hebapMax.toNat < ((s.chan ch).bap.get b).toNat →
        exec (.ahtDecode ch) s = .next (raiseError (.aht ch) .badHebap (BitVec.ofNat 9 b) s)))

/-- R190 with R192 to R199, R220 to R231 and R236: AHT_DECODE with inputs that pass its checks does what the spec's pseudocode does.
On success the six pre-mantissas of every bin of the range are in PM, PMV is 1 exactly there, GAQMODE holds the mode, and nothing else
of AGMD changes; a failed read or an out-of-range group code is reported as the pseudocode meets it.
(Where the cursor stands after a failed read is free, log entry 7.) -/
def Obligations.AhtDecodeFollowsPseudocode : Prop :=
  ∀ (s : State) (ch : Chan), s.status.err = false → Ready s → channelStoresOk (s.chan ch) = true →
    AhtInputsOk s.rom (s.chan ch) →
    match decodeChannel s.rom (s.chan ch) ⟨s.cursor, s.dither, s.ditherCount⟩ with
    | .ok (mode, words, src) =>
      ∃ t, exec (.ahtDecode ch) s = .next t ∧
        t = { s with cursor := src.cursor, dither := src.dither, ditherCount := src.count, chans := t.chans } ∧
        (∀ c, c ≠ ch → t.chan c = s.chan c) ∧
        t.chan ch = { s.chan ch with
          pm := (t.chan ch).pm, pmv := (t.chan ch).pmv, gaqValid := true, gaqMode := mode } ∧
        (∀ b, (t.chan ch).pmv.get b =
          if (s.chan ch).start.toNat ≤ b ∧ b < (s.chan ch).stop.toNat then 1 else 0) ∧
        (∀ b, (s.chan ch).start.toNat ≤ b → b < (s.chan ch).stop.toNat → ∀ blk : Blk,
          (words[b - (s.chan ch).start.toNat]?.bind (fun ws => ws[blk.val]?)) =
            some ((t.chan ch).pm.get (6 * b + blk.val))) ∧
        (∀ a, a < 6 * (s.chan ch).start.toNat ∨ 6 * (s.chan ch).stop.toNat ≤ a →
          (t.chan ch).pm.get a = (s.chan ch).pm.get a)
    | .error ⟨.cursorFail, bin, src⟩ =>
      exec (.ahtDecode ch) s = .next (raiseError (.aht ch) .cursorFail bin
        (loseCursor { s with cursor := src.cursor, dither := src.dither, ditherCount := src.count }))
    | .error ⟨code, bin, src⟩ =>
      exec (.ahtDecode ch) s = .next (raiseError (.aht ch) code bin
        { s with cursor := src.cursor, dither := src.dither, ditherCount := src.count })

/-- From R311, R357, R236 and R310: outside the error state AHT_DECODE with good inputs completes, SEQ is IDLE again, and the channel is either wholly
decoded (PMV exactly the range, GAQMODE valid) or wholly invalid with CURSOR_FAIL or GAQ_GROUP_RANGE recorded. -/
def Obligations.AhtDecodeIsAllOrNothing : Prop :=
  ∀ (s : State) (ch : Chan), s.status.err = false → AhtInputsOk s.rom (s.chan ch) →
    ∃ t, exec (.ahtDecode ch) s = .next t ∧ Ready t ∧
      ((t.status = s.status ∧ (t.chan ch).gaqValid = true ∧
          ∀ b, (t.chan ch).pmv.get b = if (s.chan ch).start.toNat ≤ b ∧ b < (s.chan ch).stop.toNat then 1 else 0) ∨
       (t.status.err = true ∧ (t.status.code = 4 ∨ t.status.code = 5) ∧ t.status.ch = BitVec.ofNat 3 ch.val ∧
          (t.chan ch).gaqWord = 0 ∧ ∀ b, (t.chan ch).pmv.get b = 0))

/-- From R202, with the commit of R236 (R190): AHT_DECODE of an empty range reads the two bits of the gain mode and nothing else, makes
GAQMODE valid with them and validates no bin. (That the read succeeds whenever two bits are listed is the model's choice, log entry 7.) -/
def Obligations.EmptyRangeReadsOnlyTheMode : Prop :=
  ∀ (s : State) (ch : Chan) (b1 b0 : Bool) (rest : Bits), s.status.err = false → Ready s → (s.chan ch).wRange = true →
    (s.chan ch).start = (s.chan ch).stop → (s.chan ch).stop.toNat ≤ 256 → s.cursor = b1 :: b0 :: rest →
    ∃ t, exec (.ahtDecode ch) s = .next t ∧ t = { s with cursor := rest, chans := t.chans } ∧
      (∀ c, c ≠ ch → t.chan c = s.chan c) ∧
      t.chan ch = { s.chan ch with pmv := [], gaqValid := true, gaqMode := BitVec.ofNat 2 (2 * b1.toNat + b0.toNat) }

/-- From R357: with the reference BITS, whatever the other tables, the VQ rows, HEBAP_MAX and the group-code policy are, an AHT_DECODE
that succeeds reads at least 2 and at most 31152 bits, from the front of what the cursor holds.
(The reference BITS are PRESUMED, log entry 9.) -/
def Obligations.AhtDecodeReadsBoundedBits : Prop :=
  ∀ (s t : State) (ch : Chan), s.rom.bits = referenceBits → s.status.err = false → AhtInputsOk s.rom (s.chan ch) →
    exec (.ahtDecode ch) s = .next t → t.status.err = false →
    ∃ used, s.cursor = used ++ t.cursor ∧ 2 ≤ used.length ∧ used.length ≤ 31152

/-- R92, R222: an AHT_DECODE that succeeds calls the dither source exactly six times for each bin of hebap 0, and never for another. -/
def Obligations.AhtDecodeDrawsSixPerZeroBin : Prop :=
  ∀ (s t : State) (ch : Chan), s.status.err = false → AhtInputsOk s.rom (s.chan ch) →
    exec (.ahtDecode ch) s = .next t → t.status.err = false →
    t.ditherCount = s.ditherCount + 6 *
      ((List.range' (s.chan ch).start.toNat ((s.chan ch).stop.toNat - (s.chan ch).start.toNat)).filter
        (fun b => (s.chan ch).bap.get b == 0)).length

/-! ## IDCT -/

/-- R261, R312: the input checks of IDCT in their order, before any output is written. -/
def Obligations.IdctReportsFirstInputError : Prop :=
  ∀ (s : State) (ch : Chan) (blk : Blk), s.status.err = false →
    ((s.chan ch).wRange = false →
      exec (.idct ch blk) s = .next (raiseError (.idct ch) .inputUnwritten 0x1FF s)) ∧
    ((s.chan ch).wRange = true → ¬ ((s.chan ch).start.toNat ≤ (s.chan ch).stop.toNat ∧ (s.chan ch).stop.toNat ≤ 256) →
      exec (.idct ch blk) s = .next (raiseError (.idct ch) .badRange 0x1FF s)) ∧
    (∀ b, (s.chan ch).wRange = true → (s.chan ch).stop.toNat ≤ 256 →
      (s.chan ch).start.toNat ≤ b → b < (s.chan ch).stop.toNat →
      (∀ b', (s.chan ch).start.toNat ≤ b' → b' < b → (s.chan ch).pmv.get b' = 1 ∧ (s.chan ch).wDexp.get b' = 1 ∧
        ((s.chan ch).dexp.get b').toNat ≤ 24) →
      ((s.chan ch).pmv.get b = 0 →
        exec (.idct ch blk) s = .next (raiseError (.idct ch) .premantUnwritten (BitVec.ofNat 9 b) s)) ∧
      ((s.chan ch).pmv.get b = 1 → (s.chan ch).wDexp.get b = 0 →
        exec (.idct ch blk) s = .next (raiseError (.idct ch) .inputUnwritten (BitVec.ofNat 9 b) s)) ∧
      ((s.chan ch).pmv.get b = 1 → (s.chan ch).wDexp.get b = 1 → 24 < ((s.chan ch).dexp.get b).toNat →
        exec (.idct ch blk) s = .next (raiseError (.idct ch) .badDexp (BitVec.ofNat 9 b) s)))

/-- R260, R262, R264, R265: IDCT with inputs that pass its checks completes. For every bin of the range COEF is
trunc32(floor(acc / 2^DEXP)), acc being PM[0] plus the five products COS_TAB[blk][i-1] * PM[i], each floored after division by 2^23;
CV is 1 exactly there; nothing else changes. -/
def Obligations.IdctWritesCoefficients : Prop :=
  ∀ (s : State) (ch : Chan) (blk : Blk), s.status.err = false → Ready s → channelStoresOk (s.chan ch) = true →
    IdctInputsOk (s.chan ch) →
    ∃ t, exec (.idct ch blk) s = .next t ∧ t = { s with chans := t.chans } ∧ (∀ c, c ≠ ch → t.chan c = s.chan c) ∧
      t.chan ch = { s.chan ch with coef := (t.chan ch).coef, cv := (t.chan ch).cv } ∧
      (∀ b, (t.chan ch).cv.get b = if (s.chan ch).start.toNat ≤ b ∧ b < (s.chan ch).stop.toNat then 1 else 0) ∧
      (∀ b, b < (s.chan ch).start.toNat ∨ (s.chan ch).stop.toNat ≤ b →
        (t.chan ch).coef.get b = (s.chan ch).coef.get b) ∧
      (∀ b, (s.chan ch).start.toNat ≤ b → b < (s.chan ch).stop.toNat →
        (t.chan ch).coef.get b = BitVec.ofInt 32
          ((((s.chan ch).pm.get (6 * b)).toInt
            + cosOf s.rom blk 1 * ((s.chan ch).pm.get (6 * b + 1)).toInt / 2 ^ 23
            + cosOf s.rom blk 2 * ((s.chan ch).pm.get (6 * b + 2)).toInt / 2 ^ 23
            + cosOf s.rom blk 3 * ((s.chan ch).pm.get (6 * b + 3)).toInt / 2 ^ 23
            + cosOf s.rom blk 4 * ((s.chan ch).pm.get (6 * b + 4)).toInt / 2 ^ 23
            + cosOf s.rom blk 5 * ((s.chan ch).pm.get (6 * b + 5)).toInt / 2 ^ 23)
           / 2 ^ ((s.chan ch).dexp.get b).toNat))

/-- R349: after FRAME_START an IDCT of a non-empty range raises PREMANT_UNWRITTEN at its first bin. -/
def Obligations.IdctBeforeDecodeRaisesPremantUnwritten : Prop :=
  ∀ (s t : State) (ch : Chan) (blk : Blk), exec .frameStart s = .next t → (s.chan ch).wRange = true →
    (s.chan ch).start.toNat < (s.chan ch).stop.toNat → (s.chan ch).stop.toNat ≤ 256 →
    exec (.idct ch blk) t = .next (raiseError (.idct ch) .premantUnwritten ((s.chan ch).start) t)

/-- R260: repeating IDCT(ch, blk) gives the same result, and an IDCT of another block in between makes no difference, because IDCT does
not change PM. -/
def Obligations.IdctIsRepeatable : Prop :=
  ∀ (s t u : State) (ch : Chan) (blk other : Blk), s.status.err = false → Ready s → channelStoresOk (s.chan ch) = true →
    IdctInputsOk (s.chan ch) →
    exec (.idct ch blk) s = .next t → exec (.idct ch other) s = .next u →
    exec (.idct ch blk) t = .next t ∧ exec (.idct ch blk) u = .next t

/-- R266: the accumulator of an IDCT stays below 2^36 in magnitude for every 32-bit pre-mantissa and every table. -/
def Obligations.IdctAccumulatorIsBounded : Prop :=
  ∀ (p : Params) (blk : Blk) (c : Channel) (b : Nat),
    -(2 : Int) ^ 36 < idctSum p blk (c.premant b) ∧ idctSum p blk (c.premant b) < (2 : Int) ^ 36

/-- R267: linearity holds up to the floors: for k > 0, acc(k * PM) - k * acc(PM) lies in [0, 5 * (k - 1)], and it is 0 when every
product is a multiple of 2^23. -/
def Obligations.IdctIsLinearUpToFloors : Prop :=
  ∀ (p : Params) (blk : Blk) (pm : Nat → Int) (k : Int), 0 < k →
    (0 ≤ idctSum p blk (fun i => k * pm i) - k * idctSum p blk pm ∧
      idctSum p blk (fun i => k * pm i) - k * idctSum p blk pm ≤ 5 * (k - 1)) ∧
    ((∀ i, 1 ≤ i → i ≤ 5 → (2 : Int) ^ 23 ∣ cosOf p blk i * pm i) →
      idctSum p blk (fun i => k * pm i) = k * idctSum p blk pm)

/-! ## The whole machine -/

/-- R161: AHT_DECODE(ch) writes only PM[ch], PMV[ch] and GAQMODE[ch], IDCT(ch, blk) only COEF[ch] and CV[ch], plus STATUS when it
fails; no other channel, no input register, no written bit, no table. -/
def Obligations.CommandsTouchOnlyTheirChannel : Prop :=
  ∀ (s t : State) (ch : Chan) (blk : Blk), Ready s →
    (exec (.ahtDecode ch) s = .next t →
      (∀ c, c ≠ ch → t.chan c = s.chan c) ∧ t.rom = s.rom ∧ t.host = s.host ∧ t.rdata = s.rdata ∧
      t.chan ch = { s.chan ch with
        pm := (t.chan ch).pm, pmv := (t.chan ch).pmv, gaqValid := (t.chan ch).gaqValid, gaqMode := (t.chan ch).gaqMode } ∧
      (t.status ≠ s.status → t.status.err = true)) ∧
    (exec (.idct ch blk) s = .next t →
      (∀ c, c ≠ ch → t.chan c = s.chan c) ∧
      t = { s with status := t.status, chans := t.chans } ∧
      t.chan ch = { s.chan ch with coef := (t.chan ch).coef, cv := (t.chan ch).cv } ∧
      (t.status ≠ s.status → t.status.err = true))

/-- R25, R161: what the other channels hold makes no difference to AHT_DECODE(ch) and IDCT(ch, blk): changing another channel first or
afterwards gives the same state. -/
def Obligations.OtherChannelsDoNotMatter : Prop :=
  ∀ (s t : State) (ch c : Chan) (blk : Blk) (x : Channel), c ≠ ch →
    (exec (.ahtDecode ch) s = .next t → exec (.ahtDecode ch) (s.setChan c x) = .next (t.setChan c x)) ∧
    (exec (.idct ch blk) s = .next t → exec (.idct ch blk) (s.setChan c x) = .next (t.setChan c x))

/-- R38, R39, R351: IDCT never reads BAP, and AHT_DECODE never reads DEXP: changing them first or afterwards gives the same state. -/
def Obligations.UnreadInputsDoNotMatter : Prop :=
  ∀ (s t : State) (ch : Chan) (blk : Blk) (m : Memory 5) (w : Memory 1),
    (exec (.idct ch blk) s = .next t →
      exec (.idct ch blk) (s.setChan ch { s.chan ch with bap := m, wBap := w }) =
        .next (t.setChan ch { t.chan ch with bap := m, wBap := w })) ∧
    (exec (.ahtDecode ch) s = .next t →
      exec (.ahtDecode ch) (s.setChan ch { s.chan ch with dexp := m, wDexp := w }) =
        .next (t.setChan ch { t.chan ch with dexp := m, wDexp := w }))

/-- R31, R100: whenever the host can access AGMD, SEQ is (IDLE, 0, 0, 0, 0): a step from such a state leads to such a state. -/
def Obligations.HostAlwaysSeesIdleSequencer : Prop :=
  ∀ s t : State, Ready s → step s = .next t → Ready t

/-- Every step keeps the invariant, from every state that meets it, also in the middle of a command: canonical stores inside the map,
a legal STATUS, GAQMODE 0 when invalid, no valid bin without a valid mode, SEQ inside its checked range. -/
def Obligations.EveryStepKeepsInvariant : Prop :=
  ∀ s t : State, Inv s → step s = .next t → Inv t

/-- R23, R42: no step changes the tables, and only a reset clears a written bit. -/
def Obligations.TablesAndWrittenBitsPersist : Prop :=
  ∀ s t : State, Inv s → step s = .next t →
    t.rom = s.rom ∧
    ((∀ rest, s.seq.phase = .idle → s.host ≠ .reset :: rest) →
      ∀ ch, ((s.chan ch).wRange = true → (t.chan ch).wRange = true) ∧
        ∀ b, ((s.chan ch).wBap.get b = 1 → (t.chan ch).wBap.get b = 1) ∧
          ((s.chan ch).wDexp.get b = 1 → (t.chan ch).wDexp.get b = 1))
end

