-- ==== Sys2Proof/Laws/Decode.lean ====
section
/-! SUPPORT. Laws of the cursor reads and of the element decoder. -/

namespace Sys2Proof

/-- Reading more bits onto a value adds them below it. -/
theorem readBitsOnto_acc (acc n : Nat) (bs : Bits) :
    readBitsOnto acc n bs = (readBitsOnto 0 n bs).map (fun p => (acc * 2 ^ n + p.1, p.2)) := by
  induction n generalizing acc bs with
  | zero => simp [readBitsOnto]
  | succ n ih =>
    cases bs with
    | nil => simp [readBitsOnto]
    | cons b bs =>
      rw [readBitsOnto, readBitsOnto, ih, ih (2 * 0 + b.toNat)]
      cases readBitsOnto 0 n bs with
      | none => rfl
      | some p =>
        simp only [Option.map_some, Option.some.injEq, Prod.mk.injEq, and_true]
        ring

/-- A read of n+1 bits reads the first bit as the most significant one (R89). -/
theorem readBits_succ_cons (n : Nat) (b : Bool) (bs : Bits) :
    readBits (n + 1) (b :: bs) = (readBits n bs).map (fun p => (b.toNat * 2 ^ n + p.1, p.2)) := by
  rw [readBits, readBitsOnto, readBitsOnto_acc, readBits]
  simp

@[simp] theorem readBits_zero (bs : Bits) : readBits 0 bs = some (0, bs) := rfl

@[simp] theorem readBits_succ_nil (n : Nat) : readBits (n + 1) [] = none := rfl

/-- A read fails exactly when the cursor holds too few bits (R90). -/
theorem readBits_eq_none (n : Nat) (bs : Bits) : readBits n bs = none ↔ bs.length < n := by
  induction n generalizing bs with
  | zero => simp
  | succ n ih =>
    cases bs with
    | nil => simp
    | cons b bs => simp [readBits_succ_cons, ih]

/-- A read takes exactly n bits off the front, and its value is below 2^n (R88). -/
theorem readBits_spec {n u : Nat} {bs rest : Bits} (h : readBits n bs = some (u, rest)) :
    ∃ used, bs = used ++ rest ∧ used.length = n ∧ u < 2 ^ n := by
  induction n generalizing u bs with
  | zero =>
    simp only [readBits_zero, Option.some.injEq, Prod.mk.injEq] at h
    exact ⟨[], by simp [h.2], rfl, by simp [← h.1]⟩
  | succ n ih =>
    cases bs with
    | nil => simp at h
    | cons b bs =>
      rw [readBits_succ_cons] at h
      obtain ⟨⟨v, r⟩, hv, hp⟩ := Option.map_eq_some_iff.1 h
      simp only [Prod.mk.injEq] at hp
      obtain ⟨used, hused, hlen, hlt⟩ := ih (hp.2 ▸ hv)
      refine ⟨b :: used, by simp [hused], by simp [hlen], ?_⟩
      have hb : b.toNat ≤ 1 := Bool.toNat_le b
      have hmul : b.toNat * 2 ^ n ≤ 2 ^ n := by nlinarith [Nat.two_pow_pos n]
      rw [← hp.1, pow_succ]
      omega

/-- The bits written for a field have the field's width. -/
@[simp] theorem bitsOf_length (n v : Nat) : (bitsOf n v).length = n := by
  induction n with
  | zero => rfl
  | succ n ih => simp [bitsOf, ih]

/-- A signed read is a read of the same bits (R89). -/
theorem readSBits_eq_some {n : Nat} {m : Int} {bs rest : Bits} :
    readSBits n bs = some (m, rest) ↔ ∃ u, readBits n bs = some (u, rest) ∧ m = sext n u := by
  unfold readSBits
  cases readBits n bs with
  | none => simp
  | some p =>
    obtain ⟨u, r⟩ := p
    simp only [Option.some.injEq, Prod.mk.injEq]
    constructor
    · rintro ⟨rfl, rfl⟩
      exact ⟨u, ⟨rfl, rfl⟩, rfl⟩
    · rintro ⟨u', ⟨rfl, rfl⟩, rfl⟩
      exact ⟨rfl, rfl⟩

/-- A mantissa is read on in its own slot. -/
theorem slotOf_decodeMantissa {h : Hebap} {w g : Nat} {m : Int} {bs rest : Bits} {i : Instr}
    (hd : decodeMantissa h w g m bs = .element i rest) : slotOf i = some (.gmant h w g) := by
  unfold decodeMantissa at hd
  split at hd
  · split at hd
    · obtain ⟨rfl, -⟩ := Fetched.element.inj hd
      rfl
    · exact Fetched.noConfusion hd
  · split at hd
    · rename_i hg
      obtain ⟨rfl, -⟩ := Fetched.element.inj hd
      simp [slotOf, hg]
    · obtain ⟨rfl, -⟩ := Fetched.element.inj hd
      rfl

namespace Machine

/-- For an element, the dispatch and the sequencer run the same meaning. -/
theorem exec_of_slot {i : Instr} {slot : Slot} (h : slotOf i = some slot) (s : State) : exec i s = .next (runElement i s) := by
  cases i <;> first | rfl | simp [slotOf] at h

end Machine

end Sys2Proof
end

