-- ==== Sys2Proof/Laws/Memory.lean ====
section
/-! SUPPORT. The laws of the sparse stores: read after write, the canonical form, copied ranges, ranges of ones. -/

namespace Sys2Proof.Machine

variable {w : Nat}

@[simp] theorem Memory.get_nil (a : Nat) : Memory.get ([] : Memory w) a = 0 := rfl

@[simp] theorem Memory.wf_nil : Memory.wf ([] : Memory w) = true := rfl

/-- What the canonical form says of a non-empty store. -/
theorem Memory.wf_cons {k : Nat} {x : BitVec w} {rest : Memory w} :
    Memory.wf ((k, x) :: rest) = true ↔ x ≠ 0 ∧ (∀ p ∈ rest, k < p.1) ∧ Memory.wf rest = true := by
  simp [Memory.wf, and_assoc]

/-- A cell whose index is below every listed one is zero. -/
theorem Memory.get_of_lt {m : Memory w} {a : Nat} (h : ∀ p ∈ m, a < p.1) : m.get a = 0 := by
  induction m with
  | nil => rfl
  | cons p rest ih =>
    have hp : a < p.1 := h p (by simp)
    rw [Memory.get, if_neg (by omega)]
    exact ih fun q hq => h q (by simp [hq])

/-- Reading after writing: the written value at the written index, every other cell as before. -/
theorem Memory.get_set {m : Memory w} (hm : m.wf = true) (a b : Nat) (v : BitVec w) :
    (m.set a v).get b = if b = a then v else m.get b := by
  induction m with
  | nil =>
    rw [Memory.set]
    split
    · rename_i hv
      split
      · exact hv.symm
      · rfl
    · by_cases hb : b = a
      · simp [Memory.get, hb]
      · simp [Memory.get, hb, Ne.symm hb]
  | cons p rest ih =>
    obtain ⟨k, x⟩ := p
    obtain ⟨hx, hlt, hrest⟩ := Memory.wf_cons.1 hm
    rw [Memory.set]
    split
    · rename_i hak
      split
      · rename_i hv
        by_cases hb : b = a
        · rw [if_pos hb, hb, hv]
          exact Memory.get_of_lt (by
            intro q hq
            rcases List.mem_cons.1 hq with rfl | hq
            · exact hak
            · exact lt_trans hak (hlt q hq))
        · rw [if_neg hb]
      · by_cases hb : b = a
        · simp [Memory.get, hb]
        · rw [Memory.get, if_neg (by omega), if_neg hb]
    · split
      · rename_i hak
        subst hak
        split
        · rename_i hv
          by_cases hb : b = a
          · rw [if_pos hb, hb, hv]
            exact Memory.get_of_lt hlt
          · rw [if_neg hb, Memory.get, if_neg (by omega)]
        · by_cases hb : b = a
          · simp [Memory.get, hb]
          · simp [Memory.get, hb, Ne.symm hb]
      · rename_i hak
        by_cases hb : k = b
        · subst hb
          rw [Memory.get, if_pos rfl, if_neg (by omega), Memory.get, if_pos rfl]
        · rw [Memory.get, if_neg hb, ih hrest]
          by_cases hba : b = a
          · simp [hba]
          · simp [hba, Memory.get, hb]

theorem Memory.get_set_self {m : Memory w} (hm : m.wf = true) (a : Nat) (v : BitVec w) : (m.set a v).get a = v := by
  simp [Memory.get_set hm]

theorem Memory.get_set_ne {m : Memory w} (hm : m.wf = true) {a b : Nat} (h : b ≠ a) (v : BitVec w) :
    (m.set a v).get b = m.get b := by
  simp [Memory.get_set hm, h]

/-- The indexes a write lists: the old ones and the written one. -/
theorem Memory.mem_set {m : Memory w} {a : Nat} {v : BitVec w} {p : Nat × BitVec w} (h : p ∈ m.set a v) :
    p = (a, v) ∨ p ∈ m := by
  induction m with
  | nil =>
    rw [Memory.set] at h
    split at h <;> simp_all
  | cons q rest ih =>
    obtain ⟨k, x⟩ := q
    rw [Memory.set] at h
    split at h
    · split at h
      · exact .inr h
      · rcases List.mem_cons.1 h with h | h
        · exact .inl h
        · exact .inr h
    · split at h
      · split at h
        · exact .inr (List.mem_cons_of_mem _ h)
        · rcases List.mem_cons.1 h with h | h
          · exact .inl h
          · exact .inr (List.mem_cons_of_mem _ h)
      · rcases List.mem_cons.1 h with h | h
        · exact .inr (h ▸ List.mem_cons_self)
        · exact (ih h).imp id (List.mem_cons_of_mem _)

/-- A write keeps the canonical form. -/
theorem Memory.wf_set {m : Memory w} (hm : m.wf = true) (a : Nat) (v : BitVec w) : (m.set a v).wf = true := by
  induction m with
  | nil =>
    rw [Memory.set]
    split
    · rfl
    · rename_i hv
      exact Memory.wf_cons.2 ⟨hv, by simp, rfl⟩
  | cons q rest ih =>
    obtain ⟨k, x⟩ := q
    obtain ⟨hx, hlt, hrest⟩ := Memory.wf_cons.1 hm
    rw [Memory.set]
    split
    · rename_i hak
      split
      · exact hm
      · rename_i hv
        refine Memory.wf_cons.2 ⟨hv, ?_, hm⟩
        intro p hp
        rcases List.mem_cons.1 hp with rfl | hp
        · exact hak
        · exact lt_trans hak (hlt p hp)
    · split
      · rename_i hak
        subst hak
        split
        · exact hrest
        · rename_i hv
          exact Memory.wf_cons.2 ⟨hv, hlt, hrest⟩
      · refine Memory.wf_cons.2 ⟨hx, ?_, ih hrest⟩
        intro p hp
        rcases Memory.mem_set hp with rfl | hp
        · simp only; omega
        · exact hlt p hp

/-- Two canonical stores that read alike are equal. -/
theorem Memory.ext_of_get {m n : Memory w} (hm : m.wf = true) (hn : n.wf = true) (h : ∀ a, m.get a = n.get a) : m = n := by
  induction m generalizing n with
  | nil =>
    cases n with
    | nil => rfl
    | cons q rest =>
      obtain ⟨k, x⟩ := q
      have := h k
      simp [Memory.get] at this
      exact absurd this.symm (Memory.wf_cons.1 hn).1
  | cons p rest ih =>
    obtain ⟨k, x⟩ := p
    obtain ⟨hx, hlt, hrest⟩ := Memory.wf_cons.1 hm
    cases n with
    | nil =>
      have := h k
      simp [Memory.get] at this
      exact absurd this hx
    | cons q rest' =>
      obtain ⟨k', x'⟩ := q
      obtain ⟨hx', hlt', hrest'⟩ := Memory.wf_cons.1 hn
      have hk : k = k' := by
        rcases lt_trichotomy k k' with hkk | hkk | hkk
        · have h0 : Memory.get ((k', x') :: rest') k = 0 := Memory.get_of_lt (by
            intro q hq
            rcases List.mem_cons.1 hq with rfl | hq
            · exact hkk
            · exact lt_trans hkk (hlt' q hq))
          have := h k
          rw [h0] at this
          simp [Memory.get] at this
          exact absurd this hx
        · exact hkk
        · have h0 : Memory.get ((k, x) :: rest) k' = 0 := Memory.get_of_lt (by
            intro q hq
            rcases List.mem_cons.1 hq with rfl | hq
            · exact hkk
            · exact lt_trans hkk (hlt q hq))
          have := h k'
          rw [h0] at this
          simp [Memory.get] at this
          exact absurd this.symm hx'
      subst hk
      have hxx : x = x' := by simpa [Memory.get] using h k
      subst hxx
      refine congrArg _ (ih hrest hrest' fun a => ?_)
      by_cases ha : k = a
      · subst ha
        rw [Memory.get_of_lt hlt, Memory.get_of_lt hlt']
      · simpa [Memory.get, ha] using h a

/-- Writing the same value again changes nothing. -/
theorem Memory.set_set_self {m : Memory w} (hm : m.wf = true) (a : Nat) (v : BitVec w) : (m.set a v).set a v = m.set a v := by
  have h := Memory.wf_set hm a v
  refine Memory.ext_of_get (Memory.wf_set h a v) h fun b => ?_
  rw [Memory.get_set h, Memory.get_set hm]
  split <;> rfl

/-! ## Copied ranges -/

/-- Writing a list of cells keeps the canonical form. -/
theorem foldl_set_wf (ks : List Nat) (f : Nat → BitVec w) {m : Memory w} (hm : m.wf = true) :
    (ks.foldl (fun m k => m.set k (f k)) m).wf = true := by
  induction ks generalizing m with
  | nil => exact hm
  | cons k ks ih => exact ih (Memory.wf_set hm k (f k))

/-- What a store reads as after a list of cells is written: the written value at the listed indexes. -/
theorem foldl_set_get (ks : List Nat) (f : Nat → BitVec w) {m : Memory w} (hm : m.wf = true) (a : Nat) :
    (ks.foldl (fun m k => m.set k (f k)) m).get a = if a ∈ ks then f a else m.get a := by
  induction ks generalizing m with
  | nil => simp
  | cons k ks ih =>
    rw [List.foldl_cons, ih (Memory.wf_set hm k (f k)), Memory.get_set hm]
    by_cases h : a ∈ ks <;> by_cases hk : a = k <;> simp_all

/-- A copied range keeps the canonical form. -/
theorem copyRange_wf {dst : Memory w} (h : dst.wf = true) (src : Memory w) (a n : Nat) : (copyRange dst src a n).wf = true :=
  foldl_set_wf _ _ h

/-- A copied range reads as the source inside and as before outside. -/
theorem copyRange_get {dst : Memory w} (h : dst.wf = true) (src : Memory w) (a n b : Nat) :
    (copyRange dst src a n).get b = if a ≤ b ∧ b < a + n then src.get b else dst.get b := by
  rw [copyRange, foldl_set_get _ _ h]
  simp [List.mem_range'_1]

/-- What a copied range lists lies inside the range or was listed before. -/
theorem mem_copyRange {dst src : Memory w} {a n : Nat} {p : Nat × BitVec w} (h : p ∈ copyRange dst src a n) :
    (a ≤ p.1 ∧ p.1 < a + n) ∨ p ∈ dst := by
  have key : ∀ (ks : List Nat) (m : Memory w),
      p ∈ ks.foldl (fun m k => m.set k (src.get k)) m → p.1 ∈ ks ∨ p ∈ m := by
    intro ks
    induction ks with
    | nil => intro m hm; exact .inr hm
    | cons k ks ih =>
      intro m hm
      rcases ih _ hm with h | h
      · exact .inl (List.mem_cons_of_mem _ h)
      · rcases Memory.mem_set h with rfl | h
        · exact .inl List.mem_cons_self
        · exact .inr h
  rcases key _ _ h with h | h
  · exact .inl (by simpa [List.mem_range'_1] using h)
  · exact .inr h

/-! ## Ranges of ones -/

theorem onesRange_zero (a : Nat) : onesRange a 0 = [] := rfl

theorem onesRange_succ (a n : Nat) : onesRange a (n + 1) = (a, 1#1) :: onesRange (a + 1) n := by
  simp [onesRange, List.range'_succ]

/-- What a range of ones lists. -/
theorem mem_onesRange {a n : Nat} {p : Nat × BitVec 1} (h : p ∈ onesRange a n) : a ≤ p.1 ∧ p.1 < a + n := by
  obtain ⟨b, hb, rfl⟩ := List.mem_map.1 h
  simpa [List.mem_range'_1] using hb

theorem onesRange_wf (a n : Nat) : (onesRange a n).wf = true := by
  induction n generalizing a with
  | zero => rfl
  | succ n ih =>
    rw [onesRange_succ]
    refine Memory.wf_cons.2 ⟨by decide, fun p hp => ?_, ih _⟩
    have := mem_onesRange hp
    omega

/-- A range of ones reads 1 exactly inside the range. -/
theorem onesRange_get (a n b : Nat) : (onesRange a n).get b = if a ≤ b ∧ b < a + n then 1 else 0 := by
  induction n generalizing a with
  | zero => simp [onesRange_zero]
  | succ n ih =>
    rw [onesRange_succ, Memory.get]
    by_cases h : a = b
    · subst h
      simp
    · rw [if_neg h, ih]
      by_cases hb : a + 1 ≤ b ∧ b < a + 1 + n
      · rw [if_pos hb, if_pos (by omega)]
      · rw [if_neg hb, if_neg (by omega)]

end Sys2Proof.Machine
end

