-- ==== Sys2Proof/Laws/State.lean ====
section
/-! SUPPORT. One lemma per field per update of the state, so that no proof unfolds a record update; the channel accessors;
and what the shared operations on the agents and the error entry do. -/

namespace Sys2Proof.Machine

/-! ## Field by field -/

@[simp] theorem setChan_status (s : State) (ch : Chan) (c : Channel) : (s.setChan ch c).status = s.status := rfl
@[simp] theorem setChan_seq (s : State) (ch : Chan) (c : Channel) : (s.setChan ch c).seq = s.seq := rfl
@[simp] theorem setChan_staging (s : State) (ch : Chan) (c : Channel) : (s.setChan ch c).staging = s.staging := rfl
@[simp] theorem setChan_rom (s : State) (ch : Chan) (c : Channel) : (s.setChan ch c).rom = s.rom := rfl
@[simp] theorem setChan_cursor (s : State) (ch : Chan) (c : Channel) : (s.setChan ch c).cursor = s.cursor := rfl
@[simp] theorem setChan_dither (s : State) (ch : Chan) (c : Channel) : (s.setChan ch c).dither = s.dither := rfl
@[simp] theorem setChan_ditherCount (s : State) (ch : Chan) (c : Channel) : (s.setChan ch c).ditherCount = s.ditherCount := rfl
@[simp] theorem setChan_host (s : State) (ch : Chan) (c : Channel) : (s.setChan ch c).host = s.host := rfl
@[simp] theorem setChan_rdata (s : State) (ch : Chan) (c : Channel) : (s.setChan ch c).rdata = s.rdata := rfl
@[simp] theorem setChan_draws (s : State) (ch : Chan) (c : Channel) : (s.setChan ch c).draws = s.draws := rfl

@[simp] theorem endCommand_status (s : State) : (endCommand s).status = s.status := rfl
@[simp] theorem endCommand_chans (s : State) : (endCommand s).chans = s.chans := rfl
@[simp] theorem endCommand_seq (s : State) :
    (endCommand s).seq = Seq.idle := rfl
@[simp] theorem endCommand_staging (s : State) :
    (endCommand s).staging = Staging.empty := rfl
@[simp] theorem endCommand_rom (s : State) : (endCommand s).rom = s.rom := rfl
@[simp] theorem endCommand_cursor (s : State) : (endCommand s).cursor = s.cursor := rfl
@[simp] theorem endCommand_dither (s : State) : (endCommand s).dither = s.dither := rfl
@[simp] theorem endCommand_ditherCount (s : State) : (endCommand s).ditherCount = s.ditherCount := rfl
@[simp] theorem endCommand_host (s : State) : (endCommand s).host = s.host := rfl
@[simp] theorem endCommand_rdata (s : State) : (endCommand s).rdata = s.rdata := rfl
@[simp] theorem endCommand_draws (s : State) : (endCommand s).draws = s.draws := rfl
@[simp] theorem endCommand_chan (s : State) (c0 : Chan) : (endCommand s).chan c0 = s.chan c0 := rfl

@[simp] theorem loseCursor_status (s : State) : (loseCursor s).status = s.status := rfl
@[simp] theorem loseCursor_chans (s : State) : (loseCursor s).chans = s.chans := rfl
@[simp] theorem loseCursor_seq (s : State) : (loseCursor s).seq = s.seq := rfl
@[simp] theorem loseCursor_staging (s : State) : (loseCursor s).staging = s.staging := rfl
@[simp] theorem loseCursor_rom (s : State) : (loseCursor s).rom = s.rom := rfl
@[simp] theorem loseCursor_dither (s : State) : (loseCursor s).dither = s.dither := rfl
@[simp] theorem loseCursor_ditherCount (s : State) : (loseCursor s).ditherCount = s.ditherCount := rfl
@[simp] theorem loseCursor_host (s : State) : (loseCursor s).host = s.host := rfl
@[simp] theorem loseCursor_rdata (s : State) : (loseCursor s).rdata = s.rdata := rfl
@[simp] theorem loseCursor_draws (s : State) :
    (loseCursor s).draws = s.draws + 1 := rfl
@[simp] theorem loseCursor_chan (s : State) (c0 : Chan) : (loseCursor s).chan c0 = s.chan c0 := rfl

@[simp] theorem returnFromError_status (s : State) :
    (returnFromError s).status = Status.clear := rfl
@[simp] theorem returnFromError_seq (s : State) : (returnFromError s).seq = s.seq := rfl
@[simp] theorem returnFromError_staging (s : State) : (returnFromError s).staging = s.staging := rfl
@[simp] theorem returnFromError_rom (s : State) : (returnFromError s).rom = s.rom := rfl
@[simp] theorem returnFromError_cursor (s : State) : (returnFromError s).cursor = s.cursor := rfl
@[simp] theorem returnFromError_dither (s : State) : (returnFromError s).dither = s.dither := rfl
@[simp] theorem returnFromError_ditherCount (s : State) : (returnFromError s).ditherCount = s.ditherCount := rfl
@[simp] theorem returnFromError_host (s : State) : (returnFromError s).host = s.host := rfl
@[simp] theorem returnFromError_rdata (s : State) : (returnFromError s).rdata = s.rdata := rfl
@[simp] theorem returnFromError_draws (s : State) : (returnFromError s).draws = s.draws := rfl

@[simp] theorem resetBlock_status (s : State) :
    (resetBlock s).status = Status.clear := rfl
@[simp] theorem resetBlock_seq (s : State) :
    (resetBlock s).seq = Seq.idle := rfl
@[simp] theorem resetBlock_staging (s : State) :
    (resetBlock s).staging = Staging.empty := rfl
@[simp] theorem resetBlock_rom (s : State) : (resetBlock s).rom = s.rom := rfl
@[simp] theorem resetBlock_cursor (s : State) : (resetBlock s).cursor = s.cursor := rfl
@[simp] theorem resetBlock_dither (s : State) : (resetBlock s).dither = s.dither := rfl
@[simp] theorem resetBlock_ditherCount (s : State) : (resetBlock s).ditherCount = s.ditherCount := rfl
@[simp] theorem resetBlock_host (s : State) : (resetBlock s).host = s.host := rfl
@[simp] theorem resetBlock_rdata (s : State) : (resetBlock s).rdata = s.rdata := rfl
@[simp] theorem resetBlock_draws (s : State) : (resetBlock s).draws = s.draws := rfl

@[simp] theorem nextGainBin_status (gc : Nat) (s : State) : (nextGainBin gc s).status = s.status := rfl
@[simp] theorem nextGainBin_chans (gc : Nat) (s : State) : (nextGainBin gc s).chans = s.chans := rfl
@[simp] theorem nextGainBin_seq (gc : Nat) (s : State) :
    (nextGainBin gc s).seq = { s.seq with bin := s.seq.bin + 1, gc := gc } := rfl
@[simp] theorem nextGainBin_staging (gc : Nat) (s : State) : (nextGainBin gc s).staging = s.staging := rfl
@[simp] theorem nextGainBin_rom (gc : Nat) (s : State) : (nextGainBin gc s).rom = s.rom := rfl
@[simp] theorem nextGainBin_cursor (gc : Nat) (s : State) : (nextGainBin gc s).cursor = s.cursor := rfl
@[simp] theorem nextGainBin_dither (gc : Nat) (s : State) : (nextGainBin gc s).dither = s.dither := rfl
@[simp] theorem nextGainBin_ditherCount (gc : Nat) (s : State) : (nextGainBin gc s).ditherCount = s.ditherCount := rfl
@[simp] theorem nextGainBin_host (gc : Nat) (s : State) : (nextGainBin gc s).host = s.host := rfl
@[simp] theorem nextGainBin_rdata (gc : Nat) (s : State) : (nextGainBin gc s).rdata = s.rdata := rfl
@[simp] theorem nextGainBin_draws (gc : Nat) (s : State) : (nextGainBin gc s).draws = s.draws := rfl
@[simp] theorem nextGainBin_chan (gc : Nat) (s : State) (c0 : Chan) : (nextGainBin gc s).chan c0 = s.chan c0 := rfl

@[simp] theorem addGains_status (gs : List Nat) (s : State) : (addGains gs s).status = s.status := rfl
@[simp] theorem addGains_chans (gs : List Nat) (s : State) : (addGains gs s).chans = s.chans := rfl
@[simp] theorem addGains_seq (gs : List Nat) (s : State) : (addGains gs s).seq = s.seq := rfl
@[simp] theorem addGains_staging (gs : List Nat) (s : State) :
    (addGains gs s).staging = { s.staging with gains := s.staging.gains ++ gs } := rfl
@[simp] theorem addGains_rom (gs : List Nat) (s : State) : (addGains gs s).rom = s.rom := rfl
@[simp] theorem addGains_cursor (gs : List Nat) (s : State) : (addGains gs s).cursor = s.cursor := rfl
@[simp] theorem addGains_dither (gs : List Nat) (s : State) : (addGains gs s).dither = s.dither := rfl
@[simp] theorem addGains_ditherCount (gs : List Nat) (s : State) : (addGains gs s).ditherCount = s.ditherCount := rfl
@[simp] theorem addGains_host (gs : List Nat) (s : State) : (addGains gs s).host = s.host := rfl
@[simp] theorem addGains_rdata (gs : List Nat) (s : State) : (addGains gs s).rdata = s.rdata := rfl
@[simp] theorem addGains_draws (gs : List Nat) (s : State) : (addGains gs s).draws = s.draws := rfl
@[simp] theorem addGains_chan (gs : List Nat) (s : State) (c0 : Chan) : (addGains gs s).chan c0 = s.chan c0 := rfl

@[simp] theorem applyGaqmod_status (mode : BitVec 2) (s : State) : (applyGaqmod mode s).status = s.status := rfl
@[simp] theorem applyGaqmod_chans (mode : BitVec 2) (s : State) : (applyGaqmod mode s).chans = s.chans := rfl
@[simp] theorem applyGaqmod_seq (mode : BitVec 2) (s : State) :
    (applyGaqmod mode s).seq = ⟨.gain, s.running.first, 0, 0, 2⟩ := rfl
@[simp] theorem applyGaqmod_staging (mode : BitVec 2) (s : State) :
    (applyGaqmod mode s).staging = { s.staging with mode := mode, gains := [] } := rfl
@[simp] theorem applyGaqmod_rom (mode : BitVec 2) (s : State) : (applyGaqmod mode s).rom = s.rom := rfl
@[simp] theorem applyGaqmod_cursor (mode : BitVec 2) (s : State) : (applyGaqmod mode s).cursor = s.cursor := rfl
@[simp] theorem applyGaqmod_dither (mode : BitVec 2) (s : State) : (applyGaqmod mode s).dither = s.dither := rfl
@[simp] theorem applyGaqmod_ditherCount (mode : BitVec 2) (s : State) : (applyGaqmod mode s).ditherCount = s.ditherCount := rfl
@[simp] theorem applyGaqmod_host (mode : BitVec 2) (s : State) : (applyGaqmod mode s).host = s.host := rfl
@[simp] theorem applyGaqmod_rdata (mode : BitVec 2) (s : State) : (applyGaqmod mode s).rdata = s.rdata := rfl
@[simp] theorem applyGaqmod_draws (mode : BitVec 2) (s : State) : (applyGaqmod mode s).draws = s.draws := rfl
@[simp] theorem applyGaqmod_chan (mode : BitVec 2) (s : State) (c0 : Chan) : (applyGaqmod mode s).chan c0 = s.chan c0 := rfl

@[simp] theorem applyGaqgain_status (gain : BitVec 1) (s : State) : (applyGaqgain gain s).status = s.status := rfl
@[simp] theorem applyGaqgain_chans (gain : BitVec 1) (s : State) : (applyGaqgain gain s).chans = s.chans := rfl
@[simp] theorem applyGaqgain_rom (gain : BitVec 1) (s : State) : (applyGaqgain gain s).rom = s.rom := rfl
@[simp] theorem applyGaqgain_cursor (gain : BitVec 1) (s : State) : (applyGaqgain gain s).cursor = s.cursor := rfl
@[simp] theorem applyGaqgain_dither (gain : BitVec 1) (s : State) : (applyGaqgain gain s).dither = s.dither := rfl
@[simp] theorem applyGaqgain_ditherCount (gain : BitVec 1) (s : State) : (applyGaqgain gain s).ditherCount = s.ditherCount := rfl
@[simp] theorem applyGaqgain_host (gain : BitVec 1) (s : State) : (applyGaqgain gain s).host = s.host := rfl
@[simp] theorem applyGaqgain_rdata (gain : BitVec 1) (s : State) : (applyGaqgain gain s).rdata = s.rdata := rfl
@[simp] theorem applyGaqgain_draws (gain : BitVec 1) (s : State) : (applyGaqgain gain s).draws = s.draws := rfl
@[simp] theorem applyGaqgain_chan (gain : BitVec 1) (s : State) (c0 : Chan) : (applyGaqgain gain s).chan c0 = s.chan c0 := rfl

@[simp] theorem stagePremant_status (blk : Nat) (v : Int) (s : State) : (stagePremant blk v s).status = s.status := rfl
@[simp] theorem stagePremant_chans (blk : Nat) (v : Int) (s : State) : (stagePremant blk v s).chans = s.chans := rfl
@[simp] theorem stagePremant_seq (blk : Nat) (v : Int) (s : State) : (stagePremant blk v s).seq = s.seq := rfl
@[simp] theorem stagePremant_staging (blk : Nat) (v : Int) (s : State) :
    (stagePremant blk v s).staging = { s.staging with spm := s.staging.spm.set (pmIndex s.seq.bin blk) (toReg v) } := rfl
@[simp] theorem stagePremant_rom (blk : Nat) (v : Int) (s : State) : (stagePremant blk v s).rom = s.rom := rfl
@[simp] theorem stagePremant_cursor (blk : Nat) (v : Int) (s : State) : (stagePremant blk v s).cursor = s.cursor := rfl
@[simp] theorem stagePremant_dither (blk : Nat) (v : Int) (s : State) : (stagePremant blk v s).dither = s.dither := rfl
@[simp] theorem stagePremant_ditherCount (blk : Nat) (v : Int) (s : State) : (stagePremant blk v s).ditherCount = s.ditherCount := rfl
@[simp] theorem stagePremant_host (blk : Nat) (v : Int) (s : State) : (stagePremant blk v s).host = s.host := rfl
@[simp] theorem stagePremant_rdata (blk : Nat) (v : Int) (s : State) : (stagePremant blk v s).rdata = s.rdata := rfl
@[simp] theorem stagePremant_draws (blk : Nat) (v : Int) (s : State) : (stagePremant blk v s).draws = s.draws := rfl
@[simp] theorem stagePremant_chan (blk : Nat) (v : Int) (s : State) (c0 : Chan) : (stagePremant blk v s).chan c0 = s.chan c0 := rfl

@[simp] theorem nextBin_status (s : State) : (nextBin s).status = s.status := rfl
@[simp] theorem nextBin_chans (s : State) : (nextBin s).chans = s.chans := rfl
@[simp] theorem nextBin_staging (s : State) : (nextBin s).staging = s.staging := rfl
@[simp] theorem nextBin_rom (s : State) : (nextBin s).rom = s.rom := rfl
@[simp] theorem nextBin_cursor (s : State) : (nextBin s).cursor = s.cursor := rfl
@[simp] theorem nextBin_dither (s : State) : (nextBin s).dither = s.dither := rfl
@[simp] theorem nextBin_ditherCount (s : State) : (nextBin s).ditherCount = s.ditherCount := rfl
@[simp] theorem nextBin_host (s : State) : (nextBin s).host = s.host := rfl
@[simp] theorem nextBin_rdata (s : State) : (nextBin s).rdata = s.rdata := rfl
@[simp] theorem nextBin_draws (s : State) : (nextBin s).draws = s.draws := rfl
@[simp] theorem nextBin_chan (s : State) (c0 : Chan) : (nextBin s).chan c0 = s.chan c0 := rfl

@[simp] theorem beginBins_status (s : State) : (beginBins s).status = s.status := rfl
@[simp] theorem beginBins_chans (s : State) : (beginBins s).chans = s.chans := rfl
@[simp] theorem beginBins_seq (s : State) :
    (beginBins s).seq = { s.seq with phase := .mant, bin := s.running.first, blk := 0, k := 0 } := rfl
@[simp] theorem beginBins_staging (s : State) : (beginBins s).staging = s.staging := rfl
@[simp] theorem beginBins_rom (s : State) : (beginBins s).rom = s.rom := rfl
@[simp] theorem beginBins_cursor (s : State) : (beginBins s).cursor = s.cursor := rfl
@[simp] theorem beginBins_dither (s : State) : (beginBins s).dither = s.dither := rfl
@[simp] theorem beginBins_ditherCount (s : State) : (beginBins s).ditherCount = s.ditherCount := rfl
@[simp] theorem beginBins_host (s : State) : (beginBins s).host = s.host := rfl
@[simp] theorem beginBins_rdata (s : State) : (beginBins s).rdata = s.rdata := rfl
@[simp] theorem beginBins_draws (s : State) : (beginBins s).draws = s.draws := rfl
@[simp] theorem beginBins_chan (s : State) (c0 : Chan) : (beginBins s).chan c0 = s.chan c0 := rfl

@[simp] theorem stageCoef_status (s : State) : (stageCoef s).status = s.status := rfl
@[simp] theorem stageCoef_chans (s : State) : (stageCoef s).chans = s.chans := rfl
@[simp] theorem stageCoef_seq (s : State) :
    (stageCoef s).seq = { s.seq with bin := s.seq.bin + 1 } := rfl
@[simp] theorem stageCoef_rom (s : State) : (stageCoef s).rom = s.rom := rfl
@[simp] theorem stageCoef_cursor (s : State) : (stageCoef s).cursor = s.cursor := rfl
@[simp] theorem stageCoef_dither (s : State) : (stageCoef s).dither = s.dither := rfl
@[simp] theorem stageCoef_ditherCount (s : State) : (stageCoef s).ditherCount = s.ditherCount := rfl
@[simp] theorem stageCoef_host (s : State) : (stageCoef s).host = s.host := rfl
@[simp] theorem stageCoef_rdata (s : State) : (stageCoef s).rdata = s.rdata := rfl
@[simp] theorem stageCoef_draws (s : State) : (stageCoef s).draws = s.draws := rfl
@[simp] theorem stageCoef_chan (s : State) (c0 : Chan) : (stageCoef s).chan c0 = s.chan c0 := rfl

@[simp] theorem beginAht_status (ch : Chan) (s : State) : (beginAht ch s).status = s.status := rfl
@[simp] theorem beginAht_chans (ch : Chan) (s : State) : (beginAht ch s).chans = s.chans := rfl
@[simp] theorem beginAht_seq (ch : Chan) (s : State) :
    (beginAht ch s).seq = ⟨.mode, 0, 0, 0, 0⟩ := rfl
@[simp] theorem beginAht_staging (ch : Chan) (s : State) :
    (beginAht ch s).staging = { Staging.empty with ch := ch } := rfl
@[simp] theorem beginAht_rom (ch : Chan) (s : State) : (beginAht ch s).rom = s.rom := rfl
@[simp] theorem beginAht_cursor (ch : Chan) (s : State) : (beginAht ch s).cursor = s.cursor := rfl
@[simp] theorem beginAht_dither (ch : Chan) (s : State) : (beginAht ch s).dither = s.dither := rfl
@[simp] theorem beginAht_ditherCount (ch : Chan) (s : State) : (beginAht ch s).ditherCount = s.ditherCount := rfl
@[simp] theorem beginAht_host (ch : Chan) (s : State) : (beginAht ch s).host = s.host := rfl
@[simp] theorem beginAht_rdata (ch : Chan) (s : State) : (beginAht ch s).rdata = s.rdata := rfl
@[simp] theorem beginAht_draws (ch : Chan) (s : State) : (beginAht ch s).draws = s.draws := rfl
@[simp] theorem beginAht_chan (ch : Chan) (s : State) (c0 : Chan) : (beginAht ch s).chan c0 = s.chan c0 := rfl

@[simp] theorem beginIdct_status (ch : Chan) (blk : Blk) (s : State) : (beginIdct ch blk s).status = s.status := rfl
@[simp] theorem beginIdct_chans (ch : Chan) (blk : Blk) (s : State) : (beginIdct ch blk s).chans = s.chans := rfl
@[simp] theorem beginIdct_seq (ch : Chan) (blk : Blk) (s : State) :
    (beginIdct ch blk s).seq = ⟨.idct, (s.chan ch).first, 0, 0, 0⟩ := rfl
@[simp] theorem beginIdct_staging (ch : Chan) (blk : Blk) (s : State) :
    (beginIdct ch blk s).staging = { Staging.empty with ch := ch, blk := blk } := rfl
@[simp] theorem beginIdct_rom (ch : Chan) (blk : Blk) (s : State) : (beginIdct ch blk s).rom = s.rom := rfl
@[simp] theorem beginIdct_cursor (ch : Chan) (blk : Blk) (s : State) : (beginIdct ch blk s).cursor = s.cursor := rfl
@[simp] theorem beginIdct_dither (ch : Chan) (blk : Blk) (s : State) : (beginIdct ch blk s).dither = s.dither := rfl
@[simp] theorem beginIdct_ditherCount (ch : Chan) (blk : Blk) (s : State) : (beginIdct ch blk s).ditherCount = s.ditherCount := rfl
@[simp] theorem beginIdct_host (ch : Chan) (blk : Blk) (s : State) : (beginIdct ch blk s).host = s.host := rfl
@[simp] theorem beginIdct_rdata (ch : Chan) (blk : Blk) (s : State) : (beginIdct ch blk s).rdata = s.rdata := rfl
@[simp] theorem beginIdct_draws (ch : Chan) (blk : Blk) (s : State) : (beginIdct ch blk s).draws = s.draws := rfl
@[simp] theorem beginIdct_chan (ch : Chan) (blk : Blk) (s : State) (c0 : Chan) : (beginIdct ch blk s).chan c0 = s.chan c0 := rfl

/-! ## Channels -/

@[simp] theorem chan_setChan_self (s : State) (ch : Chan) (c : Channel) : (s.setChan ch c).chan ch = c := by
  simp [State.chan, State.setChan]

theorem chan_setChan_ne (s : State) {ch c0 : Chan} (c : Channel) (h : c0 ≠ ch) : (s.setChan ch c).chan c0 = s.chan c0 := by
  have : ch.val ≠ c0.val := fun e => h (Fin.ext e.symm)
  simp [State.chan, State.setChan, this]

/-- Two states with the same channels, slot by slot, have the same channel vector. -/
theorem chans_ext {s t : State} (h : ∀ ch, s.chan ch = t.chan ch) : s.chans = t.chans := by
  refine Vector.ext fun i hi => ?_
  exact h ⟨i, hi⟩

@[simp] theorem returnFromError_chan (s : State) (ch : Chan) : (returnFromError s).chan ch = (s.chan ch).newFrame := by
  simp [State.chan, returnFromError]

@[simp] theorem resetBlock_chan (s : State) (ch : Chan) : (resetBlock s).chan ch = Channel.reset := by
  simp [State.chan, resetBlock]

@[simp] theorem reset_chan (ch : Chan) : State.reset.chan ch = Channel.reset := by
  simp [State.chan, State.reset]

theorem setChan_comm (s : State) {a b : Chan} (h : a ≠ b) (x y : Channel) :
    (s.setChan a x).setChan b y = (s.setChan b y).setChan a x := by
  have : a.val ≠ b.val := fun e => h (Fin.ext e)
  simp only [State.setChan]
  rw [Vector.set_comm _ _ this]

@[simp] theorem setChan_setChan (s : State) (a : Chan) (x y : Channel) : (s.setChan a x).setChan a y = s.setChan a y := by
  simp [State.setChan]

/-! ## The error entry (R310) -/

/-- All that the error entry does to the state: STATUS, SEQ, the staging state and the failing channel. -/
theorem raiseError_eq (o : Origin) (code : ErrCode) (bin : BitVec 9) (s : State) :
    raiseError o code bin s = { s with
      status := ⟨true, code.number, o.chField, bin⟩
      seq := Seq.idle
      staging := Staging.empty
      chans := (invalidate o s).chans } := by
  cases o <;> rfl

@[simp] theorem raiseError_seq (o : Origin) (code : ErrCode) (bin : BitVec 9) (s : State) :
    (raiseError o code bin s).seq = Seq.idle := rfl

@[simp] theorem raiseError_staging (o : Origin) (code : ErrCode) (bin : BitVec 9) (s : State) :
    (raiseError o code bin s).staging = Staging.empty := rfl

@[simp] theorem raiseError_status (o : Origin) (code : ErrCode) (bin : BitVec 9) (s : State) :
    (raiseError o code bin s).status = ⟨true, code.number, o.chField, bin⟩ := by
  cases o <;> rfl

@[simp] theorem raiseError_rom (o : Origin) (code : ErrCode) (bin : BitVec 9) (s : State) :
    (raiseError o code bin s).rom = s.rom := by
  cases o <;> rfl

@[simp] theorem raiseError_host (o : Origin) (code : ErrCode) (bin : BitVec 9) (s : State) :
    (raiseError o code bin s).host = s.host := by
  cases o <;> rfl

/-- The error entry of a dispatched word touches no channel. -/
@[simp] theorem raiseError_dispatch_chan (f : BitVec 3) (code : ErrCode) (bin : BitVec 9) (s : State) (c : Chan) :
    (raiseError (.dispatch f) code bin s).chan c = s.chan c := rfl

/-- The error entry of AHT_DECODE(ch) clears PMV[ch] and GAQMODE[ch]. -/
theorem raiseError_aht_chan (ch : Chan) (code : ErrCode) (bin : BitVec 9) (s : State) (c : Chan) :
    (raiseError (.aht ch) code bin s).chan c =
      if c = ch then { s.chan ch with pmv := [], gaqValid := false, gaqMode := 0 } else s.chan c := by
  split
  · rename_i h
    subst h
    exact chan_setChan_self _ _ _
  · rename_i h
    exact chan_setChan_ne _ _ h

/-- The error entry of IDCT(ch, blk) clears CV[ch]. -/
theorem raiseError_idct_chan (ch : Chan) (code : ErrCode) (bin : BitVec 9) (s : State) (c : Chan) :
    (raiseError (.idct ch) code bin s).chan c = if c = ch then { s.chan ch with cv := [] } else s.chan c := by
  split
  · rename_i h
    subst h
    exact chan_setChan_self _ _ _
  · rename_i h
    exact chan_setChan_ne _ _ h

/-! ## The dither source (R92) -/

/-- A dither call changes the dither source only, and counts the draw. -/
theorem drawDither_state (s : State) :
    (drawDither s).2 = { s with dither := s.dither.tail, ditherCount := s.ditherCount + 1 } := by
  obtain ⟨_, _, _, _, _, _, dither, _, _, _, _⟩ := s
  cases dither <;> rfl

/-- The value of a dither call: the next listed value, or the free value of this call. -/
theorem drawDither_value (s : State) : (drawDither s).1 = s.dither.headD (Config.freeDither s.ditherCount) := by
  obtain ⟨_, _, _, _, _, _, dither, _, _, _, _⟩ := s
  cases dither <;> rfl

/-! ## SEQ after a mantissa (R199, R220) -/

/-- What `nextBlock` does: the next block, or after block 5 the next bin. -/
theorem nextBlock_eq (s : State) :
    nextBlock s = if 5 ≤ s.seq.blk then nextBin s else { s with seq := { s.seq with blk := s.seq.blk + 1 } } := rfl

/-- A commit or an error leaves nothing running. -/
theorem endCommand_idle (s : State) : (endCommand s).seq.phase = .idle := rfl

end Sys2Proof.Machine
end

