-- ==== Sys2Proof/Laws/Sequencer.lean ====
section
/-! SUPPORT. All that one action of the sequencer can do, the induction over a command's run, and its end. -/

namespace Sys2Proof.Machine

open Sys2Proof.Safety

/-! ## One action -/

/-- Everything one action of a running command can do, with the guards under which it does it. -/
inductive SeqCase (s : State) : State → Prop
  | gaqmod (u : Nat) (rest : Bits) : s.seq.phase = .mode → readBits 2 s.cursor = some (u, rest) →
      SeqCase s (applyGaqmod (BitVec.ofNat 2 u) { s with cursor := rest })
  | cursorFail (rest : Bits) : s.seq.phase = .mode ∨ s.seq.phase = .gain ∧ s.seq.bin < s.running.last ∨
      s.seq.phase = .mant ∧ s.seq.bin < s.running.last → (∃ used, s.cursor = used ++ rest) →
      SeqCase s (cursorError { s with cursor := rest })
  | toBins : s.seq.phase = .gain → s.staging.mode = 0 ∨ s.running.last ≤ s.seq.bin → SeqCase s (beginBins s)
  | passBin : s.seq.phase = .gain → s.seq.bin < s.running.last → takesGain s.staging.mode s.binHebap = false →
      SeqCase s (nextGainBin s.seq.gc s)
  | gaqgain (u : Nat) (rest : Bits) : s.seq.phase = .gain → s.seq.bin < s.running.last →
      takesGain s.staging.mode s.binHebap = true → s.staging.mode ≠ 3 → readBits 1 s.cursor = some (u, rest) →
      SeqCase s (applyGaqgain (BitVec.ofNat 1 u) { s with cursor := rest })
  | gaqgrp (u : Nat) (rest : Bits) : s.seq.phase = .gain → s.seq.bin < s.running.last →
      takesGain s.staging.mode s.binHebap = true → s.staging.mode = 3 → s.seq.gc = 2 → readBits 5 s.cursor = some (u, rest) →
      SeqCase s (applyGaqgrp (BitVec.ofNat 5 u) { s with cursor := rest })
  | countBin : s.seq.phase = .gain → s.seq.bin < s.running.last → takesGain s.staging.mode s.binHebap = true →
      s.staging.mode = 3 → s.seq.gc ≠ 2 → SeqCase s (nextGainBin (s.seq.gc + 1) s)
  | commitAht : s.seq.phase = .mant → s.running.last ≤ s.seq.bin → SeqCase s (commitAht s)
  | dither : s.seq.phase = .mant → s.seq.bin < s.running.last → s.binHebap = 0 → SeqCase s (applyDitherFill s)
  | vq (v : Nat) (rest : Bits) : s.seq.phase = .mant → s.seq.bin < s.running.last → s.binHebap ≠ 0 →
      s.binHebap.toNat ≤ 7 → readBits (widthOf s.rom s.binHebap) s.cursor = some (v, rest) →
      SeqCase s (applyVqDecode s.binHebap (widthOf s.rom s.binHebap) v { s with cursor := rest })
  | plain (m : Int) (rest : Bits) : s.seq.phase = .mant → s.seq.bin < s.running.last → 7 < s.binHebap.toNat →
      binGain s = 0 → readSBits (widthOf s.rom s.binHebap) s.cursor = some (m, rest) →
      SeqCase s (applyGaqPlain s.binHebap (widthOf s.rom s.binHebap) m { s with cursor := rest })
  | small (m : Int) (rest : Bits) : s.seq.phase = .mant → s.seq.bin < s.running.last → 7 < s.binHebap.toNat →
      0 < binGain s → readSBits (widthOf s.rom s.binHebap - binGain s) s.cursor = some (m, rest) →
      m ≠ escapeValue (widthOf s.rom s.binHebap) (binGain s) →
      SeqCase s (applyGaqSmall s.binHebap (widthOf s.rom s.binHebap) (binGain s) m { s with cursor := rest })
  | large (mid rest : Bits) (l : Int) : s.seq.phase = .mant → s.seq.bin < s.running.last → 7 < s.binHebap.toNat →
      0 < binGain s →
      readSBits (widthOf s.rom s.binHebap - binGain s) s.cursor =
        some (escapeValue (widthOf s.rom s.binHebap) (binGain s), mid) →
      readSBits (widthOf s.rom s.binHebap - 2 + binGain s) mid = some (l, rest) →
      SeqCase s (applyGaqLarge s.binHebap (widthOf s.rom s.binHebap) (binGain s) l { s with cursor := rest })
  | commitIdct : s.seq.phase = .idct → s.running.last ≤ s.seq.bin → SeqCase s (commitIdct s)
  | stageCoef : s.seq.phase = .idct → s.seq.bin < s.running.last → SeqCase s (stageCoef s)

/-- A signed read leaves a tail of the bits it was given. -/
theorem readSBits_tail {n : Nat} {m : Int} {bs rest : Bits} (h : readSBits n bs = some (m, rest)) :
    ∃ used, bs = used ++ rest := by
  obtain ⟨u, hu, -⟩ := readSBits_eq_some.1 h
  obtain ⟨used, hused, -⟩ := readBits_spec hu
  exact ⟨used, hused⟩

/-- The action of the MODE phase. -/
theorem seqStep_mode {s : State} (h : s.seq.phase = .mode) : SeqCase s (seqStep s) := by
  simp only [seqStep, nextAction, h, decodeElement]
  cases hr : readBits 2 s.cursor with
  | none => exact .cursorFail _ (.inl h) ⟨[], rfl⟩
  | some p => exact .gaqmod p.1 p.2 h hr

/-- The actions of the GAIN phase. -/
theorem seqStep_gain {s : State} (h : s.seq.phase = .gain) : SeqCase s (seqStep s) := by
  simp only [seqStep, nextAction, h, gainAction]
  by_cases h1 : s.staging.mode = 0 ∨ s.running.last ≤ s.seq.bin
  · simp only [h1, if_true]
    exact .toBins h h1
  · have hb : s.seq.bin < s.running.last := by
      simp only [not_or, not_le] at h1
      exact h1.2
    simp only [h1, if_false]
    by_cases h2 : takesGain s.staging.mode s.binHebap = false
    · rw [if_pos h2]
      exact .passBin h hb h2
    · have h2' : takesGain s.staging.mode s.binHebap = true := by simpa using h2
      rw [if_neg h2]
      by_cases h3 : s.staging.mode = 3
      · by_cases h4 : s.seq.gc = 2
        · simp only [h3, h4, ne_eq, not_true_eq_false, if_false, if_true, decodeElement]
          cases hr : readBits 5 s.cursor with
          | none => exact .cursorFail _ (.inr (.inl ⟨h, hb⟩)) ⟨[], rfl⟩
          | some p => exact .gaqgrp p.1 p.2 h hb h2' h3 h4 hr
        · simp only [h3, h4, ne_eq, not_true_eq_false, if_false]
          exact .countBin h hb h2' h3 h4
      · simp only [h3, ne_eq, not_false_eq_true, if_true, decodeElement]
        cases hr : readBits 1 s.cursor with
        | none => exact .cursorFail _ (.inr (.inl ⟨h, hb⟩)) ⟨[], rfl⟩
        | some p => exact .gaqgain p.1 p.2 h hb h2' h3 hr

/-- The actions of the MANT phase. -/
theorem seqStep_mant {s : State} (h : s.seq.phase = .mant) : SeqCase s (seqStep s) := by
  simp only [seqStep, nextAction, h, mantAction]
  by_cases h1 : s.running.last ≤ s.seq.bin
  · simp only [h1, if_true]
    exact .commitAht h h1
  · have hb : s.seq.bin < s.running.last := not_le.1 h1
    simp only [h1, if_false]
    by_cases h2 : s.binHebap = 0
    · rw [if_pos h2]
      exact .dither h hb h2
    · rw [if_neg h2]
      by_cases h3 : s.binHebap.toNat ≤ 7
      · rw [if_pos h3]
        simp only [decodeElement]
        cases hr : readBits (widthOf s.rom s.binHebap) s.cursor with
        | none => exact .cursorFail _ (.inr (.inr ⟨h, hb⟩)) ⟨[], rfl⟩
        | some p => exact .vq p.1 p.2 h hb h2 h3 hr
      · rw [if_neg h3]
        have h3' : 7 < s.binHebap.toNat := not_le.1 h3
        simp only [decodeElement]
        cases hr : readSBits (widthOf s.rom s.binHebap - binGain s) s.cursor with
        | none => exact .cursorFail _ (.inr (.inr ⟨h, hb⟩)) ⟨[], rfl⟩
        | some p =>
          obtain ⟨m, rest⟩ := p
          simp only [decodeMantissa]
          by_cases h4 : 0 < binGain s ∧ m = escapeValue (widthOf s.rom s.binHebap) (binGain s)
          · simp only [h4, and_self, if_true]
            cases hl : readSBits (widthOf s.rom s.binHebap - 2 + binGain s) rest with
            | none => exact .cursorFail _ (.inr (.inr ⟨h, hb⟩)) (readSBits_tail hr)
            | some q => exact .large rest q.2 q.1 h hb h3' h4.1 (by rw [hr, h4.2]) hl
          · simp only [h4, if_false]
            by_cases h5 : binGain s = 0
            · simp only [h5, if_true]
              rw [h5] at hr
              exact .plain m rest h hb h3' h5 hr
            · simp only [h5, if_false]
              have h5' : 0 < binGain s := Nat.pos_of_ne_zero h5
              exact .small m rest h hb h3' h5' hr fun e => h4 ⟨h5', e⟩

/-- The actions of the IDCT phase. -/
theorem seqStep_idct {s : State} (h : s.seq.phase = .idct) : SeqCase s (seqStep s) := by
  simp only [seqStep, nextAction, h, idctAction]
  by_cases h1 : s.running.last ≤ s.seq.bin
  · simp only [h1, if_true]
    exact .commitIdct h h1
  · simp only [h1, if_false]
    exact .stageCoef h (not_le.1 h1)

/-- One action of a running command is one of the listed cases. -/
theorem seqStep_case {s : State} (h : s.seq.phase ≠ .idle) : SeqCase s (seqStep s) := by
  cases hp : s.seq.phase with
  | idle => exact absurd hp h
  | mode => exact seqStep_mode hp
  | gain => exact seqStep_gain hp
  | mant => exact seqStep_mant hp
  | idct => exact seqStep_idct hp

/-! ## Stepping and running -/

/-- A decoded element belongs to the slot it was read in. -/
theorem slotOf_decoded {slot : Slot} {bs rest : Bits} {i : Instr} (h : decodeElement slot bs = .element i rest) :
    slotOf i ≠ none := by
  cases slot <;> simp only [decodeElement] at h
  case dither => obtain ⟨rfl, -⟩ := Fetched.element.inj h; simp [slotOf]
  all_goals
    split at h
    · first
        | (rw [slotOf_decodeMantissa h]; simp)
        | (obtain ⟨rfl, -⟩ := Fetched.element.inj h; simp [slotOf])
    · exact Fetched.noConfusion h

/-- A step of the machine in the middle of a command is one action of the sequencer. -/
theorem stepSeq_eq (s : State) : stepSeq s = .next (seqStep s) := by
  unfold stepSeq seqStep
  cases nextAction s with
  | move t => rfl
  | element slot =>
    cases hd : decodeElement slot s.cursor with
    | cursorFail rest => simp only [hd]
    | element i rest =>
      obtain ⟨slot', hs⟩ := Option.ne_none_iff_exists'.1 (slotOf_decoded hd)
      simp only [hd, exec_of_slot hs]

theorem step_of_running {s : State} (h : s.seq.phase ≠ .idle) : step s = .next (seqStep s) := by
  rw [step, if_neg h, stepSeq_eq]

theorem step_of_idle {s : State} (h : s.seq.phase = .idle) : step s = stepHost s := if_pos h

/-- What every action keeps, a run keeps. -/
theorem runToIdle_keeps {P : State → Prop} (hP : ∀ s, P s → s.seq.phase ≠ .idle → P (seqStep s)) (n : Nat) {s : State}
    (h : P s) : P (runToIdle n s) := by
  induction n generalizing s with
  | zero => exact h
  | succ n ih =>
    rw [runToIdle]
    split
    · exact h
    · rename_i hp
      exact ih (hP s h hp)

/-- A change of the state that commutes with every action, and that does not touch the phase, commutes with a run. -/
theorem runToIdle_comm {P : State → Prop} {f : State → State} (hf : ∀ s, (f s).seq.phase = s.seq.phase)
    (hP : ∀ s, P s → s.seq.phase ≠ .idle → P (seqStep s) ∧ seqStep (f s) = f (seqStep s)) (n : Nat) {s : State} (h : P s) :
    runToIdle n (f s) = f (runToIdle n s) := by
  induction n generalizing s with
  | zero => rfl
  | succ n ih =>
    rw [runToIdle, runToIdle, hf]
    split
    · rfl
    · rename_i hp
      obtain ⟨h1, h2⟩ := hP s h hp
      rw [h2, ih h1]

/-- A run whose actions each lower a measure ends with SEQ IDLE. -/
theorem runToIdle_ends {P : State → Prop} {μ : State → Nat}
    (hP : ∀ s, P s → s.seq.phase ≠ .idle → P (seqStep s) ∧ μ (seqStep s) < μ s) (n : Nat) {s : State} (h : P s) (hn : μ s ≤ n) :
    (runToIdle n s).seq.phase = .idle := by
  induction n generalizing s with
  | zero =>
    by_contra hp
    have := (hP s h hp).2
    omega
  | succ n ih =>
    rw [runToIdle]
    split
    · assumption
    · rename_i hp
      obtain ⟨h1, h2⟩ := hP s h hp
      exact ih h1 (by omega)

end Sys2Proof.Machine
end

