-- ==== Sys2Proof/Laws/Frames.lean ====
section
/-! SUPPORT. What the actions of the sequencer leave alone, what the mantissa operations stage, and the end of every command. -/

namespace Sys2Proof.Machine

open Sys2Proof.Safety

/-! ## Staging six values (R222, R224) -/

/-- Staging changes the staging copy only. -/
theorem stagePremant_eq (blk : Nat) (v : Int) (s : State) :
    stagePremant blk v s = { s with staging := { s.staging with spm := (stagePremant blk v s).staging.spm } } := rfl

/-- Six dither draws change the dither source and the staging copy only. -/
theorem foldl_ditherBlock_eq (blks : List Nat) (s : State) :
    blks.foldl ditherBlock s = { s with
      dither := s.dither.drop blks.length
      ditherCount := s.ditherCount + blks.length
      staging := { s.staging with spm := (blks.foldl ditherBlock s).staging.spm } } := by
  induction blks generalizing s with
  | nil => rfl
  | cons blk blks ih =>
    rw [List.foldl_cons, ih]
    simp only [ditherBlock, stagePremant, drawDither_state, List.length_cons, List.drop_tail]
    congr 1
    omega

/-- The values of `blks.length` dither draws are staged one after the other, the i-th draw at the i-th block. -/
theorem foldl_ditherBlock_spm (blks : List Nat) {s : State} (h : s.staging.spm.wf = true) :
    (blks.foldl ditherBlock s).staging.spm.wf = true ∧
    ∀ a, (∀ blk ∈ blks, a ≠ pmIndex s.seq.bin blk) → (blks.foldl ditherBlock s).staging.spm.get a = s.staging.spm.get a := by
  induction blks generalizing s with
  | nil => exact ⟨h, fun _ _ => rfl⟩
  | cons blk blks ih =>
    have hs : (ditherBlock s blk).staging.spm = s.staging.spm.set (pmIndex s.seq.bin blk) (toReg (ditherValue (drawDither s).1)) := by
      simp only [ditherBlock, stagePremant_staging, drawDither_state]
    have hb : (ditherBlock s blk).seq = s.seq := by
      simp only [ditherBlock, stagePremant_seq, drawDither_state]
    obtain ⟨h1, h2⟩ := ih (s := ditherBlock s blk) (by rw [hs]; exact Memory.wf_set h _ _)
    refine ⟨h1, fun a ha => ?_⟩
    rw [List.foldl_cons, h2 a (by rw [hb]; exact fun b hb' => ha b (List.mem_cons_of_mem _ hb')), hs,
      Memory.get_set_ne h (ha blk List.mem_cons_self)]

/-- Staging a list of blocks changes the staging copy only. -/
theorem foldl_stagePremant_eq (f : Nat → Int) (blks : List Nat) (s : State) :
    blks.foldl (fun t blk => stagePremant blk (f blk) t) s = { s with
      staging := { s.staging with spm := blks.foldl (fun m blk => m.set (pmIndex s.seq.bin blk) (toReg (f blk))) s.staging.spm } } := by
  induction blks generalizing s with
  | nil => rfl
  | cons blk blks ih => rw [List.foldl_cons, ih]; rfl

/-! ## An action either goes on or ends the command -/

/-- What an action that does not end its command leaves alone. -/
structure GoesOn (s t : State) : Prop where
  running : t.seq.phase ≠ .idle
  status  : t.status = s.status
  chans   : t.chans = s.chans
  rom     : t.rom = s.rom
  host    : t.host = s.host
  rdata   : t.rdata = s.rdata
  draws   : t.draws = s.draws
  ch      : t.staging.ch = s.staging.ch
  blk     : t.staging.blk = s.staging.blk

/-- How an action ends its command: the commit, or an error of AHT_DECODE raised at the bin SEQ stands at. -/
inductive Ends (s : State) : State → Prop
  | commitAht : s.seq.phase = .mant → s.running.last ≤ s.seq.bin → Ends s (commitAht s)
  | commitIdct : s.seq.phase = .idct → s.running.last ≤ s.seq.bin → Ends s (commitIdct s)
  | error (code : ErrCode) (bin : BitVec 9) (u : State) : code = .cursorFail ∨ code = .gaqGroupRange →
      bin = noBin ∨ bin = binField s.seq.bin ∧ s.seq.bin < s.running.last →
      u.chans = s.chans → u.rom = s.rom → u.host = s.host → u.rdata = s.rdata → u.status = s.status →
      u.dither = s.dither → u.ditherCount = s.ditherCount →
      Ends s (raiseError (.aht s.staging.ch) code bin u)

theorem nextBin_goesOn {s : State} (h : s.seq.phase ≠ .idle) : GoesOn s (nextBin s) :=
  ⟨h, rfl, rfl, rfl, rfl, rfl, rfl, rfl, rfl⟩

theorem nextBlock_goesOn {s : State} (h : s.seq.phase ≠ .idle) : GoesOn s (nextBlock s) := by
  unfold nextBlock
  split
  · exact nextBin_goesOn h
  · exact ⟨h, rfl, rfl, rfl, rfl, rfl, rfl, rfl, rfl⟩

theorem GoesOn.trans {s t u : State} (h : GoesOn s t) (h' : GoesOn t u) : GoesOn s u :=
  ⟨h'.running, h'.status.trans h.status, h'.chans.trans h.chans, h'.rom.trans h.rom, h'.host.trans h.host,
    h'.rdata.trans h.rdata, h'.draws.trans h.draws, h'.ch.trans h.ch, h'.blk.trans h.blk⟩

/-- Every action of a running command goes on or ends it. -/
theorem seqStep_goesOn_or_ends {s : State} (h : s.seq.phase ≠ .idle) : GoesOn s (seqStep s) ∨ Ends s (seqStep s) := by
  have hrun {t : State} (hc : SeqCase s t) : GoesOn s t ∨ Ends s t := by
    cases hc with
    | gaqmod u rest hp hr => exact .inl ⟨by simp, rfl, rfl, rfl, rfl, rfl, rfl, rfl, rfl⟩
    | cursorFail rest hp hr =>
      refine .inr (.error .cursorFail _ _ (.inl rfl) ?_ rfl rfl rfl rfl rfl rfl rfl)
      rcases hp with hp | ⟨hp, hb⟩ | ⟨hp, hb⟩
      · exact .inl (by simp [hp])
      · exact .inr ⟨by simp [hp], hb⟩
      · exact .inr ⟨by simp [hp], hb⟩
    | toBins hp hm => exact .inl ⟨by simp, rfl, rfl, rfl, rfl, rfl, rfl, rfl, rfl⟩
    | passBin hp hb hg => exact .inl ⟨h, rfl, rfl, rfl, rfl, rfl, rfl, rfl, rfl⟩
    | gaqgain u rest hp hb hg hm hr => exact .inl ⟨h, rfl, rfl, rfl, rfl, rfl, rfl, rfl, rfl⟩
    | gaqgrp u rest hp hb hg hm hgc hr =>
      unfold applyGaqgrp
      split
      · exact .inr (.error .gaqGroupRange _ _ (.inr rfl) (.inr ⟨rfl, hb⟩) rfl rfl rfl rfl rfl rfl rfl)
      · exact .inl ⟨h, rfl, rfl, rfl, rfl, rfl, rfl, rfl, rfl⟩
    | countBin hp hb hg hm hgc => exact .inl ⟨h, rfl, rfl, rfl, rfl, rfl, rfl, rfl, rfl⟩
    | commitAht hp hb => exact .inr (.commitAht hp hb)
    | dither hp hb hh =>
      refine .inl (GoesOn.trans (t := (List.range 6).foldl ditherBlock s) ?_ (nextBin_goesOn ?_))
      · rw [foldl_ditherBlock_eq]
        exact ⟨h, rfl, rfl, rfl, rfl, rfl, rfl, rfl, rfl⟩
      · rw [foldl_ditherBlock_eq]
        exact h
    | vq v rest hp hb hh hh7 hr =>
      refine .inl ?_
      unfold applyVqDecode
      rw [foldl_stagePremant_eq]
      exact ⟨h, rfl, rfl, rfl, rfl, rfl, rfl, rfl, rfl⟩
    | plain m rest hp hb hh hg hr =>
      refine .inl (GoesOn.trans (t := stagePremant _ _ { s with cursor := rest }) ?_ (nextBlock_goesOn ?_))
      · exact ⟨h, rfl, rfl, rfl, rfl, rfl, rfl, rfl, rfl⟩
      · exact h
    | small m rest hp hb hh hg hr hm =>
      refine .inl (GoesOn.trans (t := stagePremant _ _ { s with cursor := rest }) ?_ (nextBlock_goesOn ?_))
      · exact ⟨h, rfl, rfl, rfl, rfl, rfl, rfl, rfl, rfl⟩
      · exact h
    | large mid rest l hp hb hh hg hr hl =>
      refine .inl (GoesOn.trans (t := stagePremant _ _ { s with cursor := rest }) ?_ (nextBlock_goesOn ?_))
      · exact ⟨h, rfl, rfl, rfl, rfl, rfl, rfl, rfl, rfl⟩
      · exact h
    | commitIdct hp hb => exact .inr (.commitIdct hp hb)
    | stageCoef hp hb => exact .inl ⟨h, rfl, rfl, rfl, rfl, rfl, rfl, rfl, rfl⟩
  exact hrun (seqStep_case h)

/-- A command that has ended leaves SEQ IDLE and nothing staged. -/
theorem Ends.ready {s t : State} (h : Ends s t) : t.seq = Seq.idle ∧ t.staging = Staging.empty := by
  cases h <;> exact ⟨rfl, rfl⟩

/-- The end of a command touches no other channel. -/
theorem Ends.other_chan {s t : State} (h : Ends s t) {c : Chan} (hc : c ≠ s.staging.ch) : t.chan c = s.chan c := by
  cases h with
  | commitAht => exact chan_setChan_ne _ _ hc
  | commitIdct => exact chan_setChan_ne _ _ hc
  | error code bin u hcode hbin hchans =>
    rw [raiseError_aht_chan, if_neg hc]
    simp only [State.chan, hchans]

/-- The end of a command keeps the tables and the host's queue. -/
theorem Ends.rom_host {s t : State} (h : Ends s t) : t.rom = s.rom ∧ t.host = s.host ∧ t.rdata = s.rdata := by
  cases h with
  | commitAht => exact ⟨rfl, rfl, rfl⟩
  | commitIdct => exact ⟨rfl, rfl, rfl⟩
  | error code bin u hcode hbin hchans hrom hhost hrdata =>
    refine ⟨by rw [raiseError_rom, hrom], by rw [raiseError_host, hhost], ?_⟩
    rw [raiseError_eq]
    exact hrdata

/-! ## The end of every command (R357) -/

/-- How many actions a running command still takes at most. -/
def remaining (s : State) : Nat :=
  match s.seq.phase with
  | .idle => 0
  | .mode => 7 * s.running.count + 3
  | .gain => (s.running.last - s.seq.bin) + 6 * s.running.count + 2
  | .mant => 6 * (s.running.last - s.seq.bin) + 1 - s.seq.blk
  | .idct => (s.running.last - s.seq.bin) + 1

/-- Where a running command stands: SEQ inside the range, and a block only inside a bin. -/
structure Placed (s : State) : Prop where
  bin : s.seq.phase ≠ .mode → s.seq.bin ≤ s.running.last
  first : s.running.first ≤ s.running.last
  blk : s.seq.phase = .mant → s.seq.blk ≤ 5 ∧ (s.seq.bin = s.running.last → s.seq.blk = 0)

theorem running_of_goesOn {s t : State} (h : GoesOn s t) : t.running = s.running := by
  simp only [State.running, State.chan, h.chans, h.ch]

theorem nextBin_seq (s : State) : (nextBin s).seq.bin = s.seq.bin + 1 ∧ (nextBin s).seq.blk = 0 ∧
    (nextBin s).seq.phase = s.seq.phase := ⟨rfl, rfl, rfl⟩

theorem applyDitherFill_seq (s : State) : (applyDitherFill s).seq.bin = s.seq.bin + 1 ∧ (applyDitherFill s).seq.blk = 0 ∧
    (applyDitherFill s).seq.phase = s.seq.phase := by
  unfold applyDitherFill
  rw [foldl_ditherBlock_eq]
  exact ⟨rfl, rfl, rfl⟩

theorem applyVqDecode_seq (h : Hebap) (w v : Nat) (s : State) : (applyVqDecode h w v s).seq.bin = s.seq.bin + 1 ∧
    (applyVqDecode h w v s).seq.blk = 0 ∧ (applyVqDecode h w v s).seq.phase = s.seq.phase := by
  unfold applyVqDecode
  rw [foldl_stagePremant_eq]
  exact ⟨rfl, rfl, rfl⟩

theorem nextBlock_seq (s : State) : (nextBlock s).seq.phase = s.seq.phase ∧
    (s.seq.blk < 5 → (nextBlock s).seq.bin = s.seq.bin ∧ (nextBlock s).seq.blk = s.seq.blk + 1) ∧
    (5 ≤ s.seq.blk → (nextBlock s).seq.bin = s.seq.bin + 1 ∧ (nextBlock s).seq.blk = 0) := by
  unfold nextBlock
  split
  · exact ⟨rfl, fun h => by omega, fun _ => ⟨rfl, rfl⟩⟩
  · exact ⟨rfl, fun _ => ⟨rfl, rfl⟩, fun h => by omega⟩

/-- An action that goes on stays inside the range and leaves fewer actions. -/
theorem seqStep_placed {s : State} (hp : Placed s) (h : s.seq.phase ≠ .idle) (hg : GoesOn s (seqStep s)) :
    Placed (seqStep s) ∧ remaining (seqStep s) < remaining s := by
  have hrun := running_of_goesOn hg
  obtain ⟨hbin, hfirst, hblk⟩ := hp
  have mant {t : State} (hph : s.seq.phase = .mant) (hlt : s.seq.bin < s.running.last) (ht : t.running = s.running)
      (hs : t.seq.phase = .mant ∧ ((t.seq.bin = s.seq.bin ∧ t.seq.blk = s.seq.blk + 1 ∧ s.seq.blk < 5) ∨
        (t.seq.bin = s.seq.bin + 1 ∧ t.seq.blk = 0))) : Placed t ∧ remaining t < remaining s := by
    obtain ⟨h1, h2⟩ := hs
    have hb := (hblk hph).1
    constructor
    · constructor
      · intro _; rw [ht]; omega
      · rw [ht]; exact hfirst
      · intro _; rw [ht]; omega
    · simp only [remaining, h1, hph, ht]
      omega
  have key : ∀ t, t = seqStep s → SeqCase s t → Placed t ∧ remaining t < remaining s := by
    intro t ht hc
    rw [← ht] at hrun hg
    cases hc with
    | gaqmod u rest hph hr =>
      refine ⟨⟨fun _ => ?_, ?_, fun h' => by simp at h'⟩, ?_⟩
      · rw [hrun]; exact hfirst
      · rw [hrun]; exact hfirst
      · simp only [remaining, hrun, hph, applyGaqmod_seq]
        have : State.running { s with cursor := rest } = s.running := rfl
        rw [this]
        simp only [Channel.count]
        omega
    | cursorFail rest hph hr => exact absurd rfl hg.running
    | toBins hph hm =>
      refine ⟨⟨fun _ => ?_, ?_, fun _ => ?_⟩, ?_⟩
      · rw [hrun]; exact hfirst
      · rw [hrun]; exact hfirst
      · exact ⟨by simp, fun _ => rfl⟩
      · simp only [remaining, hrun, hph, beginBins_seq, Channel.count]
        omega
    | passBin hph hb hg' =>
      refine ⟨⟨fun _ => ?_, ?_, fun h' => by simp [hph] at h'⟩, ?_⟩
      · rw [hrun]; exact hb
      · rw [hrun]; exact hfirst
      · simp only [remaining, hrun, hph, nextGainBin_seq]
        omega
    | gaqgain u rest hph hb hg' hm hr =>
      have hs : (applyGaqgain (BitVec.ofNat 1 u) { s with cursor := rest }).seq = { s.seq with bin := s.seq.bin + 1 } := rfl
      refine ⟨⟨fun _ => ?_, ?_, fun h' => by rw [hs] at h'; simp [hph] at h'⟩, ?_⟩
      · rw [hrun, hs]; exact hb
      · rw [hrun]; exact hfirst
      · simp only [remaining, hrun, hs, hph]
        omega
    | gaqgrp u rest hph hb hg' hm hgc hr =>
      unfold applyGaqgrp at hg hrun ⊢
      split
      · rename_i hf
        rw [if_pos hf] at hg
        exact absurd rfl hg.running
      · rename_i hf
        rw [if_neg hf] at hrun
        refine ⟨⟨fun _ => ?_, ?_, fun h' => by simp [hph] at h'⟩, ?_⟩
        · rw [hrun]; exact hb
        · rw [hrun]; exact hfirst
        · simp only [remaining, hrun, hph, nextGainBin_seq, addGains_seq]
          omega
    | countBin hph hb hg' hm hgc =>
      refine ⟨⟨fun _ => ?_, ?_, fun h' => by simp [hph] at h'⟩, ?_⟩
      · rw [hrun]; exact hb
      · rw [hrun]; exact hfirst
      · simp only [remaining, hrun, hph, nextGainBin_seq]
        omega
    | commitAht hph hb => exact absurd rfl hg.running
    | dither hph hb hh =>
      obtain ⟨h1, h2, h3⟩ := applyDitherFill_seq s
      exact mant hph hb hrun ⟨h3.trans hph, .inr ⟨h1, h2⟩⟩
    | vq v rest hph hb hh hh7 hr =>
      obtain ⟨h1, h2, h3⟩ := applyVqDecode_seq s.binHebap (widthOf s.rom s.binHebap) v { s with cursor := rest }
      exact mant hph hb hrun ⟨h3.trans hph, .inr ⟨h1, h2⟩⟩
    | plain m rest hph hb hh hgz hr =>
      refine mant hph hb hrun ?_
      obtain ⟨h1, h2, h3⟩ := nextBlock_seq (stagePremant s.seq.blk (gaqPlainValue s.rom s.binHebap (widthOf s.rom s.binHebap) m)
        { s with cursor := rest })
      refine ⟨h1.trans hph, ?_⟩
      rcases Nat.lt_or_ge s.seq.blk 5 with h5 | h5
      · exact .inl ⟨(h2 h5).1, (h2 h5).2, h5⟩
      · exact .inr (h3 h5)
    | small m rest hph hb hh hgz hr hm =>
      refine mant hph hb hrun ?_
      obtain ⟨h1, h2, h3⟩ := nextBlock_seq (stagePremant s.seq.blk (gaqSmallValue (widthOf s.rom s.binHebap) m)
        { s with cursor := rest })
      refine ⟨h1.trans hph, ?_⟩
      rcases Nat.lt_or_ge s.seq.blk 5 with h5 | h5
      · exact .inl ⟨(h2 h5).1, (h2 h5).2, h5⟩
      · exact .inr (h3 h5)
    | large mid rest l hph hb hh hgz hr hl =>
      refine mant hph hb hrun ?_
      obtain ⟨h1, h2, h3⟩ := nextBlock_seq (stagePremant s.seq.blk
        (gaqLargeValue s.rom s.binHebap (widthOf s.rom s.binHebap) (binGain s) l) { s with cursor := rest })
      refine ⟨h1.trans hph, ?_⟩
      rcases Nat.lt_or_ge s.seq.blk 5 with h5 | h5
      · exact .inl ⟨(h2 h5).1, (h2 h5).2, h5⟩
      · exact .inr (h3 h5)
    | commitIdct hph hb => exact absurd rfl hg.running
    | stageCoef hph hb =>
      refine ⟨⟨fun _ => ?_, ?_, fun h' => by simp [hph] at h'⟩, ?_⟩
      · rw [hrun]; exact hb
      · rw [hrun]; exact hfirst
      · simp only [remaining, hrun, hph, stageCoef_seq]
        omega
  exact key _ rfl (seqStep_case h)

/-- The checks that AHT_DECODE and IDCT share leave a range of at most 256 bins. -/
theorem rangeError_none {c : Channel} : rangeError c = none ↔ c.wRange = true ∧ c.first ≤ c.last ∧ c.last ≤ 256 := by
  unfold rangeError
  cases hw : c.wRange <;> simp

/-- A command that has begun inside a checked range ends with SEQ IDLE, in the fuel it is given (R357, R31). -/
theorem runToIdle_placed_ends {s : State} (hp : s.seq.phase ≠ .idle → Placed s) (h : s.seq.phase ≠ .idle → remaining s ≤ n) :
    (runToIdle n s).seq.phase = .idle := by
  refine runToIdle_ends (P := fun s => s.seq.phase ≠ .idle → Placed s) (μ := remaining) ?_ n hp ?_
  · intro s hp h
    rcases seqStep_goesOn_or_ends h with hg | he
    · obtain ⟨h1, h2⟩ := seqStep_placed (hp h) h hg
      exact ⟨fun _ => h1, h2⟩
    · refine ⟨fun h' => absurd (by rw [he.ready.1]; rfl) h', ?_⟩
      have h0 : remaining (seqStep s) = 0 := by simp [remaining, he.ready.1, Seq.idle]
      rw [h0]
      have hb := (hp h).blk
      have hbin := (hp h).bin
      cases hph : s.seq.phase <;> simp only [remaining, hph] <;> first | (exact absurd hph h) | skip
      · omega
      · omega
      · have := (hb hph).2
        have h' := hbin (by simp [hph])
        have h5 := (hb hph).1
        rcases Nat.lt_or_ge s.seq.bin s.running.last with hlt | hge
        · omega
        · have := this (by omega)
          omega
      · omega
  · by_cases h' : s.seq.phase = .idle
    · simp [remaining, h']
    · exact h h'

end Sys2Proof.Machine
end

