-- ==== Sys2Proof/Laws/Commands.lean ====
section
/-! SUPPORT. Laws of the command words: the input checks, the error state, and what a well-formed command does first. -/

namespace Sys2Proof.Machine

open Sys2Proof.Safety

/-- The bins of a channel's range. -/
theorem mem_bins {c : Channel} {b : Nat} : b ∈ c.bins ↔ c.first ≤ b ∧ b < c.last := by
  simp only [Channel.bins, Channel.count, List.mem_range'_1]
  omega

theorem ahtBinError_none {p : Params} {c : Channel} {b : Nat} :
    ahtBinError p c b = none ↔ c.wBap.get b = 1 ∧ (c.bap.get b).toNat ≤ p.hebapMax.toNat := by
  unfold ahtBinError Channel.hebap
  split
  · rename_i h
    exact ⟨fun h' => by simp at h', fun h' => absurd h'.1 h⟩
  · rename_i h
    split
    · rename_i h2
      exact ⟨fun h' => by simp at h', fun h' => absurd h'.2 (Nat.not_le.2 h2)⟩
    · rename_i h2
      exact ⟨fun _ => ⟨not_not.1 h, Nat.not_lt.1 h2⟩, fun _ => rfl⟩

theorem idctBinError_none {c : Channel} {b : Nat} :
    idctBinError c b = none ↔ c.pmv.get b = 1 ∧ c.wDexp.get b = 1 ∧ (c.dexp.get b).toNat ≤ 24 := by
  unfold idctBinError Channel.exponent Config.dexpMax
  split
  · rename_i h
    exact ⟨fun h' => by simp at h', fun h' => absurd h'.1 h⟩
  · rename_i h
    split
    · rename_i h2
      exact ⟨fun h' => by simp at h', fun h' => absurd h'.2.1 h2⟩
    · rename_i h2
      split
      · rename_i h3
        exact ⟨fun h' => by simp at h', fun h' => absurd h'.2.2 (Nat.not_le.2 h3)⟩
      · rename_i h3
        exact ⟨fun _ => ⟨not_not.1 h, not_not.1 h2, Nat.not_lt.1 h3⟩, fun _ => rfl⟩

/-- check_inputs passes exactly on good inputs (41_gaq_gain.md R191). -/
theorem ahtInputError_none {p : Params} {c : Channel} : ahtInputError p c = none ↔ AhtInputsOk p c := by
  simp only [ahtInputError]
  cases hr : rangeError c with
  | some e =>
    refine ⟨fun h => by simp at h, fun h => ?_⟩
    exact absurd (rangeError_none.2 ⟨h.written, h.range.1, h.range.2⟩) (by simp [hr])
  | none =>
    obtain ⟨hw, h1, h2⟩ := rangeError_none.1 hr
    simp only [List.findSome?_eq_none_iff, mem_bins, ahtBinError_none]
    exact ⟨fun h => ⟨hw, ⟨h1, h2⟩, fun b hb hb' => h b ⟨hb, hb'⟩⟩, fun h b hb => h.bins b hb.1 hb.2⟩

/-- check_idct_inputs passes exactly on good inputs (43_idct.md R261). -/
theorem idctInputError_none {c : Channel} : idctInputError c = none ↔ IdctInputsOk c := by
  simp only [idctInputError]
  cases hr : rangeError c with
  | some e =>
    refine ⟨fun h => by simp at h, fun h => ?_⟩
    exact absurd (rangeError_none.2 ⟨h.written, h.range.1, h.range.2⟩) (by simp [hr])
  | none =>
    obtain ⟨hw, h1, h2⟩ := rangeError_none.1 hr
    simp only [List.findSome?_eq_none_iff, mem_bins, idctBinError_none]
    exact ⟨fun h => ⟨hw, ⟨h1, h2⟩, fun b hb hb' => h b ⟨hb, hb'⟩⟩, fun h b hb => h.bins b hb.1 hb.2⟩

/-- Outside the error state AHT_DECODE with good inputs is the run of its sequencer (R190). -/
theorem exec_ahtDecode_of_ok {s : State} {ch : Chan} (he : s.status.err = false) (h : AhtInputsOk s.rom (s.chan ch)) :
    exec (.ahtDecode ch) s = .next (runToIdle commandFuel (beginAht ch s)) := by
  simp [exec, execAhtDecode, unlessInError, State.inError, he, ahtDecode, ahtInputError_none.2 h]

/-- Outside the error state IDCT with good inputs is the run of its sequencer (R260). -/
theorem exec_idct_of_ok {s : State} {ch : Chan} {blk : Blk} (he : s.status.err = false) (h : IdctInputsOk (s.chan ch)) :
    exec (.idct ch blk) s = .next (runToIdle commandFuel (beginIdct ch blk s)) := by
  simp [exec, execIdct, unlessInError, State.inError, he, idct, idctInputError_none.2 h]

/-- A failed input check of AHT_DECODE is an error entry and nothing else (R191, R310). -/
theorem exec_ahtDecode_of_error {s : State} {ch : Chan} {code : ErrCode} {bin : BitVec 9} (he : s.status.err = false)
    (h : ahtInputError s.rom (s.chan ch) = some (code, bin)) :
    exec (.ahtDecode ch) s = .next (raiseError (.aht ch) code bin s) := by
  simp [exec, execAhtDecode, unlessInError, State.inError, he, ahtDecode, h]

/-- A failed input check of IDCT is an error entry and nothing else (R261, R310). -/
theorem exec_idct_of_error {s : State} {ch : Chan} {blk : Blk} {code : ErrCode} {bin : BitVec 9} (he : s.status.err = false)
    (h : idctInputError (s.chan ch) = some (code, bin)) :
    exec (.idct ch blk) s = .next (raiseError (.idct ch) code bin s) := by
  simp [exec, execIdct, unlessInError, State.inError, he, idct, h]

/-- An access that names a register it may name reaches that register. -/
theorem busTarget_of_regAt {a : HostAddr} {allowed : Reg → Bool} {r : Reg} (h4 : a.toNat % 4 = 0)
    (hr : regAt a.toNat = some r) (ha : allowed r = true) : busTarget 32 a allowed = .ok r := by
  simp [busTarget, h4, hr, ha]

/-- The decoder of command words gives command words only (30_encoding.md R112). -/
theorem decodeCommand_cases (w : Word) :
    decodeCommand w = .nop ∨ decodeCommand w = .frameStart ∨ (∃ ch, decodeCommand w = .ahtDecode ch) ∨
      (∃ ch blk, decodeCommand w = .idct ch blk) ∨ decodeCommand w = .illegal w := by
  unfold decodeCommand
  repeat' split
  all_goals simp

end Sys2Proof.Machine
end

