-- ==== Sys2Proof/Laws/PerInstr.lean ====
section
/-! SUPPORT. Families of statements made for every constructor of Instr. -/

namespace Sys2Proof.Laws.SlotMatchesEncoding

/-- An instruction has no slot in the bitstream exactly when its encoding is an access of the host port (30_encoding.md R121). -/
def Statement (i : Instr) : Prop := slotOf i = none ↔ ∃ r, encode i = .bus r

theorem nop : Statement .nop := by simp [Statement, slotOf, encode]

theorem frameStart : Statement .frameStart := by simp [Statement, slotOf, encode]

theorem ahtDecode (ch : Chan) : Statement (.ahtDecode ch) := by simp [Statement, slotOf, encode]

theorem idct (ch : Chan) (blk : Blk) : Statement (.idct ch blk) := by simp [Statement, slotOf, encode]

theorem illegal (w : Word) : Statement (.illegal w) := by simp [Statement, slotOf, encode]

theorem hostRead (width : Nat) (a : HostAddr) : Statement (.hostRead width a) := by simp [Statement, slotOf, encode]

theorem hostWrite (width : Nat) (a : HostAddr) (v : Word) : Statement (.hostWrite width a v) := by simp [Statement, slotOf, encode]

theorem gaqmod (mode : BitVec 2) : Statement (.gaqmod mode) := by simp [Statement, slotOf, encode]

theorem gaqgain (gain : BitVec 1) : Statement (.gaqgain gain) := by simp [Statement, slotOf, encode]

theorem gaqgrp (code : BitVec 5) : Statement (.gaqgrp code) := by simp [Statement, slotOf, encode]

theorem ditherFill : Statement .ditherFill := by simp [Statement, slotOf, encode]

theorem vqDecode (h : Hebap) (w v : Nat) : Statement (.vqDecode h w v) := by simp [Statement, slotOf, encode]

theorem gaqPlain (h : Hebap) (w : Nat) (m : Int) : Statement (.gaqPlain h w m) := by simp [Statement, slotOf, encode]

theorem gaqSmall (h : Hebap) (w g : Nat) (m : Int) : Statement (.gaqSmall h w g m) := by simp [Statement, slotOf, encode]

theorem gaqLarge (h : Hebap) (w g : Nat) (l : Int) : Statement (.gaqLarge h w g l) := by simp [Statement, slotOf, encode]

end Sys2Proof.Laws.SlotMatchesEncoding
end

