-- ==== Sys2Proof/Tests/Slice0.lean ====
section
/-! SUPPORT. Tests against the vectors of spec/95_test_vectors.md (the section is named at each), the smoke test of WellFormed,
and for every obligation with hypotheses a state and operands that meet them. -/

namespace Sys2Proof.Tests

open Sys2Proof.Machine Sys2Proof.Safety

-- One thread: a thread for each theorem would need more memory than the checks allow.
set_option Elab.async false

/-! ## Helpers -/

/-- What `f` sees of the next state, none at a fault or a refusal. -/
def onNext {α : Type} (f : State → α) (o : Host.Outcome State Fault Refusal) : Option α :=
  match o with
  | .next s => some (f s)
  | .fault _ => none
  | .refused _ => none

/-- The fault of a step, if it is one. -/
def faultOf (o : Host.Outcome State Fault Refusal) : Option Fault :=
  match o with
  | .next _ => none
  | .fault f => some f
  | .refused _ => none

/-- A step that answers a state of which `p` holds. -/
theorem next_with {o : Host.Outcome State Fault Refusal} (p : State → Bool) (h : onNext p o = some true) :
    ∃ t, o = .next t ∧ p t = true := by
  cases o with
  | next s => exact ⟨s, rfl, Option.some.inj h⟩
  | fault f => exact nomatch h
  | refused r => exact nomatch h

/-- The values `vs` in the cells from `a` on. -/
def cellsFrom {w : Nat} (a : Nat) (vs : List (BitVec w)) : Memory w :=
  (vs.foldl (fun (p : Memory w × Nat) v => (Memory.set p.1 p.2 v, p.2 + 1)) ([], a)).1

/-- A channel with RANGE = [a, e) written, and BAP and DEXP written from bin a on. -/
def inputs (a e : BitVec 9) (haps exps : List (BitVec 5)) : Channel :=
  { Channel.reset with
    start := a
    stop := e
    wRange := true
    bap := cellsFrom a.toNat haps
    wBap := onesRange a.toNat haps.length
    dexp := cellsFrom a.toNat exps
    wDexp := onesRange a.toNat exps.length }

/-- The state after reset with one channel, the bits at the cursor and the dither values given. -/
def machine (ch : Chan) (c : Channel) (bits : Bits) (draws : List (BitVec 23)) : State :=
  { State.reset with
    cursor := bits
    dither := draws
    chans := State.reset.chans.set ch.val c ch.isLt }

/-- The pre-mantissas of `n` bins of a channel from bin `a` on. -/
def premants (ch : Chan) (a n : Nat) (t : State) : List Int :=
  (List.range' (6 * a) (6 * n)).map (fun k => ((t.chan ch).pm.get k).toInt)

/-- The coefficients of `n` bins of a channel from bin `a` on. -/
def coefs (ch : Chan) (a n : Nat) (t : State) : List Int :=
  (List.range' a n).map (fun b => ((t.chan ch).coef.get b).toInt)

/-- A state inside an AHT_DECODE of channel 5, whose bin 0 has hebap `h`, in gain mode `mode`. -/
def inside (h : Hebap) (mode : BitVec 2) (draws : List (BitVec 23)) : State :=
  { machine 5 (inputs 0 2 [h, h] []) [] draws with
    seq := ⟨.mant, 0, 0, 0, 0⟩
    staging := { Staging.empty with ch := 5, mode := mode } }

/-- The test VQ row of 95_test_vectors.md. -/
def testVq : VqRow :=
  ⟨1, 2, #v[100, BitVec.ofInt 16 (-200), 300, BitVec.ofInt 16 (-400), 500, BitVec.ofInt 16 (-600)]⟩

/-- The error state after `cmd 0x303`. -/
def errorState : State := { State.reset with status := ⟨true, 1, 0, 0x1FF⟩ }

/-- Channel 6 with the two last bins, hebaps 0 and 19, decoded pre-mantissas and the largest exponent. -/
def lastBins : Channel :=
  { inputs 254 256 [0, 19] [0, 24] with
    pm := cellsFrom 1524 [1, 2, 3, 4, 5, 6, 7, 8, 9, 10, 11, 12]
    pmv := onesRange 254 2
    gaqValid := true }

/-- A state in which AHT_DECODE 6 and IDCT 6, blk both pass their checks and succeed. -/
def goodState : State := machine 6 lastBins (bitsOf 98 0x123456789ABC) []

/-! ## WellFormed refuses ill-formed terms -/

theorem test_wf_refuses_illegal_of_command_word :
    (Instr.illegal 0x00000062#32).wf = false ∧ (Instr.illegal 0x000002E3#32).wf = false := by decide

theorem test_wf_refuses_bad_reads :
    (Instr.hostRead 16 0x4).wf = false ∧ (Instr.hostRead 32 0x6).wf = false ∧ (Instr.hostRead 32 0x2C).wf = false ∧
    (Instr.hostRead 32 0x0).wf = false := by decide

theorem test_wf_refuses_bad_writes :
    (Instr.hostWrite 8 0x10 0).wf = false ∧ (Instr.hostWrite 32 0x11 0).wf = false ∧
    (Instr.hostWrite 32 0x2C00 0).wf = false ∧ (Instr.hostWrite 32 0x4 0).wf = false ∧
    (Instr.hostWrite 32 0x0 0).wf = false := by decide

theorem test_wf_refuses_bad_vq :
    (Instr.vqDecode 0 2 0).wf = false ∧ (Instr.vqDecode 8 2 0).wf = false ∧ (Instr.vqDecode 1 0 0).wf = false ∧
    (Instr.vqDecode 1 17 0).wf = false ∧ (Instr.vqDecode 1 2 4).wf = false := by decide

theorem test_wf_refuses_bad_plain :
    (Instr.gaqPlain 7 3 0).wf = false ∧ (Instr.gaqPlain 8 2 0).wf = false ∧ (Instr.gaqPlain 8 17 0).wf = false ∧
    (Instr.gaqPlain 8 3 4).wf = false ∧ (Instr.gaqPlain 8 3 (-5)).wf = false := by decide

theorem test_wf_refuses_bad_small :
    (Instr.gaqSmall 17 3 1 0).wf = false ∧ (Instr.gaqSmall 8 2 1 0).wf = false ∧ (Instr.gaqSmall 8 3 0 0).wf = false ∧
    (Instr.gaqSmall 8 3 3 0).wf = false ∧ (Instr.gaqSmall 8 3 1 (-2)).wf = false ∧ (Instr.gaqSmall 8 3 1 2).wf = false := by
  decide

theorem test_wf_refuses_bad_large :
    (Instr.gaqLarge 7 3 1 0).wf = false ∧ (Instr.gaqLarge 8 17 1 0).wf = false ∧ (Instr.gaqLarge 8 3 0 0).wf = false ∧
    (Instr.gaqLarge 8 3 1 2).wf = false ∧ (Instr.gaqLarge 8 3 2 (-5)).wf = false := by decide

/-! ## Decoding, from words and bits written out (95_test_vectors.md 2.1, 2.6 to 2.8; 30_encoding.md R113 to R124) -/

theorem test_decode_control_words :
    decodeCommand 0x00000000#32 = .nop ∧ decodeCommand 0x00000001#32 = .frameStart ∧
    decodeTableWord 32 0 = some .nop ∧ decodeTableWord 32 1 = some .frameStart := by decide

theorem test_decode_aht_words :
    decodeCommand 0x00000002#32 = .ahtDecode 0 ∧ decodeCommand 0x00000012#32 = .ahtDecode 1 ∧
    decodeCommand 0x00000062#32 = .ahtDecode 6 := by decide

theorem test_decode_idct_words :
    decodeCommand 0x00000003#32 = .idct 0 0 ∧ decodeCommand 0x00000013#32 = .idct 1 0 ∧
    decodeCommand 0x00000103#32 = .idct 0 2 ∧ decodeCommand 0x00000193#32 = .idct 1 3 ∧
    decodeCommand 0x000002A3#32 = .idct 2 5 ∧ decodeCommand 0x000002E3#32 = .idct 6 5 := by decide

theorem test_decode_illegal_words :
    [0x00000010#32, 0x00000011#32, 0x00000072#32, 0x00000082#32, 0x00000303#32, 0x00000383#32, 0x00000073#32,
      0x00000004#32, 0x0000000F#32, 0x00000400#32, 0x80000002#32].all (fun w => decodeCommand w == .illegal w) = true := by
  decide +kernel

theorem test_decode_bus_accesses :
    decodeBus (.read 32 0x00004) = .hostRead 32 0x00004 ∧
    decodeBus (.write 32 0x00014 0x00040000) = .hostWrite 32 0x00014 0x00040000 ∧
    decodeBus (.write 32 0x00000 0x000002A3) = .idct 2 5 := by decide

theorem test_decode_gain_elements :
    decodeElement .gaqmod [true, false, true] = .element (.gaqmod 2) [true] ∧
    decodeElement .gaqgain [true, false] = .element (.gaqgain 1) [false] ∧
    decodeElement .gaqgrp [true, false, false, true, true] = .element (.gaqgrp 19) [] ∧
    decodeElement .dither [true] = .element .ditherFill [true] := by decide

theorem test_decode_vq_codeword :
    decodeElement (.vqcw 1 2) [true, false, true] = .element (.vqDecode 1 2 2) [true] := by decide

theorem test_decode_plain_mantissas :
    decodeElement (.gmant 8 3 0) [true, false, false] = .element (.gaqPlain 8 3 (-4)) [] ∧
    decodeElement (.gmant 12 7 0) [true, false, false, false, false, false, true] = .element (.gaqPlain 12 7 (-63)) [] := by
  decide

theorem test_decode_small_mantissas :
    decodeElement (.gmant 8 3 1) [true, true] = .element (.gaqSmall 8 3 1 (-1)) [] ∧
    decodeElement (.gmant 8 3 2) [false] = .element (.gaqSmall 8 3 2 0) [] := by decide

theorem test_decode_large_mantissas :
    decodeElement (.gmant 8 3 1) [true, false, true, false] = .element (.gaqLarge 8 3 1 (-2)) [] ∧
    decodeElement (.gmant 8 3 2) [true, false, true, true] = .element (.gaqLarge 8 3 2 3) [] := by decide

/-- Too few bits are a failed read; at a GLARGE the escape stays consumed (20_memory.md R90). -/
theorem test_decode_failed_reads :
    decodeElement .gaqmod [true] = .cursorFail [true] ∧
    decodeElement (.gmant 8 3 1) [true, false, true] = .cursorFail [true] := by decide

/-! ## Single steps -/

/-- 2.1, 40_commands.md R154. -/
theorem test_nop_in_error : onNext (fun t => t.status.word) (exec .nop errorState) = some 0x0001FF03#32 := by decide

/-- P3. -/
theorem test_frame_start_clears_error_and_keeps_inputs :
    onNext (fun t => t.status.word == 0 && (t.chan 6).gaqWord == 0 && (t.chan 6).pmv == [] &&
      (t.chan 6).pm == lastBins.pm && (t.chan 6).wBap == lastBins.wBap && (t.chan 6).wRange)
      (exec .frameStart { goodState with status := ⟨true, 1, 0, 0x1FF⟩ }) = some true := by
  decide +kernel

/-- P1. -/
def stateP1 : State :=
  { machine 1 (inputs 0 4 [0, 1, 8, 12] [0, 2, 1, 3])
      (bitsOf 64 0b0010011100000001111010011111110000000000000000000111111110001010)
      [0x400000, 0x400001, 0x3FFFFF, 0, 0x7FFFFF, 0x400000] with
    rom := { referenceParams with vq := [testVq] } }

/-- P1: dither, VQ and plain GAQ in one AHT_DECODE. -/
theorem test_aht_decode_program_1 :
    onNext (fun t => (premants 1 0 4 t, (t.chan 1).gaqWord, t.status.word, t.cursor.length, t.ditherCount))
      (exec (.ahtDecode 1) stateP1) =
      some ([0, 1, -1, -4194304, 4194303, 0, 25600, -51200, 76800, -102400, 128000, -153600,
        7190208, -9586944, 0, 2396736, -2396736, 4793472, 8322552, -8454656, 0, 132104, -132104, 1321040],
        0x80000000#32, 0#32, 0, 6) := by
  decide +kernel

/-- P3: MIXED gains, small and large mantissas. -/
theorem test_aht_decode_program_3 :
    onNext (fun t => (premants 0 0 4 t, (t.chan 0).gaqWord, t.cursor.length))
      (exec (.ahtDecode 0) (machine 0 (inputs 0 4 [9, 9, 9, 9] [])
        (bitsOf 100
          0b1100101100100111100000011111000000110111000111011001000000010110011111101000001000001011110101010101) [])) =
      some ([7829472, -8947968, 1118496, -1118496, 0, 3355488, 3145728, 7789504, -3145728, -7789568, 0, 1048576,
        1048576, 7969088, -1048576, -7969024, 0, 2097152, -2097088, 1048576, 1048576, 1048576, 1048576, 1048576],
        0x80000003#32, 0) := by
  decide +kernel

/-- A channel with the pre-mantissas `pm` of bin 0 valid and the exponent `d`. -/
def oneBin (pm : List Int) (d : BitVec 5) : Channel :=
  { inputs 0 1 [] [d] with pm := cellsFrom 0 (pm.map (BitVec.ofInt 32)), pmv := onesRange 0 1 }

/-- 2.9: the floored products of six equal pre-mantissas, block 1, exponent 4. -/
theorem test_idct_equal_premantissas :
    onNext (fun t => (coefs 3 0 1 t, (t.chan 3).cv))
      (exec (.idct 3 1) (machine 3 (oneBin [1048576, 1048576, 1048576, 1048576, 1048576, 1048576] 4) [] [])) =
      some ([-92682], [(0, 1)]) := by
  decide +kernel

/-- 2.9: a negative product and a negative shift both round down. -/
theorem test_idct_rounds_down :
    onNext (coefs 3 0 1) (exec (.idct 3 0) (machine 3 (oneBin [0, -1, 0, 0, 0, 0] 0) [] [])) = some [-2] ∧
    onNext (coefs 3 0 1) (exec (.idct 3 5) (machine 3 (oneBin [-5, 0, 0, 0, 0, 0] 1) [] [])) = some [-3] := by
  decide +kernel

/-- 2.10. -/
theorem test_illegal_records_raw_channel_field :
    onNext (fun t => t.status.word) (exec (.illegal 0x00000072) State.reset) = some 0x0001FFE3#32 := by decide

/-- 2.10: in the error state it is dropped. -/
theorem test_illegal_in_error :
    onNext (fun t => t.status.word) (exec (.illegal 0x00000072) errorState) = some 0x0001FF03#32 := by decide

/-- 2.2: START and END at their largest, reserved bits 0. -/
theorem test_host_read_range :
    onNext (fun t => t.rdata) (exec (.hostRead 32 0x00014) (machine 1 (inputs 511 511 [] []) [] [])) =
      some 0x01FF01FF#32 := by
  decide +kernel

/-- 2.2: a WO register, a misaligned and an unmapped address, a narrow access. -/
theorem test_host_read_bus_errors :
    faultOf (exec (.hostRead 32 0x00000) State.reset) = some .busDirection ∧
    faultOf (exec (.hostRead 32 0x00006) State.reset) = some .busMisaligned ∧
    faultOf (exec (.hostRead 32 0x02C00) State.reset) = some .busUnmapped ∧
    faultOf (exec (.hostRead 8 0x00004) State.reset) = some .busWidth := by decide

/-- 2.2: BAP[1][2] takes its five bits. -/
theorem test_host_write_bap :
    onNext (fun t => ((t.chan 1).bap, (t.chan 1).wBap)) (exec (.hostWrite 32 0x01408 0x000000E8) State.reset) =
      some ([(2, 8)], [(2, 1)]) := by
  decide

/-- 2.2: a RO register. -/
theorem test_host_write_status : faultOf (exec (.hostWrite 32 0x00004 0) State.reset) = some .busDirection := by decide

/-- 2.2: the addresses of the last cells. -/
theorem test_register_addresses :
    (Reg.bap 6 255).addr = 0x02BFC ∧ (Reg.pm 6 255 5).addr = 0x127FC ∧ (Reg.pm 1 2 3).addr = 0x0983C ∧
    regAt 0x0983C = some (.pm 1 2 3) := by decide

/-- 41_gaq_gain.md R192, R196: gc starts at 2. -/
theorem test_gaqmod :
    onNext (fun t => (t.staging.mode, t.seq)) (exec (.gaqmod 3) (inside 9 0 [])) = some (3, ⟨.gain, 0, 0, 0, 2⟩) := by
  decide +kernel

/-- 2.3: QUARTER-STEP scales the bit by 2. -/
theorem test_gaqgain : onNext (fun t => t.staging.gains) (exec (.gaqgain 1) (inside 9 2 [])) = some [2] := by decide +kernel

/-- 2.3: code 5. -/
theorem test_gaqgrp : onNext (fun t => t.staging.gains) (exec (.gaqgrp 5) (inside 9 3 [])) = some [0, 1, 2] := by
  decide +kernel

/-- P4: code 27 raises GAQ_GROUP_RANGE at bin 0 of channel 5. -/
theorem test_gaqgrp_out_of_range :
    onNext (fun t => t.status.word) (exec (.gaqgrp 27) (inside 9 3 [])) = some 0x000000A9#32 := by decide +kernel

/-- 2.4. -/
theorem test_dither_fill :
    onNext (fun t => ((List.range 6).map (fun i => (t.staging.spm.get i).toInt), t.seq.bin))
      (exec .ditherFill (inside 0 0 [0x400000, 0x400001, 0x3FFFFF, 0, 0x7FFFFF, 0x400000])) =
      some ([0, 1, -1, -4194304, 4194303, 0], 1) := by
  decide +kernel

/-- 2.5. -/
theorem test_vq_decode :
    onNext (fun t => (List.range 6).map (fun i => (t.staging.spm.get i).toInt))
      (exec (.vqDecode 1 2 2) { inside 1 0 [] with rom := { referenceParams with vq := [testVq] } }) =
      some [25600, -51200, 76800, -102400, 128000, -153600] := by
  decide +kernel

/-- What an element stages for block 0 of bin 0. -/
def staged (i : Instr) (h : Hebap) : Option Int := onNext (fun t => (t.staging.spm.get 0).toInt) (exec i (inside h 2 []))

/-- 2.6: the floor of the correction, and the most negative mantissa. -/
theorem test_gaq_plain :
    staged (.gaqPlain 18 14 (-1)) 18 = some (-1025) ∧ staged (.gaqPlain 18 14 1) 18 = some 1024 ∧
    staged (.gaqPlain 8 3 (-4)) 8 = some (-9586944) := by
  decide +kernel

/-- 2.7. -/
theorem test_gaq_small :
    staged (.gaqSmall 16 11 2 (-255)) 16 = some (-2088960) ∧ staged (.gaqSmall 8 3 1 1) 8 = some 2097152 := by
  decide +kernel

/-- 2.8: both branches and the sign of zero. -/
theorem test_gaq_large :
    staged (.gaqLarge 16 11 2 (-1)) 16 = some (-2097155) ∧ staged (.gaqLarge 8 3 1 0) 8 = some 4194304 ∧
    staged (.gaqLarge 9 4 2 7) 9 = some 7969088 := by
  decide +kernel

/-! ## Errors of the commands (2.10) -/

theorem test_aht_error_range_unwritten :
    onNext (fun t => t.status.word) (exec (.ahtDecode 0) State.reset) = some 0x0001FF0F#32 := by decide +kernel

theorem test_aht_error_bad_hebap :
    onNext (fun t => (t.status.word, t.cursor)) (exec (.ahtDecode 1) (machine 1 (inputs 0 4 [9, 9, 9, 20] []) [true] [])) =
      some (0x00000327#32, [true]) := by
  decide +kernel

theorem test_idct_error_bad_range :
    onNext (fun t => t.status.word) (exec (.idct 1 0) (machine 1 (inputs 0 257 [] []) [] [])) = some 0x0001FF25#32 := by
  decide +kernel

theorem test_idct_error_bad_dexp :
    onNext (fun t => t.status.word) (exec (.idct 3 0)
      (machine 3 { inputs 255 256 [] [25] with pmv := onesRange 255 1 } [] [])) = some 0x0000FF71#32 := by
  decide +kernel

/-- P5 with one bit: CURSOR_FAIL at GAQMOD. -/
theorem test_cursor_fail_at_gaqmod :
    onNext (fun t => t.status.word) (exec (.ahtDecode 6) (machine 6 (inputs 0 0 [] []) [true] [])) =
      some 0x0001FFCB#32 := by
  decide +kernel

/-! ## Witnesses: the hypotheses of the obligations can be met -/

theorem goodState_ready : Ready goodState := ⟨rfl, rfl⟩

theorem goodState_aht : AhtInputsOk goodState.rom (goodState.chan 6) := ahtInputError_none.1 (by decide +kernel)

theorem goodState_idct : IdctInputsOk (goodState.chan 6) := idctInputError_none.1 (by decide +kernel)

theorem goodState_stores : ∀ ch, channelStoresOk (goodState.chan ch) = true := by decide +kernel

theorem goodState_decodes : ∃ t, exec (.ahtDecode 6) goodState = .next t ∧ (!t.status.err) = true :=
  next_with _ (by decide +kernel)

theorem goodState_reconstructs (blk : Blk) : ∃ t, exec (.idct 6 blk) goodState = .next t ∧ (!t.status.err) = true :=
  next_with _ (by revert blk; decide +kernel)

theorem witness_EncodeThenDecodeGivesInstructionBack :
    ((Instr.hostRead 32 0x127FC).wf = true ∧ encode (.hostRead 32 0x127FC) = .bus (.read 32 0x127FC)) ∧
    ((Instr.gaqLarge 8 3 1 (-2)).wf = true ∧
      encode (.gaqLarge 8 3 1 (-2)) = .bits [true, false, true, false]) := by decide

theorem witness_ElementConsumesExactlyItsEncoding :
    decodeElement (.gmant 8 3 2) [true, true, false, false, true] = .element (.gaqLarge 8 3 2 (-4)) [true] := by decide

theorem witness_StepRunsHostAccess :
    let s := State.reset.withFetchWord 32 2
    s.seq.phase = .idle ∧ s.host = [.access (.write 32 0 2)] := ⟨rfl, rfl⟩

theorem witness_StepRunsFetchedElement :
    let s := { beginAht 6 goodState with cursor := [true, false] }
    s.seq.phase ≠ .idle ∧ nextAction s = .element .gaqmod ∧
      decodeElement .gaqmod s.cursor = .element (.gaqmod 2) [] := by decide +kernel

theorem witness_NopChangesNothing : (0x00000400#32 : Word).extractLsb' 0 4 = 0 := by decide

theorem witness_CmdWriteIsTheCommand :
    (errorState.status.err = true ∧ decodeCommand 0x00000062 ≠ .frameStart) ∧
    (State.reset.status.err = false ∧ decodeCommand 0x00000303 = .illegal 0x00000303) := by decide

theorem witness_CommandIsItsSingleSteps :
    goodState.status.err = false ∧ AhtInputsOk goodState.rom (goodState.chan 6) ∧ IdctInputsOk (goodState.chan 6) :=
  ⟨rfl, goodState_aht, goodState_idct⟩

theorem witness_ResetClearsStateAndKeepsAgents :
    let s := { goodState with host := [.reset] }
    s.seq.phase = .idle ∧ s.host = .reset :: [] := ⟨rfl, rfl⟩

theorem witness_ErrorStateDropsCommands : errorState.status.err = true := rfl

theorem witness_IllegalWordRecordsIllegalCmd :
    goodState.status.err = false ∧ Ready goodState ∧ commandWord 0x00000373 = false :=
  ⟨rfl, goodState_ready, by decide⟩

/-- One step that keeps STATUS, and one that clears it. -/
theorem witness_OnlyFrameStartOrResetClearsStatus :
    (∃ t, step (errorState.withFetchWord 32 0x62) = .next t ∧ (t.status == errorState.status) = true) ∧
    (∃ t, step (errorState.withFetchWord 32 1) = .next t ∧ (t.status == Status.clear) = true) ∧
    (errorState.withFetchWord 32 1).seq.phase = .idle ∧ (errorState.withFetchWord 32 1).status.err = true :=
  ⟨next_with _ (by decide +kernel), next_with _ (by decide +kernel), rfl, rfl⟩

theorem witness_RegisterMapIsExact : 0x02BFC % 4 = 0 ∧ regAt 0x02BFC = some (.bap 6 255) := by decide

/-- The first and the last readable and writable address, and the ones just past them. -/
theorem witness_HostAccessFaultsExactly :
    readableAddr 0x00004 = true ∧ readableAddr 0x127FC = true ∧ readableAddr 0x12800 = false ∧ readableAddr 0x0 = false ∧
    writableAddr 0x00000 = true ∧ writableAddr 0x04BFC = true ∧ writableAddr 0x04C00 = false := by decide

theorem witness_HostReadReturnsRegister :
    let c := (goodState.setChan 6 { lastBins with cv := onesRange 254 2 }).chan 6
    c.wRange = true ∧ c.wBap.get 255 = 1 ∧ c.wDexp.get 255 = 1 ∧ c.cv.get 255 = 1 ∧ c.pmv.get 255 = 1 := by decide +kernel

theorem witness_HostReadOfInvalidCellIsADraw :
    let c := State.reset.chan 6
    c.wRange = false ∧ c.wBap.get 255 = 0 ∧ c.wDexp.get 255 = 0 ∧ c.cv.get 255 = 0 ∧ c.pmv.get 255 = 0 := by decide +kernel

theorem witness_HostWriteStoresItsFields : channelStoresOk (goodState.chan 6) = true := goodState_stores 6

theorem witness_RepeatedAndReadBackWrites :
    (∀ ch, channelStoresOk (goodState.chan ch) = true) ∧
    (∃ t, exec (.hostWrite 32 (BitVec.ofNat 17 (Reg.range 6).addr) 0xFFFFFFFF) goodState = .next t ∧ true = true) ∧
    (∃ t, exec (.hostWrite 32 (BitVec.ofNat 17 (Reg.bap 6 255).addr) 0xFFFFFFFF) goodState = .next t ∧ true = true) ∧
    (∃ t, exec (.hostWrite 32 (BitVec.ofNat 17 (Reg.dexp 6 255).addr) 0xFFFFFFFF) goodState = .next t ∧ true = true) :=
  ⟨goodState_stores, next_with (fun _ => true) (by decide +kernel), next_with (fun _ => true) (by decide +kernel),
    next_with (fun _ => true) (by decide +kernel)⟩

theorem witness_GaqgainAppendsScaledBit : (inside 9 1 []).staging.mode = 1 ∧ (inside 9 2 []).staging.mode = 2 := ⟨rfl, rfl⟩

theorem witness_GaqgrpAppendsThreeGains : (26 : BitVec 5).toNat ≤ 26 := by decide

theorem witness_GaqgrpOutOfRangeFollowsPolicy :
    26 < (27 : BitVec 5).toNat ∧ 26 < (31 : BitVec 5).toNat ∧ State.reset.rom.policy = .fault ∧
    ({ State.reset with rom := { referenceParams with policy := .clamp } } : State).rom.policy = .clamp := by decide

theorem witness_GainsAreAtMostTwo :
    (∃ t, exec (.gaqgain 1) (inside 9 2 []) = .next t ∧ true = true) ∧ (inside 9 2 []).staging.mode = 2 ∧
    (∃ t, exec (.gaqgrp 26) (inside 9 3 []) = .next t ∧ true = true) ∧ ∀ g ∈ (inside 9 3 []).staging.gains, g ≤ 2 :=
  ⟨next_with (fun _ => true) (by decide +kernel), rfl, next_with (fun _ => true) (by decide +kernel), by decide +kernel⟩

theorem witness_DitherFillStagesSixDraws :
    let s := inside 0 0 [0, 0, 0x7FFFFF, 0x7FFFFF, 0, 0x400000, 5]
    s.staging.spm.wf = true ∧ s.binHebap = 0 ∧
      s.dither = (#v[0, 0, 0x7FFFFF, 0x7FFFFF, 0, 0x400000] : Vector (BitVec 23) 6).toList ++ [5] := by decide +kernel

theorem witness_DitherValuesStayInRange : (inside 0 0 []).staging.spm.wf = true := rfl

theorem witness_VqDecodeStagesTableRow :
    (let s := inside 7 0 [];
      s.staging.spm.wf = true ∧ s.binHebap = 7 ∧ (7 : Hebap).toNat ≤ 7) ∧
    readBits 2 [true, true, false] = some (3, [false]) ∧ readBits 2 [true] = none := by decide +kernel

theorem witness_GaqPlainStagesRemappedValue :
    (inside 19 0 []).staging.spm.wf = true ∧ readSBits 3 [true, false, false, true] = some (-4, [true]) ∧
    readSBits 3 [true, false] = none := by decide +kernel

theorem witness_GaqSmallStagesShiftedValue :
    (inside 8 1 []).staging.spm.wf = true ∧ 0 < 2 ∧ readSBits (4 - 2) [true, true] = some (-1, []) ∧
    (-1 : Int) ≠ -(2 : Int) ^ (4 - 2 - 1) ∧ readSBits (4 - 2) [true] = none := by decide +kernel

theorem witness_GaqLargeStagesAsymmetricRemap :
    (inside 16 2 []).staging.spm.wf = true ∧ (0 : Int) ≤ 0 ∧ (-1 : Int) < 0 ∧ 0 < 2 ∧
    readSBits (3 - 2) [true, true, false, false] = some (-(2 : Int) ^ (3 - 2 - 1), [true, false, false]) ∧
    readSBits (3 - 2 + 2) [true, false, false] = some (-4, []) ∧ readSBits (3 - 2 + 2) [true, false] = none := by
  decide +kernel

theorem witness_MantissaElementsAdvanceBlocks :
    (∃ t, exec (.gaqSmall 8 3 1 1) { inside 8 1 [] with seq := ⟨.mant, 0, 4, 0, 0⟩ } = .next t ∧ true = true) ∧
    (∃ t, exec (.gaqSmall 8 3 1 1) { inside 8 1 [] with seq := ⟨.mant, 0, 5, 0, 0⟩ } = .next t ∧ (t.seq.k == 1) = true) :=
  ⟨next_with (fun _ => true) (by decide +kernel), next_with _ (by decide +kernel)⟩

theorem witness_GaqSmallValueIsBounded : (Instr.gaqSmall 16 11 2 (-255)).wf = true := by decide

theorem witness_ReferenceTableValuesAreBounded :
    ((16 : Hebap).toNat ≤ 19 ∧ 11 = widthOf referenceParams 16 ∧ (Instr.gaqLarge 16 11 2 (-1024)).wf = true) ∧
    ((19 : Hebap).toNat ≤ 19 ∧ 16 = widthOf referenceParams 19 ∧ (Instr.gaqPlain 19 16 (-32768)).wf = true) := by
  decide +kernel

/-- Each failing check of AHT_DECODE: RANGE never written, START 5 and END 4, END 257, BAP never written, hebap 20. -/
theorem witness_AhtDecodeReportsFirstInputError :
    (State.reset.chan 0).wRange = false ∧
    (¬ ((inputs 5 4 [] []).start.toNat ≤ (inputs 5 4 [] []).stop.toNat ∧ (inputs 5 4 [] []).stop.toNat ≤ 256)) ∧
    (¬ ((inputs 0 257 [] []).start.toNat ≤ (inputs 0 257 [] []).stop.toNat ∧ (inputs 0 257 [] []).stop.toNat ≤ 256)) ∧
    (let c := inputs 255 256 [] [];
      c.wRange = true ∧ c.stop.toNat ≤ 256 ∧ c.start.toNat ≤ 255 ∧ 255 < c.stop.toNat ∧ c.wBap.get 255 = 0) ∧
    (let c := inputs 254 256 [19, 20] [];
      c.wRange = true ∧ c.stop.toNat ≤ 256 ∧ c.start.toNat ≤ 254 ∧ 255 < c.stop.toNat ∧ c.wBap.get 254 = 1 ∧
        (c.bap.get 254).toNat ≤ referenceParams.hebapMax.toNat ∧ c.wBap.get 255 = 1 ∧
        referenceParams.hebapMax.toNat < (c.bap.get 255).toNat) := by
  decide +kernel

theorem witness_AhtDecodeFollowsPseudocode :
    goodState.status.err = false ∧ Ready goodState ∧ channelStoresOk (goodState.chan 6) = true ∧
      AhtInputsOk goodState.rom (goodState.chan 6) := ⟨rfl, goodState_ready, goodState_stores 6, goodState_aht⟩

/-- A decode that succeeds, and one that fails for want of bits. -/
theorem witness_AhtDecodeIsAllOrNothing :
    goodState.status.err = false ∧ AhtInputsOk goodState.rom (goodState.chan 6) ∧
    (∃ t, exec (.ahtDecode 6) goodState = .next t ∧ (!t.status.err) = true) ∧
    (∃ t, exec (.ahtDecode 6) { goodState with cursor := [false, false] } = .next t ∧ (t.status.code == 5) = true) :=
  ⟨rfl, goodState_aht, goodState_decodes, next_with _ (by decide +kernel)⟩

theorem witness_EmptyRangeReadsOnlyTheMode :
    let s := machine 6 (inputs 256 256 [] []) [true, false] []
    s.status.err = false ∧ Ready s ∧ (s.chan 6).wRange = true ∧ (s.chan 6).start = (s.chan 6).stop ∧
      (s.chan 6).stop.toNat ≤ 256 ∧ s.cursor = true :: false :: [] :=
  ⟨rfl, ⟨rfl, rfl⟩, by decide +kernel, by decide +kernel, by decide +kernel, rfl⟩

theorem witness_AhtDecodeReadsBoundedBits :
    let s := { goodState with rom := { referenceParams with policy := .clamp, vq := [testVq] } }
    s.rom.bits = referenceBits ∧ s.status.err = false ∧ AhtInputsOk s.rom (s.chan 6) ∧
    ∃ t, exec (.ahtDecode 6) s = .next t ∧ (!t.status.err) = true :=
  ⟨rfl, rfl, ahtInputError_none.1 (by decide +kernel), next_with _ (by decide +kernel)⟩

theorem witness_AhtDecodeDrawsSixPerZeroBin :
    goodState.status.err = false ∧ AhtInputsOk goodState.rom (goodState.chan 6) ∧
    ∃ t, exec (.ahtDecode 6) goodState = .next t ∧ (!t.status.err) = true := ⟨rfl, goodState_aht, goodState_decodes⟩

/-- Each failing check of IDCT: RANGE, the range, PMV, DEXP never written, the exponent 25. -/
theorem witness_IdctReportsFirstInputError :
    (State.reset.chan 0).wRange = false ∧
    (¬ ((inputs 0 257 [] []).start.toNat ≤ (inputs 0 257 [] []).stop.toNat ∧ (inputs 0 257 [] []).stop.toNat ≤ 256)) ∧
    (let c := inputs 255 256 [] [];
      c.wRange = true ∧ c.stop.toNat ≤ 256 ∧ c.start.toNat ≤ 255 ∧ 255 < c.stop.toNat ∧ c.pmv.get 255 = 0) ∧
    (let c := { inputs 255 256 [] [] with pmv := onesRange 255 1 };
      c.pmv.get 255 = 1 ∧ c.wDexp.get 255 = 0) ∧
    (let c := { inputs 254 256 [] [24, 25] with pmv := onesRange 254 2 };
      c.pmv.get 254 = 1 ∧ c.wDexp.get 254 = 1 ∧ (c.dexp.get 254).toNat ≤ 24 ∧ c.pmv.get 255 = 1 ∧ c.wDexp.get 255 = 1 ∧
        24 < (c.dexp.get 255).toNat) := by
  decide +kernel

theorem witness_IdctWritesCoefficients :
    goodState.status.err = false ∧ Ready goodState ∧ channelStoresOk (goodState.chan 6) = true ∧
      IdctInputsOk (goodState.chan 6) := ⟨rfl, goodState_ready, goodState_stores 6, goodState_idct⟩

theorem witness_IdctBeforeDecodeRaisesPremantUnwritten :
    (∃ t, exec .frameStart goodState = .next t ∧ true = true) ∧ (goodState.chan 6).wRange = true ∧
    (goodState.chan 6).start.toNat < (goodState.chan 6).stop.toNat ∧ (goodState.chan 6).stop.toNat ≤ 256 :=
  ⟨next_with (fun _ => true) (by decide +kernel), by decide +kernel, by decide +kernel, by decide +kernel⟩

theorem witness_IdctIsRepeatable :
    goodState.status.err = false ∧ Ready goodState ∧ channelStoresOk (goodState.chan 6) = true ∧
    IdctInputsOk (goodState.chan 6) ∧ (∃ t, exec (.idct 6 0) goodState = .next t ∧ (!t.status.err) = true) ∧
    ∃ u, exec (.idct 6 5) goodState = .next u ∧ (!u.status.err) = true :=
  ⟨rfl, goodState_ready, goodState_stores 6, goodState_idct, goodState_reconstructs 0, goodState_reconstructs 5⟩

/-- A scale, and pre-mantissas whose products are multiples of 2^23. -/
theorem witness_IdctIsLinearUpToFloors :
    (0 : Int) < 1 ∧ ∀ i, 1 ≤ i → i ≤ 5 → (2 : Int) ^ 23 ∣ cosOf referenceParams 0 i * ((fun _ => 2 ^ 23) : Nat → Int) i :=
  ⟨by decide, fun i _ _ => Dvd.intro_left _ rfl⟩

theorem witness_CommandsTouchOnlyTheirChannel :
    Ready goodState ∧ (∃ t, exec (.ahtDecode 6) goodState = .next t ∧ (!t.status.err) = true) ∧
    ∃ t, exec (.idct 6 5) goodState = .next t ∧ (!t.status.err) = true :=
  ⟨goodState_ready, goodState_decodes, goodState_reconstructs 5⟩

theorem witness_OtherChannelsDoNotMatter :
    (5 : Chan) ≠ 6 ∧ (∃ t, exec (.ahtDecode 6) goodState = .next t ∧ (!t.status.err) = true) ∧
    ∃ t, exec (.idct 6 5) goodState = .next t ∧ (!t.status.err) = true :=
  ⟨by decide, goodState_decodes, goodState_reconstructs 5⟩

theorem witness_UnreadInputsDoNotMatter :
    (∃ t, exec (.ahtDecode 6) goodState = .next t ∧ (!t.status.err) = true) ∧
    ∃ t, exec (.idct 6 5) goodState = .next t ∧ (!t.status.err) = true := ⟨goodState_decodes, goodState_reconstructs 5⟩

theorem witness_HostAlwaysSeesIdleSequencer :
    Ready (goodState.withFetchWord 32 0x62) ∧
    ∃ t, step (goodState.withFetchWord 32 0x62) = .next t ∧ (!t.status.err) = true :=
  ⟨⟨rfl, rfl⟩, next_with _ (by decide +kernel)⟩

/-- The invariant holds in the middle of an AHT_DECODE. -/
theorem inside_inv : Inv (inside 8 1 []) := by
  refine ⟨?_, ?_, ?_, ?_, ?_⟩ <;> decide +kernel

theorem witness_EveryStepKeepsInvariant :
    Inv (inside 8 1 []) ∧ ∃ t, step (inside 8 1 []) = .next t ∧ t.status.err = true :=
  ⟨inside_inv, next_with _ (by decide +kernel)⟩

theorem witness_TablesAndWrittenBitsPersist :
    Inv (inside 8 1 []) ∧ (∃ t, step (inside 8 1 []) = .next t ∧ t.status.err = true) ∧
    (∀ rest, (inside 8 1 []).seq.phase = .idle → (inside 8 1 []).host ≠ .reset :: rest) ∧
    ((inside 8 1 []).chan 5).wRange = true ∧ ((inside 8 1 []).chan 5).wBap.get 1 = 1 :=
  ⟨inside_inv, next_with _ (by decide +kernel), fun _ h => absurd h (by decide), by decide +kernel, by decide +kernel⟩

end Sys2Proof.Tests
end

section
/-! PROOFS. Host accesses: the register map and its two address predicates (20_memory.md R82), which access reaches a register
(R84, R85), and that an access which reaches one completes. -/

namespace Sys2Proof.Machine

/-! ## The address predicates against the register map (R82) -/

/-- The readable addresses are the word-aligned ones of registers a read may name. -/
theorem readableAddr_eq (a : HostAddr) :
    readableAddr a = (a.toNat % 4 == 0 && (regAt a.toNat).any Reg.readable) := by
  unfold readableAddr regAt
  -- one goal for each row of the register map, and one for the unmapped addresses
  split_ifs
  all_goals
    simp [Reg.readable]
    omega

/-- The writable addresses are the word-aligned ones of registers a write may name. -/
theorem writableAddr_eq (a : HostAddr) :
    writableAddr a = (a.toNat % 4 == 0 && (regAt a.toNat).any Reg.writable) := by
  unfold writableAddr regAt
  split_ifs
  all_goals
    simp [Reg.writable]
    omega

/-! ## Which access reaches a register (R84, R85) -/

/-- An access reaches a register exactly when width, alignment, mapping and direction are right. -/
theorem busTarget_eq_ok_iff {width : Nat} {a : HostAddr} {allowed : Reg → Bool} {r : Reg} :
    busTarget width a allowed = .ok r ↔
      width = 32 ∧ a.toNat % 4 = 0 ∧ regAt a.toNat = some r ∧ allowed r = true := by
  refine ⟨fun h => ?_, fun ⟨hw, h4, hr, ha⟩ => hw ▸ busTarget_of_regAt h4 hr ha⟩
  unfold busTarget at h
  split_ifs at h with hw h4
  cases hr : regAt a.toNat with
  | none => simp [hr] at h
  | some r' =>
    simp only [hr] at h
    split_ifs at h with ha
    cases h
    exact ⟨not_not.1 hw, not_not.1 h4, rfl, ha⟩

theorem busTarget_readable_ok_iff {width : Nat} {a : HostAddr} :
    (∃ r, busTarget width a Reg.readable = .ok r) ↔ width = 32 ∧ readableAddr a = true := by
  simp [busTarget_eq_ok_iff, readableAddr_eq, Option.any_eq_true]

theorem busTarget_writable_ok_iff {width : Nat} {a : HostAddr} :
    (∃ r, busTarget width a Reg.writable = .ok r) ↔ width = 32 ∧ writableAddr a = true := by
  simp [busTarget_eq_ok_iff, writableAddr_eq, Option.any_eq_true]

/-! ## What the host operations answer (40_commands.md R150, R151) -/

theorem exec_hostRead_of_ok {width : Nat} {a : HostAddr} {r : Reg} (h : busTarget width a Reg.readable = .ok r) (s : State) :
    exec (.hostRead width a) s = .next (readReg r s) := by
  simp only [exec, execHostRead, h]

theorem exec_hostRead_of_error {width : Nat} {a : HostAddr} {f : Fault} (h : busTarget width a Reg.readable = .error f)
    (s : State) : exec (.hostRead width a) s = .fault f := by
  simp only [exec, execHostRead, h]

theorem exec_hostWrite_of_ok {width : Nat} {a : HostAddr} {r : Reg} (h : busTarget width a Reg.writable = .ok r) (v : Word)
    (s : State) : exec (.hostWrite width a v) s = writeReg r v s := by
  simp only [exec, execHostWrite, h]

theorem exec_hostWrite_of_error {width : Nat} {a : HostAddr} {f : Fault} (h : busTarget width a Reg.writable = .error f)
    (v : Word) (s : State) : exec (.hostWrite width a v) s = .fault f := by
  simp only [exec, execHostWrite, h]

/-! ## A write that reaches a register completes -/

theorem unlessInError_completes (run : State → State) (s : State) : ∃ t, unlessInError run s = .next t := by
  unfold unlessInError
  split
  · exact ⟨_, rfl⟩
  · exact ⟨_, rfl⟩

/-- A command written to CMD completes: with success, with an error entry, or dropped (20_memory.md R100). -/
theorem runCommand_completes (w : Word) (s : State) : ∃ t, runCommand w s = .next t := by
  unfold runCommand
  obtain h | h | ⟨ch, h⟩ | ⟨ch, blk, h⟩ | h := decodeCommand_cases w <;> rw [h]
  · exact unlessInError_completes id s
  · exact ⟨returnFromError s, rfl⟩
  · exact unlessInError_completes (ahtDecode ch) s
  · exact unlessInError_completes (idct ch blk) s
  · exact unlessInError_completes _ s

theorem writeReg_completes {r : Reg} (hr : r.writable = true) (v : Word) (s : State) : ∃ t, writeReg r v s = .next t := by
  cases r with
  | cmd => exact runCommand_completes v s
  | range | bap | dexp => exact ⟨_, rfl⟩
  | status | gaqmode | coef | pm => cases hr

/-! ## The obligation -/

/-- Settles O20: an access completes exactly when `busTarget` reaches a register, which is what the address predicates say. -/
theorem hostAccessFaultsExactly : Obligations.HostAccessFaultsExactly := by
  intro s width a v
  rw [← busTarget_readable_ok_iff, ← busTarget_writable_ok_iff]
  refine ⟨⟨?_, ?_⟩, ⟨?_, ?_⟩⟩
  · rintro ⟨r, h⟩
    exact ⟨_, exec_hostRead_of_ok h s⟩
  · intro h
    cases hb : busTarget width a Reg.readable with
    | ok r => exact absurd ⟨r, hb⟩ h
    | error f => exact ⟨f, exec_hostRead_of_error hb s⟩
  · rintro ⟨r, h⟩
    obtain ⟨-, -, -, hr⟩ := busTarget_eq_ok_iff.1 h
    rw [exec_hostWrite_of_ok h]
    exact writeReg_completes hr v s
  · intro h
    cases hb : busTarget width a Reg.writable with
    | ok r => exact absurd ⟨r, hb⟩ h
    | error f => exact ⟨f, exec_hostWrite_of_error hb v s⟩

end Sys2Proof.Machine
end

section
/-! PROOFS. The command decoder: a word is its four fields (30_encoding.md R110), what the masks of R113 to R116 test, and which
words decode to which command. -/

namespace Sys2Proof.Machine

/-! ## A word is its four fields (R110) -/

theorem word_eq_iff_fields {w v : Word} :
    w = v ↔ cmdOp w = cmdOp v ∧ cmdCh w = cmdCh v ∧ cmdBlk w = cmdBlk v ∧ cmdRsv w = cmdRsv v := by
  refine ⟨fun h => h ▸ ⟨rfl, rfl, rfl, rfl⟩, fun ⟨hop, hch, hblk, hrsv⟩ => BitVec.eq_of_toNat_eq ?_⟩
  simp only [cmdOp, cmdCh, cmdBlk, cmdRsv, ← BitVec.toNat_inj, BitVec.extractLsb'_toNat, Nat.shiftRight_eq_div_pow]
    at hop hch hblk hrsv
  omega

@[simp] theorem cmdOp_and (w m : Word) : cmdOp (w &&& m) = cmdOp w &&& cmdOp m := BitVec.extractLsb'_and

@[simp] theorem cmdCh_and (w m : Word) : cmdCh (w &&& m) = cmdCh w &&& cmdCh m := BitVec.extractLsb'_and

@[simp] theorem cmdBlk_and (w m : Word) : cmdBlk (w &&& m) = cmdBlk w &&& cmdBlk m := BitVec.extractLsb'_and

@[simp] theorem cmdRsv_and (w m : Word) : cmdRsv (w &&& m) = cmdRsv w &&& cmdRsv m := BitVec.extractLsb'_and

/-! ## The words the commands are written as (R115, R116) -/

/-- The word of AHT_DECODE(ch) (R115). -/
def ahtDecodeWord (ch : Chan) : Word := 0x2#32 ||| (BitVec.ofNat 32 ch.val <<< 4)

/-- The word of IDCT(ch, blk) (R116). -/
def idctWord (ch : Chan) (blk : Blk) : Word :=
  0x3#32 ||| (BitVec.ofNat 32 ch.val <<< 4) ||| (BitVec.ofNat 32 blk.val <<< 7)

theorem ahtDecodeWord_fields : ∀ ch : Chan,
    cmdOp (ahtDecodeWord ch) = 2 ∧ cmdCh (ahtDecodeWord ch) = BitVec.ofNat 3 ch.val ∧ cmdBlk (ahtDecodeWord ch) = 0 ∧
      cmdRsv (ahtDecodeWord ch) = 0 := by
  decide

theorem idctWord_fields : ∀ (ch : Chan) (blk : Blk),
    cmdOp (idctWord ch blk) = 3 ∧ cmdCh (idctWord ch blk) = BitVec.ofNat 3 ch.val ∧
      cmdBlk (idctWord ch blk) = BitVec.ofNat 3 blk.val ∧ cmdRsv (idctWord ch blk) = 0 := by
  decide

theorem decodeCommand_ahtDecodeWord : ∀ ch : Chan, decodeCommand (ahtDecodeWord ch) = .ahtDecode ch := by decide

theorem decodeCommand_idctWord : ∀ (ch : Chan) (blk : Blk), decodeCommand (idctWord ch blk) = .idct ch blk := by decide

theorem commandWord_ahtDecodeWord : ∀ ch : Chan, commandWord (ahtDecodeWord ch) = true := by decide

theorem commandWord_idctWord : ∀ (ch : Chan) (blk : Blk), commandWord (idctWord ch blk) = true := by decide

/-! ## Every word is the encoding of what it decodes to (R113 to R117) -/

theorem bus_cmdWrite_eq_of_fields {v w : Word} (hop : (cmdOp w).toNat = (cmdOp v).toNat) (hch : cmdCh w = cmdCh v)
    (hblk : cmdBlk w = cmdBlk v) (hrsv : cmdRsv w = cmdRsv v) : Encoded.bus (cmdWrite v) = .bus (cmdWrite w) :=
  congrArg (fun u => Encoded.bus (cmdWrite u)) (word_eq_iff_fields.2 ⟨BitVec.eq_of_toNat_eq hop, hch, hblk, hrsv⟩).symm

theorem encode_decodeCommand (w : Word) : encode (decodeCommand w) = .bus (cmdWrite w) := by
  unfold decodeCommand
  split
  case isFalse => rfl
  case isTrue hrsv =>
    -- the operations 0 to 3, and the reserved ones
    split
    case h_1 hop | h_2 hop =>
      split
      case isFalse => rfl
      case isTrue h =>
        obtain ⟨hch, hblk⟩ := h
        exact bus_cmdWrite_eq_of_fields hop hch hblk hrsv
    case h_3 hop =>
      split
      case isFalse => rfl
      case isTrue h =>
        apply bus_cmdWrite_eq_of_fields (v := ahtDecodeWord ⟨_, h.1⟩) <;> simp [ahtDecodeWord_fields, hop, h.2, hrsv]
    case h_4 hop =>
      split
      case isFalse => rfl
      case isTrue h =>
        apply bus_cmdWrite_eq_of_fields (v := idctWord ⟨_, h.1⟩ ⟨_, h.2⟩) <;> simp [idctWord_fields, hop, hrsv]
    case h_5 => rfl

/-- What a word decodes to has that word as its command word. -/
theorem eq_of_decodeCommand {w v : Word} {i : Instr} (h : decodeCommand w = i) (hi : encode i = .bus (cmdWrite v)) :
    w = v := by
  have hw : Encoded.bus (cmdWrite w) = .bus (cmdWrite v) := by rw [← encode_decodeCommand, h, hi]
  simpa [cmdWrite] using hw

theorem decodeCommand_eq_nop_iff {w : Word} : decodeCommand w = .nop ↔ w = 0x0#32 :=
  ⟨fun h => eq_of_decodeCommand h rfl, fun h => h ▸ rfl⟩

theorem decodeCommand_eq_frameStart_iff {w : Word} : decodeCommand w = .frameStart ↔ w = 0x1#32 :=
  ⟨fun h => eq_of_decodeCommand h rfl, fun h => h ▸ rfl⟩

theorem decodeCommand_eq_ahtDecode_iff {w : Word} {ch : Chan} : decodeCommand w = .ahtDecode ch ↔ w = ahtDecodeWord ch :=
  ⟨fun h => eq_of_decodeCommand h rfl, fun h => h ▸ decodeCommand_ahtDecodeWord ch⟩

theorem decodeCommand_eq_idct_iff {w : Word} {ch : Chan} {blk : Blk} :
    decodeCommand w = .idct ch blk ↔ w = idctWord ch blk :=
  ⟨fun h => eq_of_decodeCommand h rfl, fun h => h ▸ decodeCommand_idctWord ch blk⟩

/-! ## What the masks test (R115, R116) -/

theorem ahtDecodeMask_iff {w : Word} :
    w &&& 0xFFFFFF8F#32 = 0x00000002#32 ↔ cmdOp w = 2 ∧ cmdBlk w = 0 ∧ cmdRsv w = 0 := by
  have mask : cmdOp 0xFFFFFF8F#32 = BitVec.allOnes 4 ∧ cmdCh 0xFFFFFF8F#32 = 0 ∧ cmdBlk 0xFFFFFF8F#32 = BitVec.allOnes 3 ∧
      cmdRsv 0xFFFFFF8F#32 = BitVec.allOnes 22 := by decide
  have value : cmdOp 2#32 = 2 ∧ cmdCh 2#32 = 0 ∧ cmdBlk 2#32 = 0 ∧ cmdRsv 2#32 = 0 := by decide
  simp [word_eq_iff_fields, mask, value, -BitVec.reduceAllOnes]

theorem idctMask_iff {w : Word} : w &&& 0xFFFFFC0F#32 = 0x00000003#32 ↔ cmdOp w = 3 ∧ cmdRsv w = 0 := by
  have mask : cmdOp 0xFFFFFC0F#32 = BitVec.allOnes 4 ∧ cmdCh 0xFFFFFC0F#32 = 0 ∧ cmdBlk 0xFFFFFC0F#32 = 0 ∧
      cmdRsv 0xFFFFFC0F#32 = BitVec.allOnes 22 := by decide
  have value : cmdOp 3#32 = 3 ∧ cmdCh 3#32 = 0 ∧ cmdBlk 3#32 = 0 ∧ cmdRsv 3#32 = 0 := by decide
  simp [word_eq_iff_fields, mask, value, -BitVec.reduceAllOnes]

theorem chMask_iff {w : Word} : w &&& 0x70#32 = 0x70#32 ↔ ¬ (cmdCh w).toNat < 7 := by
  have mask : cmdOp 0x70#32 = 0 ∧ cmdCh 0x70#32 = 7 ∧ cmdBlk 0x70#32 = 0 ∧ cmdRsv 0x70#32 = 0 := by decide
  have all_set : ∀ ch : BitVec 3, ch &&& 7 = 7 ↔ ¬ ch.toNat < 7 := by decide
  simpa [word_eq_iff_fields, mask] using all_set (cmdCh w)

theorem blkMask_iff {w : Word} : w &&& 0x300#32 = 0x300#32 ↔ ¬ (cmdBlk w).toNat < 6 := by
  have mask : cmdOp 0x300#32 = 0 ∧ cmdCh 0x300#32 = 0 ∧ cmdBlk 0x300#32 = 6 ∧ cmdRsv 0x300#32 = 0 := by decide
  have upper_set : ∀ blk : BitVec 3, blk &&& 6 = 6 ↔ ¬ blk.toNat < 6 := by decide
  simpa [word_eq_iff_fields, mask] using upper_set (cmdBlk w)

/-! ## The mask test fails exactly on the illegal words (R117) -/

theorem decodeCommand_ne_illegal_of_commandWord {w : Word} (h : commandWord w = true) : decodeCommand w ≠ .illegal w := by
  simp only [commandWord, Bool.or_eq_true, Bool.and_eq_true, beq_iff_eq, bne_iff_ne, ne_eq, ahtDecodeMask_iff, idctMask_iff,
    chMask_iff, blkMask_iff, not_not] at h
  obtain ((rfl | rfl) | ⟨⟨hop, hblk, hrsv⟩, hch⟩) | ⟨⟨⟨hop, hrsv⟩, hch⟩, hblk⟩ := h
  · decide
  · decide
  · simp [decodeCommand, hop, hch, hblk, hrsv]
  · simp [decodeCommand, hop, hch, hblk, hrsv]

theorem decodeCommand_eq_illegal_iff {w : Word} : decodeCommand w = .illegal w ↔ commandWord w = false := by
  refine ⟨fun h => Bool.eq_false_iff.2 fun hw => decodeCommand_ne_illegal_of_commandWord hw h, fun hw => ?_⟩
  obtain h | h | ⟨ch, h⟩ | ⟨ch, blk, h⟩ | h := decodeCommand_cases w
  · rw [decodeCommand_eq_nop_iff.1 h] at hw
    cases hw
  · rw [decodeCommand_eq_frameStart_iff.1 h] at hw
    cases hw
  · rw [decodeCommand_eq_ahtDecode_iff.1 h, commandWord_ahtDecodeWord] at hw
    cases hw
  · rw [decodeCommand_eq_idct_iff.1 h, commandWord_idctWord] at hw
    cases hw
  · exact h

/-! ## The obligation -/

/-- Settles O2: a command's word is its encoding, since encoding gives every decoded word back, and the mask test holds
exactly of the words that decode to a command. -/
theorem commandDecoderIsExact : Obligations.CommandDecoderIsExact := fun w =>
  ⟨decodeCommand_eq_nop_iff, decodeCommand_eq_frameStart_iff, fun _ => decodeCommand_eq_ahtDecode_iff,
    fun _ _ => decodeCommand_eq_idct_iff, decodeCommand_eq_illegal_iff, decodeCommand_cases w⟩

end Sys2Proof.Machine
end

section
/-! PROOFS. The command words (40_commands.md R153 to R157): the drop in the error state, the dispatch of a write to CMD, NOP and the
other words with OP = 0, and FRAME_START. -/

namespace Sys2Proof.Machine

/-! ## The drop in the error state (R153, R154) -/

theorem unlessInError_of_error (run : State → State) {s : State} (he : s.status.err = true) : unlessInError run s = .next s :=
  if_pos he

theorem unlessInError_of_ok (run : State → State) {s : State} (he : s.status.err = false) :
    unlessInError run s = .next (run s) :=
  if_neg (Bool.eq_false_iff.1 he)

/-! ## The commands as instructions (R155, R157, R301) -/

theorem exec_nop (s : State) : exec .nop s = .next s := by
  change unlessInError id s = .next s
  cases he : s.status.err with
  | true => exact unlessInError_of_error id he
  | false => exact unlessInError_of_ok id he

theorem exec_frameStart (s : State) : exec .frameStart s = .next (returnFromError s) := rfl

theorem exec_illegal_of_ok {s : State} (he : s.status.err = false) (w : Word) :
    exec (.illegal w) s = .next (raiseError (.dispatch (cmdCh w)) .illegalCmd noBin s) :=
  unlessInError_of_ok _ he

/-- The error state drops every command but FRAME_START (R154). -/
theorem exec_decodeCommand_of_error {s : State} {w : Word} (he : s.status.err = true)
    (hw : decodeCommand w ≠ .frameStart) : exec (decodeCommand w) s = .next s := by
  obtain h | h | ⟨ch, h⟩ | ⟨ch, blk, h⟩ | h := decodeCommand_cases w
  · rw [h, exec_nop]
  · exact absurd h hw
  · rw [h]
    exact unlessInError_of_error (ahtDecode ch) he
  · rw [h]
    exact unlessInError_of_error (idct ch blk) he
  · rw [h]
    exact unlessInError_of_error _ he

/-! ## The dispatch of a write to CMD (R153) -/

/-- The dispatch of CMD and that of the machine give a command word the same meaning. -/
theorem runCommand_eq_exec (w : Word) (s : State) : runCommand w s = exec (decodeCommand w) s := by
  unfold runCommand
  obtain h | h | ⟨ch, h⟩ | ⟨ch, blk, h⟩ | h := decodeCommand_cases w <;> rw [h] <;> rfl

theorem busTarget_cmd : busTarget 32 0 Reg.writable = .ok .cmd := busTarget_of_regAt rfl rfl rfl

theorem exec_cmdWrite (w : Word) (s : State) : exec (.hostWrite 32 0 w) s = exec (decodeCommand w) s :=
  (exec_hostWrite_of_ok busTarget_cmd w s).trans (runCommand_eq_exec w s)

/-- Settles O8: a write to CMD is its command, which the error state drops, and an illegal word outside it is an error entry. -/
theorem cmdWriteIsTheCommand : Obligations.CmdWriteIsTheCommand := by
  intro s w
  rw [exec_cmdWrite]
  refine ⟨rfl, exec_decodeCommand_of_error, fun he hw => ?_⟩
  rw [hw]
  exact exec_illegal_of_ok he w

/-! ## The words with OP = 0 (R113, R155) -/

theorem decodeCommand_of_cmdOp_zero {w : Word} (hop : cmdOp w = 0) : decodeCommand w = if w = 0 then .nop else .illegal w := by
  obtain h | h | ⟨ch, h⟩ | ⟨ch, blk, h⟩ | h := decodeCommand_cases w
  · exact h.trans (if_pos (decodeCommand_eq_nop_iff.1 h)).symm
  · rw [decodeCommand_eq_frameStart_iff.1 h] at hop
    exact absurd hop (by decide)
  · rw [decodeCommand_eq_ahtDecode_iff.1 h, (ahtDecodeWord_fields ch).1] at hop
    exact absurd hop (by decide)
  · rw [decodeCommand_eq_idct_iff.1 h, (idctWord_fields ch blk).1] at hop
    exact absurd hop (by decide)
  · have hw : w ≠ 0 := fun h0 => by simp [decodeCommand_eq_nop_iff.2 h0] at h
    exact h.trans (if_neg hw).symm

/-- Settles O12: NOP is the same dropped as run, and of the words with OP = 0 only 0 is a command's. -/
theorem nopChangesNothing : Obligations.NopChangesNothing :=
  ⟨exec_nop, fun _ => decodeCommand_of_cmdOp_zero⟩

/-! ## FRAME_START (R157) -/

@[simp] theorem Status.word_clear : Status.clear.word = 0 := by decide

@[simp] theorem Channel.gaqWord_newFrame (c : Channel) : c.newFrame.gaqWord = 0 := rfl

@[simp] theorem Channel.newFrame_pmv (c : Channel) : c.newFrame.pmv = [] := rfl

@[simp] theorem Channel.newFrame_cv (c : Channel) : c.newFrame.cv = [] := rfl

/-- Settles O13: FRAME_START is the return from the error state, which makes every channel's outputs invalid. -/
theorem frameStartClearsOutputs : Obligations.FrameStartClearsOutputs := by
  intro s
  refine ⟨returnFromError s, exec_frameStart s, ?_, rfl, fun ch => ?_⟩
  · rw [returnFromError_status, Status.word_clear]
  · rw [returnFromError_chan]
    exact ⟨Channel.gaqWord_newFrame _, fun b => by simp, rfl⟩

end Sys2Proof.Machine
end

section
/-! PROOFS. The gain phase of AHT_DECODE (41_gaq_gain.md R193, R198): the threshold of a gain mode, GAQMOD, and a GAQGRP code above 26
under the two policies. -/

namespace Sys2Proof.Machine

/-! ## The threshold of a mode, and the bins that take a gain (R193, R194) -/

theorem threshold_eq : ∀ mode : BitVec 2, threshold mode = if mode = 0 ∨ mode = 1 then 12 else 17 := by decide

theorem takesGain_iff {mode : BitVec 2} {h : Hebap} :
    takesGain mode h = true ↔ mode ≠ 0 ∧ 7 < h.toNat ∧ h.toNat < threshold mode := by
  simp [takesGain, qualifies]

/-- Settles O25: GAQMOD is its defining update, and a bin takes a gain in the interval that the threshold of its mode bounds. -/
theorem gaqmodSetsModeAndThreshold : Obligations.GaqmodSetsModeAndThreshold := by
  intro s mode
  rw [← threshold_eq mode]
  exact ⟨rfl, rfl, fun _ => takesGain_iff⟩

/-! ## What the error entry of AHT_DECODE leaves of the channels (R310) -/

theorem raiseError_aht_chan_ne {ch c : Chan} (h : c ≠ ch) (code : ErrCode) (bin : BitVec 9) (s : State) :
    (raiseError (.aht ch) code bin s).chan c = s.chan c := by
  rw [raiseError_aht_chan, if_neg h]

theorem raiseError_aht_chan_self (ch : Chan) (code : ErrCode) (bin : BitVec 9) (s : State) :
    (raiseError (.aht ch) code bin s).chan ch = { s.chan ch with pmv := [], gaqValid := false, gaqMode := 0 } := by
  rw [raiseError_aht_chan, if_pos rfl]

/-! ## Group codes above 26 (R198) -/

theorem groupFaults_eq_true {p : Params} {code : BitVec 5} (hc : 26 < code.toNat) (hp : p.policy = .fault) :
    groupFaults p code = true := by
  simp [groupFaults, hc, hp]

theorem groupFaults_eq_false_of_clamp {p : Params} (hp : p.policy = .clamp) (code : BitVec 5) : groupFaults p code = false := by
  simp [groupFaults, hp]

theorem exec_gaqgrp_of_faults {s : State} {code : BitVec 5} (h : groupFaults s.rom code = true) :
    exec (.gaqgrp code) s = .next (raiseError (.aht s.staging.ch) .gaqGroupRange (binField s.seq.bin) s) :=
  congrArg Host.Outcome.next (if_pos h)

theorem exec_gaqgrp_of_not_faults {s : State} {code : BitVec 5} (h : groupFaults s.rom code = false) :
    exec (.gaqgrp code) s = .next (nextGainBin 0 (addGains (ungroup (clampCode code)) s)) :=
  congrArg Host.Outcome.next (if_neg (Bool.eq_false_iff.1 h))

theorem clampCode_of_gt {code : BitVec 5} (hc : 26 < code.toNat) : clampCode code = 26 := if_pos hc

/-- Settles O28: FAULT answers the error entry of the running command, and CLAMP ungroups the code it ungroups for 26. -/
theorem gaqgrpOutOfRangeFollowsPolicy : Obligations.GaqgrpOutOfRangeFollowsPolicy := by
  intro s code hc
  refine ⟨fun hp => ⟨_, exec_gaqgrp_of_faults (groupFaults_eq_true hc hp), raiseError_eq _ _ _ s,
    fun c hne => raiseError_aht_chan_ne hne _ _ s, ?_⟩, fun hp => ?_⟩
  · rw [raiseError_aht_chan_self]
    exact ⟨rfl, Memory.get_nil⟩
  · have h26 : clampCode 26 = 26 := by decide
    rw [exec_gaqgrp_of_not_faults (groupFaults_eq_false_of_clamp hp code),
      exec_gaqgrp_of_not_faults (groupFaults_eq_false_of_clamp hp 26), clampCode_of_gt hc, h26]

end Sys2Proof.Machine
end

section
/-! PROOFS. The input checks of AHT_DECODE in their order (41_gaq_gain.md R191): the range, which IDCT checks in the same way
(43_idct.md R261), and then the lowest bin that fails. -/

namespace Sys2Proof.Machine

/-! ## The range (R191, R261) -/

theorem rangeError_of_unwritten {c : Channel} (hw : c.wRange = false) : rangeError c = some (.inputUnwritten, noBin) := if_pos hw

theorem rangeError_of_bad {c : Channel} (hw : c.wRange = true) (h : ¬ (c.first ≤ c.last ∧ c.last ≤ 256)) :
    rangeError c = some (.badRange, noBin) := by
  simp only [rangeError, hw, if_neg h, Bool.true_eq_false, if_false]

/-! ## The lowest bin that fails -/

/-- The bins of a range around one of them. -/
theorem Channel.bins_eq_append_cons {c : Channel} {b : Nat} (hb : c.first ≤ b) (hb' : b < c.last) :
    c.bins = List.range' c.first (b - c.first) ++ b :: List.range' (b + 1) (c.last - (b + 1)) := by
  have hcount : c.count = (b - c.first) + (c.last - (b + 1) + 1) := by
    unfold Channel.count
    omega
  have hstart : c.first + (b - c.first) = b := by omega
  rw [Channel.bins, hcount, ← List.range'_append_1, hstart, List.range'_succ]

/-- A check of the bins in ascending order answers for the lowest bin that does not pass. -/
theorem Channel.findSome?_bins_eq_some {ε : Type} {c : Channel} {f : Nat → Option ε} {b : Nat} {e : ε} (hb : c.first ≤ b)
    (hb' : b < c.last) (hbelow : ∀ b', c.first ≤ b' → b' < b → f b' = none) (hf : f b = some e) :
    c.bins.findSome? f = some e := by
  refine List.findSome?_eq_some_iff.2 ⟨_, b, _, Channel.bins_eq_append_cons hb hb', hf, fun b' hmem => ?_⟩
  rw [List.mem_range'_1] at hmem
  exact hbelow b' hmem.1 (by omega)

/-! ## check_inputs (R191) -/

theorem ahtBinError_of_unwritten {p : Params} {c : Channel} {b : Nat} (h : c.wBap.get b = 0) :
    ahtBinError p c b = some (.inputUnwritten, binField b) := by
  simp [ahtBinError, h]

theorem ahtBinError_of_badHebap {p : Params} {c : Channel} {b : Nat} (hw : c.wBap.get b = 1)
    (h : p.hebapMax.toNat < (c.bap.get b).toNat) : ahtBinError p c b = some (.badHebap, binField b) := by
  simp [ahtBinError, Channel.hebap, hw, h]

theorem ahtInputError_of_rangeError {p : Params} {c : Channel} {e : ErrCode × BitVec 9} (h : rangeError c = some e) :
    ahtInputError p c = some e := by
  simp only [ahtInputError, h]

/-- With a good range check_inputs reports the lowest bin that fails. -/
theorem ahtInputError_of_lowest_bin {p : Params} {c : Channel} {b : Nat} {e : ErrCode × BitVec 9} (hw : c.wRange = true)
    (hstop : c.last ≤ 256) (hb : c.first ≤ b) (hb' : b < c.last)
    (hbelow : ∀ b', c.first ≤ b' → b' < b → c.wBap.get b' = 1 ∧ (c.bap.get b').toNat ≤ p.hebapMax.toNat)
    (he : ahtBinError p c b = some e) : ahtInputError p c = some e := by
  have hrange : rangeError c = none := rangeError_none.2 ⟨hw, by omega, hstop⟩
  simp only [ahtInputError, hrange]
  exact Channel.findSome?_bins_eq_some hb hb' (fun b' h h' => ahtBinError_none.2 (hbelow b' h h')) he

/-- Settles O39: each clause names the first check that fails, and AHT_DECODE answers the error entry of that check. -/
theorem ahtDecodeReportsFirstInputError : Obligations.AhtDecodeReportsFirstInputError := by
  intro s ch he
  refine ⟨fun hw => ?_, fun hw hbad => ?_, fun b hw hstop hb hb' hbelow => ⟨fun h0 => ?_, fun h1 hmax => ?_⟩⟩
  · exact exec_ahtDecode_of_error he (ahtInputError_of_rangeError (rangeError_of_unwritten hw))
  · exact exec_ahtDecode_of_error he (ahtInputError_of_rangeError (rangeError_of_bad hw hbad))
  · exact exec_ahtDecode_of_error he
      (ahtInputError_of_lowest_bin hw hstop hb hb' hbelow (ahtBinError_of_unwritten h0))
  · exact exec_ahtDecode_of_error he
      (ahtInputError_of_lowest_bin hw hstop hb hb' hbelow (ahtBinError_of_badHebap h1 hmax))

end Sys2Proof.Machine
end

section
/-! PROOFS. The mantissa elements of AHT_DECODE (42_mantissa.md R224 to R231): how VQ_DECODE, GAQ_PLAIN, GAQ_SMALL and GAQ_LARGE
are read in their slots, and which cells of the staging copy they write. -/

namespace Sys2Proof.Machine

/-! ## Reading the elements in their slots (30_encoding.md R121 to R124; 20_memory.md R90) -/

theorem decodeElement_vqcw_of_some {w v : Nat} {bs rest : Bits} (hr : readBits w bs = some (v, rest)) (h : Hebap) :
    decodeElement (.vqcw h w) bs = .element (.vqDecode h w v) rest := by
  simp only [decodeElement, hr]

theorem decodeElement_vqcw_of_none {w : Nat} {bs : Bits} (hr : readBits w bs = none) (h : Hebap) :
    decodeElement (.vqcw h w) bs = .cursorFail bs := by
  simp only [decodeElement, hr]

theorem decodeElement_gmant_of_some {w g : Nat} {m : Int} {bs rest : Bits} (hr : readSBits (w - g) bs = some (m, rest))
    (h : Hebap) : decodeElement (.gmant h w g) bs = decodeMantissa h w g m rest := by
  simp only [decodeElement, hr]

theorem decodeElement_gmant_of_none {w g : Nat} {bs : Bits} (hr : readSBits (w - g) bs = none) (h : Hebap) :
    decodeElement (.gmant h w g) bs = .cursorFail bs := by
  simp only [decodeElement, hr]

/-- With gain shift 0 no value is an escape (R226). -/
theorem decodeMantissa_zero (h : Hebap) (w : Nat) (m : Int) (bs : Bits) :
    decodeMantissa h w 0 m bs = .element (.gaqPlain h w m) bs := by
  simp [decodeMantissa]

theorem decodeMantissa_of_ne_escape {w g : Nat} {m : Int} (hg : 0 < g) (hm : m ≠ escapeValue w g) (h : Hebap) (bs : Bits) :
    decodeMantissa h w g m bs = .element (.gaqSmall h w g m) bs := by
  simp [decodeMantissa, hm, hg.ne']

theorem decodeMantissa_escape_of_some {w g : Nat} {l : Int} {bs rest : Bits} (hg : 0 < g)
    (hr : readSBits (w - 2 + g) bs = some (l, rest)) (h : Hebap) :
    decodeMantissa h w g (escapeValue w g) bs = .element (.gaqLarge h w g l) rest := by
  simp [decodeMantissa, hg, hr]

theorem decodeMantissa_escape_of_none {w g : Nat} {bs : Bits} (hg : 0 < g) (hr : readSBits (w - 2 + g) bs = none)
    (h : Hebap) : decodeMantissa h w g (escapeValue w g) bs = .cursorFail bs := by
  simp [decodeMantissa, hg, hr]

/-! ## One mantissa: the cell SEQ stands at is written (R227, R229, R231) -/

theorem nextBlock_eq_with_seq (s : State) : nextBlock s = { s with seq := (nextBlock s).seq } := by
  rw [nextBlock_eq]
  split
  · rfl
  · rfl

@[simp] theorem nextBlock_staging (s : State) : (nextBlock s).staging = s.staging := by rw [nextBlock_eq_with_seq]

/-- Stage `v` for the block SEQ stands at and go on: the meaning that the three GAQ elements share. -/
def stageMantissa (v : Int) (s : State) : State := nextBlock (stagePremant s.seq.blk v s)

theorem exec_gaqPlain (h : Hebap) (w : Nat) (m : Int) (s : State) :
    exec (.gaqPlain h w m) s = .next (stageMantissa (gaqPlainValue s.rom h w m) s) := rfl

theorem exec_gaqSmall (h : Hebap) (w g : Nat) (m : Int) (s : State) :
    exec (.gaqSmall h w g m) s = .next (stageMantissa (gaqSmallValue w m) s) := rfl

theorem exec_gaqLarge (h : Hebap) (w g : Nat) (l : Int) (s : State) :
    exec (.gaqLarge h w g l) s = .next (stageMantissa (gaqLargeValue s.rom h w g l) s) := rfl

theorem stageMantissa_spm (v : Int) (s : State) :
    (stageMantissa v s).staging.spm = s.staging.spm.set (6 * s.seq.bin + s.seq.blk) (toReg v) := by
  rw [stageMantissa, nextBlock_staging]
  rfl

theorem stageMantissa_frame (v : Int) (s : State) :
    stageMantissa v s =
      { s with staging := { s.staging with spm := (stageMantissa v s).staging.spm }, seq := (stageMantissa v s).seq } := by
  rw [stageMantissa, nextBlock_eq_with_seq]
  rfl

theorem stageMantissa_get_self {s : State} (hs : s.staging.spm.wf = true) (v : Int) :
    (stageMantissa v s).staging.spm.get (6 * s.seq.bin + s.seq.blk) = toReg v := by
  rw [stageMantissa_spm, Memory.get_set_self hs]

theorem stageMantissa_get_ne {s : State} (hs : s.staging.spm.wf = true) (v : Int) {a : Nat}
    (ha : a ≠ 6 * s.seq.bin + s.seq.blk) : (stageMantissa v s).staging.spm.get a = s.staging.spm.get a := by
  rw [stageMantissa_spm, Memory.get_set_ne hs ha]

/-! ## The asymmetric remap by the sign of L (R231) -/

theorem shl_nonneg_iff {v : Int} {n : Nat} : 0 ≤ shl v n ↔ 0 ≤ v :=
  mul_nonneg_iff_of_pos_right (by positivity)

theorem gaqLargeValue_of_nonneg {l : Int} (hl : 0 ≤ l) (p : Params) (h : Hebap) (w g : Nat) :
    gaqLargeValue p h w g l = l * 2 ^ (24 - (w - 2 + g)) + remapAOf p h g * (l * 2 ^ (24 - (w - 2 + g))) / 2 ^ 15
      + 2 ^ (23 - g) :=
  congrArg (_ + ·) (if_pos (shl_nonneg_iff.2 hl))

theorem gaqLargeValue_of_neg {l : Int} (hl : l < 0) (p : Params) (h : Hebap) (w g : Nat) :
    gaqLargeValue p h w g l = l * 2 ^ (24 - (w - 2 + g)) + remapAOf p h g * (l * 2 ^ (24 - (w - 2 + g))) / 2 ^ 15
      + remapBOf p h g * 256 :=
  congrArg (_ + ·) (if_neg fun hx => absurd (shl_nonneg_iff.1 hx) (not_le.2 hl))

/-! ## The GAQ obligations -/

/-- Settles O33: with gain shift 0 the mantissa read is GAQ_PLAIN, which stages its value in the one cell SEQ stands at. -/
theorem gaqPlainStagesRemappedValue : Obligations.GaqPlainStagesRemappedValue := by
  refine ⟨fun h w m bs rest => ⟨fun hr => ?_, fun hr => ?_⟩, fun s h w m hs => ?_⟩
  · rw [decodeElement_gmant_of_some (g := 0) hr, decodeMantissa_zero]
  · exact decodeElement_gmant_of_none (g := 0) hr h
  · exact ⟨_, exec_gaqPlain h w m s, stageMantissa_frame _ s, stageMantissa_get_self hs _, fun _ => stageMantissa_get_ne hs _⟩

/-- Settles O34: a mantissa that is not the escape is GAQ_SMALL, which stages its value in the one cell SEQ stands at. -/
theorem gaqSmallStagesShiftedValue : Obligations.GaqSmallStagesShiftedValue := by
  refine ⟨fun h w g m bs rest hg => ⟨fun hr hm => ?_, fun hr => ?_⟩, fun s h w g m hs => ?_⟩
  · rw [decodeElement_gmant_of_some hr, decodeMantissa_of_ne_escape hg hm]
  · exact decodeElement_gmant_of_none hr h
  · exact ⟨_, exec_gaqSmall h w g m s, stageMantissa_frame _ s, stageMantissa_get_self hs _, fun _ => stageMantissa_get_ne hs _⟩

/-- Settles O35: the escape is read on as GAQ_LARGE, whose value takes the branch of the sign of L, which is the sign of x. -/
theorem gaqLargeStagesAsymmetricRemap : Obligations.GaqLargeStagesAsymmetricRemap := by
  refine ⟨fun h w g l bs mid rest hg he => ?_, fun s h w g l hs => ⟨_, exec_gaqLarge h w g l s, stageMantissa_frame _ s,
    fun hl => ?_, fun hl => ?_, fun _ => stageMantissa_get_ne hs _⟩⟩
  · rw [decodeElement_gmant_of_some he]
    exact ⟨fun hr => decodeMantissa_escape_of_some hg hr h, fun hr => decodeMantissa_escape_of_none hg hr h⟩
  · rw [stageMantissa_get_self hs, gaqLargeValue_of_nonneg hl]
    rfl
  · rw [stageMantissa_get_self hs, gaqLargeValue_of_neg hl]
    rfl

/-! ## A whole bin: its six cells are written (R224) -/

/-- Six cells written block by block are the cells of the bin, each with the value of its block. -/
theorem foldl_set_bin_get {m : Memory 32} (hm : m.wf = true) (bin : Nat) (f : Nat → Word) (a : Nat) :
    ((List.range 6).foldl (fun m blk => m.set (pmIndex bin blk) (f blk)) m).get a =
      if 6 * bin ≤ a ∧ a < 6 * bin + 6 then f (a - 6 * bin) else m.get a := by
  have by_cell : (List.range 6).foldl (fun m blk => m.set (pmIndex bin blk) (f blk)) m =
      (List.range' (6 * bin) 6).foldl (fun m k => m.set k (f (k - 6 * bin))) m := by
    simp [List.range'_eq_map_range, List.foldl_map, pmIndex]
  rw [by_cell, foldl_set_get _ _ hm]
  simp only [List.mem_range'_1]

theorem takesGain_eq_false_of_le {h : Hebap} (hh : h.toNat ≤ 7) (mode : BitVec 2) : takesGain mode h = false := by
  rw [Bool.eq_false_iff, ne_eq, takesGain_iff]
  omega

theorem applyVqDecode_spm (h : Hebap) (w v : Nat) (s : State) :
    (applyVqDecode h w v s).staging.spm =
      (List.range 6).foldl (fun m blk => m.set (pmIndex s.seq.bin blk) (toReg (vqValue s.rom h v blk))) s.staging.spm := by
  rw [applyVqDecode, foldl_stagePremant_eq]
  rfl

/-- A bin that takes no gain leaves `k` as it is (R199). -/
theorem nextBin_of_no_gain {s : State} (h : takesGain s.staging.mode s.binHebap = false) :
    nextBin s = { s with seq := { s.seq with bin := s.seq.bin + 1, blk := 0 } } := by
  simp [nextBin, h]

theorem applyVqDecode_frame {s : State} (hh : s.binHebap.toNat ≤ 7) (h : Hebap) (w v : Nat) :
    applyVqDecode h w v s =
      { s with staging := { s.staging with spm := (applyVqDecode h w v s).staging.spm },
               seq := { s.seq with bin := s.seq.bin + 1, blk := 0 } } := by
  rw [applyVqDecode, foldl_stagePremant_eq]
  exact nextBin_of_no_gain (takesGain_eq_false_of_le hh _)

theorem applyVqDecode_get {s : State} (hs : s.staging.spm.wf = true) (h : Hebap) (w v a : Nat) :
    (applyVqDecode h w v s).staging.spm.get a =
      if 6 * s.seq.bin ≤ a ∧ a < 6 * s.seq.bin + 6 then toReg (vqValue s.rom h v (a - 6 * s.seq.bin))
      else s.staging.spm.get a := by
  rw [applyVqDecode_spm, foldl_set_bin_get hs _ fun blk => toReg (vqValue s.rom h v blk)]

/-! ## The staged table entry is exact (R224) -/

theorem toReg_toInt {v : Int} (hlo : -2 ^ 31 ≤ v) (hhi : v < 2 ^ 31) : (toReg v).toInt = v :=
  BitVec.toInt_ofInt_eq_self (by decide) hlo hhi

/-- Every entry, listed or free, is a signed 16-bit word. -/
theorem vqEntry_bounds (p : Params) (h : Hebap) (v blk : Nat) :
    -2 ^ 15 ≤ vqEntry p h v blk ∧ vqEntry p h v blk < 2 ^ 15 := by
  unfold vqEntry
  split
  · exact ⟨BitVec.le_toInt _, BitVec.toInt_lt⟩
  · exact ⟨BitVec.le_toInt _, BitVec.toInt_lt⟩

theorem toReg_vqValue_toInt (p : Params) (h : Hebap) (v blk : Nat) :
    (toReg (vqValue p h v blk)).toInt = vqEntry p h v blk * 256 := by
  obtain ⟨hlo, hhi⟩ := vqEntry_bounds p h v blk
  exact toReg_toInt (by unfold vqValue; omega) (by unfold vqValue; omega)

/-- Settles O32: the codeword read is VQ_DECODE, which writes the six cells of its bin, each with a value that fits the
word. -/
theorem vqDecodeStagesTableRow : Obligations.VqDecodeStagesTableRow := by
  refine ⟨fun h w v bs rest => ⟨fun hr => decodeElement_vqcw_of_some hr h, fun hr => decodeElement_vqcw_of_none hr h⟩, ?_⟩
  rintro s h w v hs rfl hh
  refine ⟨applyVqDecode s.binHebap w v s, rfl, applyVqDecode_frame hh _ w v, fun i => ?_, fun a ha => ?_⟩
  · rw [applyVqDecode_get hs, if_pos (by omega), Nat.add_sub_cancel_left, toReg_vqValue_toInt]
  · rw [applyVqDecode_get hs, if_neg (by omega)]

end Sys2Proof.Machine
end

section
/-! PROOFS. The input checks of IDCT in their order (43_idct.md R261): the range, and then the lowest bin that fails. -/

namespace Sys2Proof.Machine

theorem idctBinError_of_premantUnwritten {c : Channel} {b : Nat} (h : c.pmv.get b = 0) :
    idctBinError c b = some (.premantUnwritten, binField b) := by
  simp [idctBinError, h]

theorem idctBinError_of_inputUnwritten {c : Channel} {b : Nat} (hv : c.pmv.get b = 1) (h : c.wDexp.get b = 0) :
    idctBinError c b = some (.inputUnwritten, binField b) := by
  simp [idctBinError, hv, h]

theorem idctBinError_of_badDexp {c : Channel} {b : Nat} (hv : c.pmv.get b = 1) (hw : c.wDexp.get b = 1)
    (h : 24 < (c.dexp.get b).toNat) : idctBinError c b = some (.badDexp, binField b) := by
  simp [idctBinError, Channel.exponent, Config.dexpMax, hv, hw, h]

theorem idctInputError_of_rangeError {c : Channel} {e : ErrCode × BitVec 9} (h : rangeError c = some e) :
    idctInputError c = some e := by
  simp only [idctInputError, h]

/-- With a good range check_idct_inputs reports the lowest bin that fails. -/
theorem idctInputError_of_lowest_bin {c : Channel} {b : Nat} {e : ErrCode × BitVec 9} (hw : c.wRange = true)
    (hstop : c.last ≤ 256) (hb : c.first ≤ b) (hb' : b < c.last)
    (hbelow : ∀ b', c.first ≤ b' → b' < b → c.pmv.get b' = 1 ∧ c.wDexp.get b' = 1 ∧ (c.dexp.get b').toNat ≤ 24)
    (he : idctBinError c b = some e) : idctInputError c = some e := by
  have hrange : rangeError c = none := rangeError_none.2 ⟨hw, by omega, hstop⟩
  simp only [idctInputError, hrange]
  exact Channel.findSome?_bins_eq_some hb hb' (fun b' h h' => idctBinError_none.2 (hbelow b' h h')) he

/-- Settles O45: each clause names the first check that fails, and IDCT answers the error entry of that check. -/
theorem idctReportsFirstInputError : Obligations.IdctReportsFirstInputError := by
  intro s ch blk he
  refine ⟨fun hw => ?_, fun hw hbad => ?_, fun b hw hstop hb hb' hbelow => ?_⟩
  · exact exec_idct_of_error he (idctInputError_of_rangeError (rangeError_of_unwritten hw))
  · exact exec_idct_of_error he (idctInputError_of_rangeError (rangeError_of_bad hw hbad))
  · have lowest {code : ErrCode} (h : idctBinError (s.chan ch) b = some (code, binField b)) :
        exec (.idct ch blk) s = .next (raiseError (.idct ch) code (binField b) s) :=
      exec_idct_of_error he (idctInputError_of_lowest_bin hw hstop hb hb' hbelow h)
    exact ⟨fun hv => lowest (idctBinError_of_premantUnwritten hv),
      fun hv hx => lowest (idctBinError_of_inputUnwritten hv hx),
      fun hv hx h24 => lowest (idctBinError_of_badDexp hv hx h24)⟩

end Sys2Proof.Machine
end

section
/-! PROOFS. The run of an IDCT with good inputs (43_idct.md R260 to R265): the coefficients it stages bin by bin, the state after its
commit, and what that state's COEF and CV read as. -/

namespace Sys2Proof.Machine

open Sys2Proof.Safety

/-! ## The run of the sequencer (R260) -/

theorem runToIdle_of_idle (n : Nat) {s : State} (h : s.seq.phase = .idle) : runToIdle n s = s := by
  cases n with
  | zero => rfl
  | succ n => exact if_pos h

theorem runToIdle_succ (n : Nat) {s : State} (h : s.seq.phase ≠ .idle) : runToIdle (n + 1) s = runToIdle n (seqStep s) :=
  if_neg h

theorem seqStep_eq_commitIdct {s : State} (hp : s.seq.phase = .idct) (hb : s.running.last ≤ s.seq.bin) :
    seqStep s = commitIdct s := by
  simp [seqStep, nextAction, idctAction, hp, hb]

theorem seqStep_eq_stageCoef {s : State} (hp : s.seq.phase = .idct) (hb : s.seq.bin < s.running.last) :
    seqStep s = stageCoef s := by
  simp [seqStep, nextAction, idctAction, hp, Nat.not_le.2 hb]

/-- The staged coefficients `m` with those of the bins `bs` added. -/
def addCoefs (p : Params) (c : Channel) (blk : Blk) (bs : List Nat) (m : Memory 32) : Memory 32 :=
  bs.foldl (fun m b => m.set b (idctCoef p c blk b)) m

/-- With `n` bins to go, a run of IDCT stages their coefficients in ascending order and commits. -/
theorem runToIdle_idct {n fuel : Nat} {s : State} (hp : s.seq.phase = .idct) (hn : s.seq.bin + n = s.running.last)
    (hf : n < fuel) :
    runToIdle fuel s = endCommand (s.setChan s.staging.ch (s.running.commitCoefs
      (addCoefs s.rom s.running s.staging.blk (List.range' s.seq.bin n) s.staging.coefs))) := by
  induction n generalizing s fuel with
  | zero =>
    obtain ⟨fuel, rfl⟩ := Nat.exists_eq_succ_of_ne_zero hf.ne'
    rw [runToIdle_succ _ (by simp [hp]), seqStep_eq_commitIdct hp hn.ge]
    exact runToIdle_of_idle _ rfl
  | succ n ih =>
    obtain ⟨fuel, rfl⟩ := Nat.exists_eq_succ_of_ne_zero (Nat.ne_zero_of_lt hf)
    have hnext : (stageCoef s).seq.bin + n = (stageCoef s).running.last := by
      rw [stageCoef_seq]
      exact (Nat.succ_add_eq_add_succ _ _).trans hn
    rw [runToIdle_succ _ (by simp [hp]), seqStep_eq_stageCoef hp (by omega),
      ih (s := stageCoef s) hp hnext (by omega)]
    rfl

/-! ## The state after the commit (R265) -/

theorem Channel.first_add_count {c : Channel} (h : c.first ≤ c.last) : c.first + c.count = c.last := Nat.add_sub_cancel' h

/-- Outside the error state IDCT with good inputs commits the coefficients of the bins of its range, and its command ends. -/
theorem exec_idct_eq_commit {s : State} {ch : Chan} {blk : Blk} (he : s.status.err = false) (h : IdctInputsOk (s.chan ch)) :
    exec (.idct ch blk) s = .next (endCommand (s.setChan ch ((s.chan ch).commitCoefs
      (addCoefs s.rom (s.chan ch) blk (s.chan ch).bins [])))) := by
  have hfirst : (s.chan ch).first ≤ (s.chan ch).last := h.range.1
  have hlast : (s.chan ch).last ≤ 256 := h.range.2
  have hcount : (s.chan ch).first + (s.chan ch).count = (s.chan ch).last := Channel.first_add_count hfirst
  rw [exec_idct_of_ok he h, runToIdle_idct (n := (s.chan ch).count) rfl hcount (by unfold commandFuel; omega)]
  rfl

theorem endCommand_of_ready {s : State} (h : Ready s) : endCommand s = s := by
  obtain ⟨hseq, hstaging⟩ := h
  rw [endCommand, ← hseq, ← hstaging]

/-! ## What the committed channel reads as (R262, R264, R265) -/

theorem coef_wf_of_channelStoresOk {c : Channel} (h : channelStoresOk c = true) : c.coef.wf = true := by
  simp only [channelStoresOk, Bool.and_eq_true] at h
  tauto

theorem commitCoefs_cv_get {c : Channel} (h : c.first ≤ c.last) (m : Memory 32) (b : Nat) :
    (c.commitCoefs m).cv.get b = if c.first ≤ b ∧ b < c.last then 1 else 0 := by
  rw [Channel.commitCoefs, onesRange_get, Channel.first_add_count h]

theorem commitCoefs_coef_get {c : Channel} (hs : c.coef.wf = true) (h : c.first ≤ c.last) (m : Memory 32) (b : Nat) :
    (c.commitCoefs m).coef.get b = if c.first ≤ b ∧ b < c.last then m.get b else c.coef.get b := by
  rw [Channel.commitCoefs, copyRange_get hs, Channel.first_add_count h]

theorem addCoefs_bins_get (p : Params) {c : Channel} (blk : Blk) {b : Nat} (hb : c.first ≤ b) (hb' : b < c.last) :
    (addCoefs p c blk c.bins []).get b = idctCoef p c blk b := by
  rw [addCoefs, foldl_set_get _ _ Memory.wf_nil, if_pos (mem_bins.2 ⟨hb, hb'⟩)]

/-- The fold of `idctSum` written out as its six terms (R262). -/
theorem idctCoef_eq (p : Params) (c : Channel) (blk : Blk) (b : Nat) :
    idctCoef p c blk b = BitVec.ofInt 32
      (((c.pm.get (6 * b)).toInt
        + cosOf p blk 1 * (c.pm.get (6 * b + 1)).toInt / 2 ^ 23
        + cosOf p blk 2 * (c.pm.get (6 * b + 2)).toInt / 2 ^ 23
        + cosOf p blk 3 * (c.pm.get (6 * b + 3)).toInt / 2 ^ 23
        + cosOf p blk 4 * (c.pm.get (6 * b + 4)).toInt / 2 ^ 23
        + cosOf p blk 5 * (c.pm.get (6 * b + 5)).toInt / 2 ^ 23)
       / 2 ^ (c.dexp.get b).toNat) := rfl

/-- Settles O46: IDCT ends with the commit of the coefficients of its range, which COEF reads as inside it and CV marks. -/
theorem idctWritesCoefficients : Obligations.IdctWritesCoefficients := by
  intro s ch blk he hready hstores hok
  have hcoef : (s.chan ch).coef.wf = true := coef_wf_of_channelStoresOk hstores
  have hfirst : (s.chan ch).first ≤ (s.chan ch).last := hok.range.1
  refine ⟨_, (exec_idct_eq_commit he hok).trans (congrArg _ (endCommand_of_ready hready)), rfl,
    fun c hc => chan_setChan_ne _ _ hc, ?_⟩
  rw [chan_setChan_self]
  refine ⟨rfl, commitCoefs_cv_get hfirst _, fun b hb => ?_, fun b hb hb' => ?_⟩
  · rw [commitCoefs_coef_get hcoef hfirst]
    exact if_neg fun hin => hb.elim (Nat.not_lt.2 hin.1) (Nat.not_le.2 hin.2)
  · rw [commitCoefs_coef_get hcoef hfirst, if_pos ⟨hb, hb'⟩, addCoefs_bins_get _ _ hb hb', idctCoef_eq]

end Sys2Proof.Machine
end

section
/-! PROOFS. The error entry (60_exceptions.md R300, R301, R310): an illegal word outside the error state, and what each origin of an
error writes and leaves of the channels. -/

namespace Sys2Proof.Machine

open Sys2Proof.Safety

/-! ## An illegal word (R301) -/

/-- When no command runs, the error entry of a dispatched word is its STATUS alone: there is no SEQ and no staging to clear. -/
theorem raiseError_dispatch_of_ready {s : State} (h : Ready s) (field : BitVec 3) (code : ErrCode) (bin : BitVec 9) :
    raiseError (.dispatch field) code bin s = { s with status := ⟨true, code.number, field, bin⟩ } :=
  endCommand_of_ready (s := { s with status := ⟨true, code.number, field, bin⟩ }) h

/-- Settles O16: an illegal word is the error entry of the dispatch, and a word that selects no command decodes to one. -/
theorem illegalWordRecordsIllegalCmd : Obligations.IllegalWordRecordsIllegalCmd := by
  intro s w he hready
  have illegal : exec (.illegal w) s = .next { s with status := ⟨true, 1, w.extractLsb' 4 3, 0x1FF⟩ } :=
    (exec_illegal_of_ok he w).trans (congrArg _ (raiseError_dispatch_of_ready hready _ _ _))
  refine ⟨illegal, fun hw => ?_⟩
  rw [exec_cmdWrite, decodeCommand_eq_illegal_iff.2 hw, illegal]

/-! ## The failing channel and the others (R310) -/

theorem raiseError_idct_chan_ne {ch c : Chan} (h : c ≠ ch) (code : ErrCode) (bin : BitVec 9) (s : State) :
    (raiseError (.idct ch) code bin s).chan c = s.chan c := by
  rw [raiseError_idct_chan, if_neg h]

theorem raiseError_idct_chan_self (ch : Chan) (code : ErrCode) (bin : BitVec 9) (s : State) :
    (raiseError (.idct ch) code bin s).chan ch = { s.chan ch with cv := [] } := by
  rw [raiseError_idct_chan, if_pos rfl]

/-- Settles O17: of the state the error entry writes STATUS, SEQ, the staging state and the failing channel, where AHT_DECODE
clears PMV and GAQMODE, and IDCT clears CV. -/
theorem errorEntryInvalidatesFailingChannel : Obligations.ErrorEntryInvalidatesFailingChannel := by
  intro s code bin field ch
  refine ⟨raiseError_eq _ code bin s,
    ⟨_, rfl, raiseError_eq _ code bin s, fun c hc => raiseError_aht_chan_ne hc code bin s, ?_⟩,
    ⟨_, rfl, raiseError_eq _ code bin s, fun c hc => raiseError_idct_chan_ne hc code bin s, ?_⟩⟩
  · rw [raiseError_aht_chan_self]
    exact ⟨rfl, Memory.get_nil, rfl⟩
  · rw [raiseError_idct_chan_self]
    exact ⟨Memory.get_nil, rfl⟩

end Sys2Proof.Machine
end

section
/-! PROOFS. Encoding and decoding are inverse to each other: the bit fields (20_memory.md R89), the elements in their slots
(30_encoding.md R121 to R126), and the accesses of the host port. -/

namespace Sys2Proof.Machine

/-! ## A field read is the field written (R88, R89) -/

theorem readBits_bitsOf_append (n v : Nat) (rest : Bits) : readBits n (bitsOf n v ++ rest) = some (v % 2 ^ n, rest) := by
  induction n with
  | zero => simp [bitsOf, Nat.mod_one]
  | succ n ih =>
    rw [bitsOf, List.cons_append, readBits_succ_cons, ih, Nat.mod_pow_succ, ← Nat.toNat_testBit]
    simp only [Option.map_some, Option.some.injEq, Prod.mk.injEq, and_true]
    ring

/-- The bits written for a field depend on the bits below its width only. -/
theorem bitsOf_congr {n v v' : Nat} (h : ∀ i < n, v.testBit i = v'.testBit i) : bitsOf n v = bitsOf n v' := by
  induction n with
  | zero => rfl
  | succ n ih => rw [bitsOf, bitsOf, h n (Nat.lt_succ_self n), ih fun i hi => h i (Nat.lt_succ_of_lt hi)]

theorem eq_bitsOf_append_of_readBits {n u : Nat} {bs rest : Bits} (h : readBits n bs = some (u, rest)) :
    bs = bitsOf n u ++ rest := by
  induction n generalizing u bs with
  | zero =>
    simp only [readBits_zero, Option.some.injEq, Prod.mk.injEq] at h
    exact h.2
  | succ n ih =>
    cases bs with
    | nil => simp at h
    | cons b bs =>
      rw [readBits_succ_cons] at h
      obtain ⟨⟨v, r⟩, hv, hp⟩ := Option.map_eq_some_iff.1 h
      obtain ⟨rfl, rfl⟩ := Prod.mk.inj hp
      obtain ⟨-, -, -, hlt⟩ := readBits_spec hv
      have hbit (i : Nat) : (b.toNat * 2 ^ n + v).testBit i = if i < n then v.testBit i else b.toNat.testBit (i - n) := by
        rw [Nat.mul_comm, Nat.testBit_two_pow_mul_add _ hlt]
      have htop : (b.toNat * 2 ^ n + v).testBit n = b := by
        rw [hbit, if_neg (lt_irrefl n), Nat.sub_self]
        cases b <;> rfl
      have hlow : bitsOf n (b.toNat * 2 ^ n + v) = bitsOf n v := bitsOf_congr fun i hi => by rw [hbit, if_pos hi]
      rw [bitsOf, htop, hlow, List.cons_append, ← ih hv]

/-! ## Signed fields (00_scope.md R16) -/

theorem two_pow_eq_two_mul {n : Nat} (hn : 0 < n) : (2 : Int) ^ n = 2 * 2 ^ (n - 1) := by
  rw [← pow_succ', Nat.sub_add_cancel hn]

theorem signedFits_iff {n : Nat} {m : Int} : signedFits n m = true ↔ -(2 : Int) ^ (n - 1) ≤ m ∧ m < (2 : Int) ^ (n - 1) := by
  simp [signedFits]

/-- The value of a signed field is what was written, when it fits. -/
theorem sext_emod {n : Nat} {m : Int} (hn : 0 < n) (hm : signedFits n m = true) : sext n (m % (2 : Int) ^ n).toNat = m := by
  obtain ⟨hlo, hhi⟩ := signedFits_iff.1 hm
  have hpow := two_pow_eq_two_mul hn
  have hcast : (((m % (2 : Int) ^ n).toNat : Nat) : Int) = m % (2 : Int) ^ n :=
    Int.toNat_of_nonneg (Int.emod_nonneg _ (by positivity))
  have hhalf : 2 ^ (n - 1) ≤ (m % (2 : Int) ^ n).toNat ↔ (2 : Int) ^ (n - 1) ≤ m % (2 : Int) ^ n := by
    rw [← hcast]
    exact_mod_cast Iff.rfl
  rcases le_or_gt 0 m with h0 | h0
  · have hmod : m % (2 : Int) ^ n = m := Int.emod_eq_of_lt h0 (by omega)
    rw [sext, if_neg (by rw [hhalf]; omega), hcast, hmod]
  · have hmod : m % (2 : Int) ^ n = m + 2 ^ n := by
      rw [← Int.add_emod_right, Int.emod_eq_of_lt (by omega) (by omega)]
    rw [sext, if_pos (by rw [hhalf]; omega), hcast, hmod, add_sub_cancel_right]

/-- A signed field is written back as the bits it was read from. -/
theorem emod_sext {n u : Nat} (hu : u < 2 ^ n) : (sext n u % (2 : Int) ^ n).toNat = u := by
  have hmod : sext n u % (2 : Int) ^ n = u := by
    have hu' : (u : Int) < 2 ^ n := by exact_mod_cast hu
    unfold sext
    split
    · rw [Int.sub_emod_right, Int.emod_eq_of_lt (Int.natCast_nonneg u) hu']
    · exact Int.emod_eq_of_lt (Int.natCast_nonneg u) hu'
  rw [hmod, Int.toNat_natCast]

theorem readSBits_signedBitsOf_append {n : Nat} {m : Int} (hn : 0 < n) (hm : signedFits n m = true) (rest : Bits) :
    readSBits n (signedBitsOf n m ++ rest) = some (m, rest) := by
  have hlt : (m % (2 : Int) ^ n).toNat < 2 ^ n := by
    have := Int.emod_lt_of_pos m (show (0 : Int) < 2 ^ n by positivity)
    rw [Int.toNat_lt (Int.emod_nonneg _ (by positivity))]
    exact_mod_cast this
  refine readSBits_eq_some.2 ⟨_, readBits_bitsOf_append n _ rest, ?_⟩
  rw [Nat.mod_eq_of_lt hlt, sext_emod hn hm]

theorem eq_signedBitsOf_append_of_readSBits {n : Nat} {m : Int} {bs rest : Bits} (h : readSBits n bs = some (m, rest)) :
    bs = signedBitsOf n m ++ rest := by
  obtain ⟨u, hu, rfl⟩ := readSBits_eq_some.1 h
  obtain ⟨-, -, -, hlt⟩ := readBits_spec hu
  rw [signedBitsOf, emod_sext hlt]
  exact eq_bitsOf_append_of_readBits hu

/-- The escape is a value of its field. -/
theorem signedFits_escapeValue (w g : Nat) : signedFits (w - g) (escapeValue w g) = true :=
  signedFits_iff.2 ⟨le_rfl, neg_lt_self (by positivity)⟩

/-! ## Decoding what was encoded (R113 to R124) -/

/-- An access of the host port decodes to the instruction whose encoding it is. -/
theorem decodeBus_of_encode {i : Instr} {r : BusReq} (hwf : i.wf = true) (h : encode i = .bus r) : decodeBus r = i := by
  cases i <;> simp only [encode, Encoded.bus.injEq, reduceCtorEq] at h <;> subst h
  case nop | frameStart => rfl
  case ahtDecode ch => exact decodeCommand_ahtDecodeWord ch
  case idct ch blk => exact decodeCommand_idctWord ch blk
  case illegal w => exact decodeCommand_eq_illegal_iff.2 (by simpa [Instr.wf] using hwf)
  case hostRead width a => rfl
  case hostWrite width a v =>
    simp only [Instr.wf, Bool.and_eq_true, bne_iff_ne] at hwf
    exact if_neg fun hcmd => hwf.2 hcmd.2

theorem readBits_bitsOf_toNat_append {n : Nat} (u : BitVec n) (rest : Bits) :
    readBits n (bitsOf n u.toNat ++ rest) = some (u.toNat, rest) := by
  rw [readBits_bitsOf_append, Nat.mod_eq_of_lt u.isLt]

/-- A well-formed element is read in its slot from its encoding, whatever bits follow. -/
theorem decodeElement_of_encode {i : Instr} {bs : Bits} (hwf : i.wf = true) (h : encode i = .bits bs) :
    ∃ slot, slotOf i = some slot ∧ ∀ rest, decodeElement slot (bs ++ rest) = .element i rest := by
  cases i <;> simp only [encode, Encoded.bits.injEq, reduceCtorEq] at h <;> subst h <;>
    refine ⟨_, rfl, fun rest => ?_⟩
  case gaqmod mode => simp [decodeElement, readBits_bitsOf_toNat_append]
  case gaqgain gain => simp [decodeElement, readBits_bitsOf_toNat_append]
  case gaqgrp code => simp [decodeElement, readBits_bitsOf_toNat_append]
  case ditherFill => rfl
  case vqDecode h w v =>
    obtain ⟨-, -, -, -, hv⟩ := of_decide_eq_true hwf
    exact decodeElement_vqcw_of_some (by rw [readBits_bitsOf_append, Nat.mod_eq_of_lt hv]) h
  case gaqPlain h w m =>
    simp only [Instr.wf, Bool.and_eq_true, decide_eq_true_eq] at hwf
    obtain ⟨⟨-, hw, -⟩, hm⟩ := hwf
    rw [decodeElement_gmant_of_some (g := 0) (readSBits_signedBitsOf_append (by omega) hm rest), decodeMantissa_zero]
  case gaqSmall h w g m =>
    simp only [Instr.wf, Bool.and_eq_true, decide_eq_true_eq] at hwf
    obtain ⟨⟨-, -, hw, -, hg, hg2, hesc⟩, hm⟩ := hwf
    rw [decodeElement_gmant_of_some (readSBits_signedBitsOf_append (by omega) hm rest),
      decodeMantissa_of_ne_escape hg hesc]
  case gaqLarge h w g l =>
    simp only [Instr.wf, Bool.and_eq_true, decide_eq_true_eq] at hwf
    obtain ⟨⟨-, -, hw, -, hg, hg2⟩, hl⟩ := hwf
    rw [List.append_assoc,
      decodeElement_gmant_of_some (readSBits_signedBitsOf_append (by omega) (signedFits_escapeValue w g) _),
      decodeMantissa_escape_of_some hg (readSBits_signedBitsOf_append (by omega) hl rest)]

/-- Settles O3: a command word decodes to its command, and a field written in its width is read back from it. -/
theorem encodeThenDecodeGivesInstructionBack : Obligations.EncodeThenDecodeGivesInstructionBack :=
  fun _ hwf => ⟨fun _ => decodeBus_of_encode hwf, fun _ => decodeElement_of_encode hwf⟩

/-! ## Encoding what was decoded (R121, R126) -/

/-- What a mantissa is read on to is encoded as the bits of the mantissa and of what was read after it. -/
theorem encode_of_decodeMantissa {h : Hebap} {w g : Nat} {m : Int} {bs rest : Bits} {i : Instr}
    (hd : decodeMantissa h w g m bs = .element i rest) :
    ∃ used, encode i = .bits (signedBitsOf (w - g) m ++ used) ∧ bs = used ++ rest := by
  unfold decodeMantissa at hd
  split at hd
  case isTrue hesc =>
    obtain ⟨-, rfl⟩ := hesc
    split at hd
    case h_1 l rest' hl =>
      obtain ⟨rfl, rfl⟩ := Fetched.element.inj hd
      exact ⟨_, rfl, eq_signedBitsOf_append_of_readSBits hl⟩
    case h_2 => exact Fetched.noConfusion hd
  case isFalse =>
    split at hd <;> obtain ⟨rfl, rfl⟩ := Fetched.element.inj hd
    case isTrue hg => exact ⟨[], by simp [encode, hg], rfl⟩
    case isFalse => exact ⟨[], by simp [encode], rfl⟩

/-- Settles O4: the bits of every field read are the field's encoding, and a GMANT is encoded with what follows it. -/
theorem elementConsumesExactlyItsEncoding : Obligations.ElementConsumesExactlyItsEncoding := by
  intro slot bs rest i hd
  cases slot with
  | gaqmod | gaqgain | gaqgrp =>
    simp only [decodeElement] at hd
    split at hd
    case h_1 u rest' hu =>
      obtain ⟨rfl, rfl⟩ := Fetched.element.inj hd
      obtain ⟨-, -, -, hlt⟩ := readBits_spec hu
      refine ⟨rfl, _, rfl, ?_⟩
      rw [BitVec.toNat_ofNat, Nat.mod_eq_of_lt hlt]
      exact eq_bitsOf_append_of_readBits hu
    case h_2 => exact Fetched.noConfusion hd
  | dither =>
    obtain ⟨rfl, rfl⟩ := Fetched.element.inj hd
    exact ⟨rfl, [], rfl, rfl⟩
  | vqcw h w =>
    simp only [decodeElement] at hd
    split at hd
    case h_1 v rest' hv =>
      obtain ⟨rfl, rfl⟩ := Fetched.element.inj hd
      exact ⟨rfl, _, rfl, eq_bitsOf_append_of_readBits hv⟩
    case h_2 => exact Fetched.noConfusion hd
  | gmant h w g =>
    simp only [decodeElement] at hd
    split at hd
    case h_1 m mid hm =>
      obtain ⟨used, hused, hmid⟩ := encode_of_decodeMantissa hd
      refine ⟨slotOf_decodeMantissa hd, _, hused, ?_⟩
      rw [List.append_assoc, ← hmid]
      exact eq_signedBitsOf_append_of_readSBits hm
    case h_2 => exact Fetched.noConfusion hd

end Sys2Proof.Machine
end

section
/-! PROOFS. The register map (20_memory.md R82, R83): element addresses and the decoding of an address are inverse to each other. -/

namespace Sys2Proof.Machine

theorem finOfNat_eq {n a : Nat} [NeZero n] {i : Fin n} (h : a = i.val) : Fin.ofNat n a = i :=
  h ▸ Fin.ofNat_val_eq_self i

theorem arrayChan_eq {off : Nat} {ch : Chan} {bin : Fin 256} (h : off = 0x400 * ch.val + 4 * bin.val) : arrayChan off = ch :=
  finOfNat_eq (by omega)

theorem arrayBin_eq {off : Nat} {ch : Chan} {bin : Fin 256} (h : off = 0x400 * ch.val + 4 * bin.val) : arrayBin off = bin :=
  finOfNat_eq (by omega)

/-- The element address of a register decodes to it: the rows of the map are passed over down to its own. -/
theorem regAt_addr (r : Reg) : regAt r.addr = some r := by
  obtain ⟨a, ha⟩ : ∃ a, a = r.addr := ⟨_, rfl⟩
  rw [← ha, regAt]
  cases r with
  | cmd => exact if_pos ha
  | status =>
    rw [if_neg (by rw [ha]; decide)]
    exact if_pos ha
  | range ch =>
    simp only [Reg.addr] at ha
    iterate 2 rw [if_neg (by omega)]
    rw [if_pos (by omega), finOfNat_eq (i := ch) (by omega)]
  | gaqmode ch =>
    simp only [Reg.addr] at ha
    iterate 3 rw [if_neg (by omega)]
    rw [if_pos (by omega), finOfNat_eq (i := ch) (by omega)]
  | bap ch bin =>
    simp only [Reg.addr] at ha
    have hoff : a - 0x1000 = 0x400 * ch.val + 4 * bin.val := by omega
    iterate 4 rw [if_neg (by omega)]
    rw [if_pos (by omega), arrayChan_eq hoff, arrayBin_eq hoff]
  | dexp ch bin =>
    simp only [Reg.addr] at ha
    have hoff : a - 0x3000 = 0x400 * ch.val + 4 * bin.val := by omega
    iterate 5 rw [if_neg (by omega)]
    rw [if_pos (by omega), arrayChan_eq hoff, arrayBin_eq hoff]
  | coef ch bin =>
    simp only [Reg.addr] at ha
    have hoff : a - 0x5000 = 0x400 * ch.val + 4 * bin.val := by omega
    iterate 6 rw [if_neg (by omega)]
    rw [if_pos (by omega), arrayChan_eq hoff, arrayBin_eq hoff]
  | pm ch bin blk =>
    simp only [Reg.addr] at ha
    have hch : (a - 0x8000) / 0x1800 = ch.val := by omega
    have hbin : (a - 0x8000) % 0x1800 / 0x18 = bin.val := by omega
    have hblk : (a - 0x8000) % 0x1800 % 0x18 / 4 = blk.val := by omega
    iterate 7 rw [if_neg (by omega)]
    rw [if_pos (by omega)]
    simp only [finOfNat_eq hch, finOfNat_eq hbin, finOfNat_eq hblk]

theorem addr_of_regAt {a : Nat} {r : Reg} (h4 : a % 4 = 0) (h : regAt a = some r) : r.addr = a := by
  unfold regAt at h
  split_ifs at h <;> cases h
  all_goals
    simp only [Reg.addr, arrayChan, arrayBin, Fin.ofNat]
    omega

theorem addr_aligned (r : Reg) : r.addr % 4 = 0 := by
  cases r <;> simp only [Reg.addr] <;> omega

theorem addr_lt (r : Reg) : r.addr < 2 ^ 17 := by
  cases r <;> simp only [Reg.addr] <;> omega

/-- Settles O19: each row of the register map is inverted by its own branch of the decoding. -/
theorem registerMapIsExact : Obligations.RegisterMapIsExact :=
  ⟨fun r => ⟨regAt_addr r, addr_aligned r, addr_lt r⟩, fun _ _ => addr_of_regAt⟩

/-- The host reaches a register at its element address. -/
theorem busTarget_addr {r : Reg} {allowed : Reg → Bool} (h : allowed r = true) :
    busTarget 32 (BitVec.ofNat 17 r.addr) allowed = .ok r := by
  have ha : (BitVec.ofNat 17 r.addr).toNat = r.addr := by rw [BitVec.toNat_ofNat, Nat.mod_eq_of_lt (addr_lt r)]
  exact busTarget_of_regAt (by rw [ha, addr_aligned]) (by rw [ha, regAt_addr]) h

theorem exec_hostRead_addr {r : Reg} (h : r.readable = true) (s : State) :
    exec (.hostRead 32 (BitVec.ofNat 17 r.addr)) s = .next (readReg r s) :=
  exec_hostRead_of_ok (busTarget_addr h) s

theorem exec_hostWrite_addr {r : Reg} (h : r.writable = true) (v : Word) (s : State) :
    exec (.hostWrite 32 (BitVec.ofNat 17 r.addr) v) s = writeReg r v s :=
  exec_hostWrite_of_ok (busTarget_addr h) v s

end Sys2Proof.Machine
end

section
/-! PROOFS. Host reads and writes of the registers (40_commands.md R150, R151), with the field layouts of 10_state.md. -/

namespace Sys2Proof.Machine

open Sys2Proof.Safety

/-! ## The stores of a channel -/

/-- A store is canonical and lists indexes below `n` only. -/
structure Memory.Fits {w : Nat} (n : Nat) (m : Memory w) : Prop where
  wf    : m.wf = true
  below : ∀ p ∈ m, p.1 < n

theorem Memory.Fits.nil {w n : Nat} : Memory.Fits n ([] : Memory w) := ⟨rfl, by simp⟩

theorem Memory.Fits.set {w n a : Nat} {m : Memory w} (h : m.Fits n) (ha : a < n) (v : BitVec w) : (m.set a v).Fits n where
  wf := Memory.wf_set h.wf a v
  below p hp := by
    rcases Memory.mem_set hp with rfl | hp
    · exact ha
    · exact h.below p hp

/-- What `channelStoresOk` says, store by store. -/
structure StoresOk (c : Channel) : Prop where
  bap   : c.bap.Fits 256
  wBap  : c.wBap.Fits 256
  dexp  : c.dexp.Fits 256
  wDexp : c.wDexp.Fits 256
  pm    : c.pm.Fits 1536
  pmv   : c.pmv.Fits 256
  coef  : c.coef.Fits 256
  cv    : c.cv.Fits 256

theorem channelStoresOk_iff {c : Channel} : channelStoresOk c = true ↔ StoresOk c := by
  simp only [channelStoresOk, below, Bool.and_eq_true, List.all_eq_true, decide_eq_true_eq]
  constructor
  · rintro ⟨⟨⟨⟨⟨⟨⟨⟨h1, h2⟩, h3⟩, h4⟩, h5⟩, h6⟩, h7⟩, h8⟩, ⟨⟨⟨⟨⟨⟨b1, b2⟩, b3⟩, b4⟩, b5⟩, b6⟩, b7⟩, b8⟩
    exact ⟨⟨h1, b1⟩, ⟨h2, b2⟩, ⟨h3, b3⟩, ⟨h4, b4⟩, ⟨h5, b5⟩, ⟨h6, b6⟩, ⟨h7, b7⟩, ⟨h8, b8⟩⟩
  · rintro ⟨⟨h1, b1⟩, ⟨h2, b2⟩, ⟨h3, b3⟩, ⟨h4, b4⟩, ⟨h5, b5⟩, ⟨h6, b6⟩, ⟨h7, b7⟩, ⟨h8, b8⟩⟩
    exact ⟨⟨⟨⟨⟨⟨⟨⟨h1, h2⟩, h3⟩, h4⟩, h5⟩, h6⟩, h7⟩, h8⟩, ⟨⟨⟨⟨⟨⟨b1, b2⟩, b3⟩, b4⟩, b5⟩, b6⟩, b7⟩, b8⟩

/-! ## Registers as words (10_state.md R34, R36, R37) -/

theorem toNat_append_eq_add {n m : Nat} (x : BitVec n) (y : BitVec m) : (x ++ y).toNat = x.toNat * 2 ^ m + y.toNat := by
  rw [BitVec.toNat_append, ← Nat.shiftLeft_add_eq_or_of_lt y.isLt, Nat.shiftLeft_eq]

theorem Status.word_eq (t : Status) :
    t.word = BitVec.ofNat 32 (t.err.toNat + 2 * t.code.toNat + 2 ^ 5 * t.ch.toNat + 2 ^ 8 * t.bin.toNat) := by
  have herr : t.err.toNat ≤ 1 := Bool.toNat_le t.err
  refine BitVec.eq_of_toNat_eq ?_
  simp only [Status.word, toNat_append_eq_add, BitVec.toNat_ofNat, BitVec.toNat_ofBool]
  omega

theorem Channel.rangeWord_eq (c : Channel) : c.rangeWord = BitVec.ofNat 32 (c.start.toNat + 2 ^ 16 * c.stop.toNat) := by
  refine BitVec.eq_of_toNat_eq ?_
  simp only [Channel.rangeWord, toNat_append_eq_add, BitVec.toNat_ofNat]
  omega

theorem Channel.gaqWord_eq (c : Channel) :
    c.gaqWord = if c.gaqValid then BitVec.ofNat 32 (2 ^ 31 + c.gaqMode.toNat) else 0 := by
  unfold Channel.gaqWord
  split
  · refine BitVec.eq_of_toNat_eq ?_
    simp only [toNat_append_eq_add, BitVec.toNat_ofNat]
    omega
  · rfl

/-! ## Host reads (R150) -/

theorem readReg_of_some {r : Reg} {s : State} {v : Word} (h : r.stored s = some v) : readReg r s = { s with rdata := v } := by
  simp only [readReg, h]

theorem readReg_of_none {r : Reg} {s : State} (h : r.stored s = none) :
    readReg r s = { s with rdata := Config.freeWord s.draws &&& r.openBits, draws := s.draws + 1 } := by
  simp only [readReg, h, drawWord]

theorem exec_hostRead_of_stored {r : Reg} {s : State} {v : Word} (hr : r.readable = true) (h : r.stored s = some v) :
    exec (.hostRead 32 (BitVec.ofNat 17 r.addr)) s = .next { s with rdata := v } := by
  rw [exec_hostRead_addr hr, readReg_of_some h]

theorem exec_hostRead_of_not_stored {r : Reg} {s : State} (hr : r.readable = true) (h : r.stored s = none) :
    exec (.hostRead 32 (BitVec.ofNat 17 r.addr)) s =
      .next { s with rdata := Config.freeWord s.draws &&& r.openBits, draws := s.draws + 1 } := by
  rw [exec_hostRead_addr hr, readReg_of_none h]

/-- Settles O21: the register map reaches each register at its element address, and its stored word has the stated layout. -/
theorem hostReadReturnsRegister : Obligations.HostReadReturnsRegister := by
  intro s ch bin blk
  refine ⟨?_, fun h => ?_, ?_, fun h => ?_, fun h => ?_, fun h => ?_, fun h => ?_⟩
  · exact exec_hostRead_of_stored (r := .status) rfl (congrArg some (Status.word_eq _))
  · exact exec_hostRead_of_stored (r := .range ch) rfl (by rw [Reg.stored, if_pos h, Channel.rangeWord_eq])
  · exact exec_hostRead_of_stored (r := .gaqmode ch) rfl (congrArg some (Channel.gaqWord_eq _))
  · exact exec_hostRead_of_stored (r := .bap ch bin) rfl (by rw [Reg.stored, if_pos h, BitVec.ofNat_toNat])
  · exact exec_hostRead_of_stored (r := .dexp ch bin) rfl (by rw [Reg.stored, if_pos h, BitVec.ofNat_toNat])
  · exact exec_hostRead_of_stored (r := .coef ch bin) rfl (if_pos h)
  · exact exec_hostRead_of_stored (r := .pm ch bin blk) rfl (if_pos h)

theorem bit_ne_one_of_eq_zero {x : BitVec 1} (h : x = 0) : x ≠ 1 := by
  rw [h]
  decide

theorem and_low_five_lt (v : Word) : (v &&& 0x1F#32).toNat < 32 := by
  rw [BitVec.toNat_and]
  exact Nat.lt_succ_of_le Nat.and_le_right

/-- Settles O22: a cell that holds nothing is read as a draw in the register's open bits. -/
theorem hostReadOfInvalidCellIsADraw : Obligations.HostReadOfInvalidCellIsADraw := by
  intro s ch bin blk
  refine ⟨fun h => ⟨_, ?_, exec_hostRead_of_not_stored (r := .range ch) rfl (if_neg (Bool.eq_false_iff.1 h))⟩,
    fun h => ⟨_, and_low_five_lt _, exec_hostRead_of_not_stored (r := .bap ch bin) rfl (if_neg (bit_ne_one_of_eq_zero h))⟩,
    fun h => ⟨_, and_low_five_lt _, exec_hostRead_of_not_stored (r := .dexp ch bin) rfl (if_neg (bit_ne_one_of_eq_zero h))⟩,
    fun h => ⟨_, exec_hostRead_of_not_stored (r := .coef ch bin) rfl (if_neg (bit_ne_one_of_eq_zero h))⟩,
    fun h => ⟨_, exec_hostRead_of_not_stored (r := .pm ch bin blk) rfl (if_neg (bit_ne_one_of_eq_zero h))⟩⟩
  rw [Reg.openBits, BitVec.and_assoc]
  exact BitVec.and_zero

/-! ## Host writes (R151) -/

theorem exec_hostWrite_range (ch : Chan) (v : Word) (s : State) :
    exec (.hostWrite 32 (BitVec.ofNat 17 (Reg.range ch).addr) v) s = .next (s.setChan ch ((s.chan ch).writeRange v)) :=
  exec_hostWrite_addr rfl v s

theorem exec_hostWrite_bap (ch : Chan) (bin : Fin 256) (v : Word) (s : State) :
    exec (.hostWrite 32 (BitVec.ofNat 17 (Reg.bap ch bin).addr) v) s =
      .next (s.setChan ch ((s.chan ch).writeBap bin.val v)) :=
  exec_hostWrite_addr rfl v s

theorem exec_hostWrite_dexp (ch : Chan) (bin : Fin 256) (v : Word) (s : State) :
    exec (.hostWrite 32 (BitVec.ofNat 17 (Reg.dexp ch bin).addr) v) s =
      .next (s.setChan ch ((s.chan ch).writeDexp bin.val v)) :=
  exec_hostWrite_addr rfl v s

/-- Settles O23: a write replaces one channel by the channel with the written fields. -/
theorem hostWriteStoresItsFields : Obligations.HostWriteStoresItsFields := by
  intro s ch bin v hs
  have hok := channelStoresOk_iff.1 hs
  refine ⟨⟨_, exec_hostWrite_range ch v s, rfl, fun c hc => chan_setChan_ne s _ hc, chan_setChan_self _ _ _⟩,
    ⟨_, exec_hostWrite_bap ch bin v s, rfl, fun c hc => chan_setChan_ne s _ hc, ?_⟩,
    ⟨_, exec_hostWrite_dexp ch bin v s, rfl, fun c hc => chan_setChan_ne s _ hc, ?_⟩⟩
  · rw [chan_setChan_self]
    exact ⟨rfl, Memory.get_set_self hok.bap.wf _ _, Memory.get_set_self hok.wBap.wf _ _, fun b hb =>
      ⟨Memory.get_set_ne hok.bap.wf hb _, Memory.get_set_ne hok.wBap.wf hb _⟩⟩
  · rw [chan_setChan_self]
    exact ⟨rfl, Memory.get_set_self hok.dexp.wf _ _, Memory.get_set_self hok.wDexp.wf _ _, fun b hb =>
      ⟨Memory.get_set_ne hok.dexp.wf hb _, Memory.get_set_ne hok.wDexp.wf hb _⟩⟩

/-! ## A repeated write, and a read after a write (20_memory.md R97, R99) -/

theorem Channel.writeBap_writeBap {c : Channel} (h : StoresOk c) (bin : Nat) (v : Word) :
    (c.writeBap bin v).writeBap bin v = c.writeBap bin v := by
  simp [Channel.writeBap, Memory.set_set_self h.bap.wf, Memory.set_set_self h.wBap.wf]

theorem Channel.writeDexp_writeDexp {c : Channel} (h : StoresOk c) (bin : Nat) (v : Word) :
    (c.writeDexp bin v).writeDexp bin v = c.writeDexp bin v := by
  simp [Channel.writeDexp, Memory.set_set_self h.dexp.wf, Memory.set_set_self h.wDexp.wf]

/-- The fields of RANGE are the open bits of the word written. -/
theorem rangeWord_writeRange (c : Channel) (v : Word) : (c.writeRange v).rangeWord = v &&& 0x01FF01FF#32 := by
  have hstart : (v &&& 0x01FF01FF#32).extractLsb' 0 9 = v.extractLsb' 0 9 := by
    rw [BitVec.extractLsb'_and]
    exact BitVec.and_allOnes
  have hstop : (v &&& 0x01FF01FF#32).extractLsb' 16 9 = v.extractLsb' 16 9 := by
    rw [BitVec.extractLsb'_and]
    exact BitVec.and_allOnes
  have hlow : (v &&& 0x01FF01FF#32).extractLsb' 9 7 = 0#7 := by
    rw [BitVec.extractLsb'_and]
    exact BitVec.and_zero
  have hhigh : (v &&& 0x01FF01FF#32).extractLsb' 25 7 = 0#7 := by
    rw [BitVec.extractLsb'_and]
    exact BitVec.and_zero
  refine BitVec.eq_of_toNat_eq ?_
  rw [Channel.rangeWord_eq, Channel.writeRange, startField, stopField, ← hstart, ← hstop]
  simp only [← BitVec.toNat_inj, BitVec.extractLsb'_toNat, Nat.shiftRight_eq_div_pow, BitVec.toNat_ofNat] at hlow hhigh ⊢
  omega

theorem setWidth_lowFive (v : Word) : (lowFive v).setWidth 32 = v &&& 0x1F#32 := by
  refine BitVec.eq_of_toNat_eq ?_
  have hmask : v.toNat &&& 31 % 2 ^ 32 = v.toNat % 32 := Nat.and_two_pow_sub_one_eq_mod v.toNat 5
  simp only [lowFive, BitVec.toNat_setWidth, BitVec.extractLsb'_toNat, BitVec.toNat_and, BitVec.toNat_ofNat]
  omega

/-- Settles O24: the written channel is a fixed point of the same write, and it stores the open bits of the word. -/
theorem repeatedAndReadBackWrites : Obligations.RepeatedAndReadBackWrites := by
  rintro s t r v hs ⟨ch, bin, rfl | rfl | rfl⟩ ht
  · rw [exec_hostWrite_range] at ht
    cases ht
    refine ⟨?_, exec_hostRead_of_stored rfl ?_⟩
    · rw [exec_hostWrite_range, chan_setChan_self, setChan_setChan]
      rfl
    · rw [Reg.stored, chan_setChan_self, rangeWord_writeRange]
      rfl
  · have hok := channelStoresOk_iff.1 (hs ch)
    rw [exec_hostWrite_bap] at ht
    cases ht
    refine ⟨?_, exec_hostRead_of_stored rfl ?_⟩
    · rw [exec_hostWrite_bap, chan_setChan_self, setChan_setChan, Channel.writeBap_writeBap hok]
    · rw [Reg.stored, chan_setChan_self, Channel.writeBap, Memory.get_set_self hok.wBap.wf, Memory.get_set_self hok.bap.wf,
        setWidth_lowFive]
      rfl
  · have hok := channelStoresOk_iff.1 (hs ch)
    rw [exec_hostWrite_dexp] at ht
    cases ht
    refine ⟨?_, exec_hostRead_of_stored rfl ?_⟩
    · rw [exec_hostWrite_dexp, chan_setChan_self, setChan_setChan, Channel.writeDexp_writeDexp hok]
    · rw [Reg.stored, chan_setChan_self, Channel.writeDexp, Memory.get_set_self hok.wDexp.wf,
        Memory.get_set_self hok.dexp.wf, setWidth_lowFive]
      rfl

end Sys2Proof.Machine
end

section
/-! PROOFS. Stepping (20_memory.md R100), reset (70_reset_and_hazards.md R340, R343), the commands dropped in the error state
(40_commands.md R154), and words and bits written out. -/

namespace Sys2Proof.Machine

open Sys2Proof.Safety

/-- Settles O1: the decoders evaluate on the words and bits of the spec. -/
theorem writtenOutWordsDecode : Obligations.WrittenOutWordsDecode := by
  unfold Obligations.WrittenOutWordsDecode
  decide

/-! ## Stepping -/

theorem step_of_access {s : State} {r : BusReq} {rest : List Event} (hidle : s.seq.phase = .idle)
    (hhost : s.host = .access r :: rest) : step s = exec (decodeBus r) { s with host := rest } := by
  rw [step_of_idle hidle]
  simp only [stepHost, hhost]

/-- Settles O5: an idle step is the host's event, and an access is executed as what it decodes to. -/
theorem stepRunsHostAccess : Obligations.StepRunsHostAccess := fun _ _ _ => step_of_access

/-- Settles O6: a step of a running command is the action of SEQ, here the element decoded at the cursor. -/
theorem stepRunsFetchedElement : Obligations.StepRunsFetchedElement := by
  intro s slot i rest hrun hact hdec
  rw [step, if_neg hrun]
  simp only [stepSeq, hact, hdec]

theorem decodeBus_cmdWrite (w : Word) : decodeBus (cmdWrite w) = decodeCommand w := by
  rw [cmdWrite, decodeBus, if_pos ⟨rfl, rfl⟩]

theorem withFetchWord_host (s : State) (w : Word) : (s.withFetchWord 32 w.toNat).host = .access (cmdWrite w) :: s.host := by
  rw [State.withFetchWord, Nat.mod_eq_of_lt w.isLt, BitVec.ofNat_toNat, BitVec.setWidth_eq]

/-- Settles O7: the placed word is the first access of the queue, and taking it off leaves the queue as it was. -/
theorem fetchWordRunsItsCommand : Obligations.FetchWordRunsItsCommand := by
  intro s w
  rw [step_of_access rfl (withFetchWord_host s w), decodeBus_cmdWrite]
  rfl

/-! ## Reset (R340, R343) -/

theorem step_of_reset {s : State} {rest : List Event} (hidle : s.seq.phase = .idle) (hhost : s.host = .reset :: rest) :
    step s = .next (resetBlock { s with host := rest }) := by
  rw [step_of_idle hidle]
  simp only [stepHost, hhost]

theorem channelReset_cleared : Channel.reset.gaqWord = 0 ∧ Channel.reset.wRange = false ∧
    ∀ b, Channel.reset.wBap.get b = 0 ∧ Channel.reset.wDexp.get b = 0 ∧ Channel.reset.pmv.get b = 0 ∧
      Channel.reset.cv.get b = 0 :=
  ⟨rfl, rfl, fun _ => ⟨rfl, rfl, rfl, rfl⟩⟩

/-- Settles O10: every channel after a reset is the cleared one. -/
theorem resetClearsStateAndKeepsAgents : Obligations.ResetClearsStateAndKeepsAgents := by
  refine ⟨fun s rest hidle hhost => ⟨_, step_of_reset hidle hhost, Status.word_clear, rfl, fun ch => ?_, rfl, rfl, rfl, rfl, rfl⟩,
    Status.word_clear, rfl, fun ch => ?_⟩
  · rw [resetBlock_chan]
    exact channelReset_cleared
  · rw [reset_chan]
    exact channelReset_cleared

/-- Settles O11: after reset every channel is empty, STATUS is 0 and SEQ is IDLE, and the reference widths lie in their ranges. -/
theorem invariantHoldsAfterReset : Obligations.InvariantHoldsAfterReset := by
  refine ⟨⟨fun ch => ?_, fun ch => ?_, ⟨rfl, rfl⟩, rfl, rfl⟩, ⟨rfl, rfl⟩, ?_⟩
  · rw [reset_chan]
    rfl
  · rw [reset_chan]
    rfl
  · decide

/-- Settles O14: the channels after reset are those of a new frame already. -/
theorem frameStartAfterResetChangesNothing : Obligations.FrameStartAfterResetChangesNothing := by
  have hchans : (returnFromError State.reset).chans = State.reset.chans := chans_ext fun ch => by
    rw [returnFromError_chan, reset_chan]
    rfl
  refine (exec_frameStart _).trans (congrArg Host.Outcome.next ?_)
  rw [returnFromError, ← show (returnFromError State.reset).chans = State.reset.chans.map Channel.newFrame from rfl, hchans]
  rfl

/-! ## The error state (R154) -/

/-- Settles O15: each of the four runs only outside the error state. -/
theorem errorStateDropsCommands : Obligations.ErrorStateDropsCommands := fun s ch blk _ he =>
  ⟨exec_nop s, unlessInError_of_error (ahtDecode ch) he, unlessInError_of_error (idct ch blk) he, unlessInError_of_error _ he⟩

end Sys2Proof.Machine
end

section
/-! PROOFS. The gain elements (41_gaq_gain.md R195 to R198), how SEQ goes on after a mantissa (42_mantissa.md R220), and the six
draws of DITHER_FILL (R222). -/

namespace Sys2Proof.Machine

/-! ## GAQGAIN and GAQGRP -/

theorem exec_gaqgain (gain : BitVec 1) (s : State) :
    exec (.gaqgain gain) s = .next (nextGainBin s.seq.gc (addGains [gainOfBit s.staging.mode gain] s)) := rfl

theorem gainOfBit_one : ∀ gain : BitVec 1, gainOfBit 1 gain = if gain = 1 then 1 else 0 := by decide

theorem gainOfBit_two : ∀ gain : BitVec 1, gainOfBit 2 gain = if gain = 1 then 2 else 0 := by decide

/-- Settles O26: the appended gain is the bit times 1 in HALF-STEP and times 2 in QUARTER-STEP. -/
theorem gaqgainAppendsScaledBit : Obligations.GaqgainAppendsScaledBit := by
  refine fun s gain => ⟨fun hm => ?_, fun hm => ?_⟩
  · rw [exec_gaqgain, hm, gainOfBit_one]
    rfl
  · rw [exec_gaqgain, hm, gainOfBit_two]
    rfl

theorem clampCode_of_le {code : BitVec 5} (hc : code.toNat ≤ 26) : clampCode code = code.toNat := if_neg (Nat.not_lt.2 hc)

theorem clampCode_le (code : BitVec 5) : clampCode code ≤ 26 := by
  unfold clampCode
  split
  · exact le_rfl
  · omega

theorem groupFaults_eq_false_of_le {code : BitVec 5} (hc : code.toNat ≤ 26) (p : Params) : groupFaults p code = false := by
  simp [groupFaults, Nat.not_lt.2 hc]

theorem ungroup_le_two {code g : Nat} (hc : code ≤ 26) (hg : g ∈ ungroup code) : g ≤ 2 := by
  simp only [ungroup, List.mem_cons, List.not_mem_nil, or_false] at hg
  omega

/-- Settles O27: a code of at most 26 is in range under either policy and is ungrouped as it is. -/
theorem gaqgrpAppendsThreeGains : Obligations.GaqgrpAppendsThreeGains := by
  intro s code hc
  refine ⟨?_, by omega, by omega, by omega⟩
  rw [exec_gaqgrp_of_not_faults (groupFaults_eq_false_of_le hc s.rom), clampCode_of_le hc]
  rfl

theorem gainOfBit_le_two {mode : BitVec 2} (hm : mode = 1 ∨ mode = 2) (gain : BitVec 1) : gainOfBit mode gain ≤ 2 := by
  rcases hm with rfl | rfl
  · rw [gainOfBit_one]
    split <;> omega
  · rw [gainOfBit_two]
    split <;> omega

theorem forall_le_two_append {gs hs : List Nat} (hgs : ∀ g ∈ gs, g ≤ 2) (hhs : ∀ g ∈ hs, g ≤ 2) : ∀ g ∈ gs ++ hs, g ≤ 2 :=
  fun g hg => (List.mem_append.1 hg).elim (hgs g) (hhs g)

/-- Settles O29: an appended gain is a scaled bit or a digit of a code of at most 26, and the error entry empties the list. -/
theorem gainsAreAtMostTwo : Obligations.GainsAreAtMostTwo := by
  rintro s t i (⟨gain, rfl, hm⟩ | ⟨code, rfl⟩) ht hgs
  · rw [exec_gaqgain] at ht
    cases ht
    exact forall_le_two_append hgs (by simpa using gainOfBit_le_two hm gain)
  · cases hf : groupFaults s.rom code with
    | true =>
      rw [exec_gaqgrp_of_faults hf] at ht
      cases ht
      simp [Staging.empty]
    | false =>
      rw [exec_gaqgrp_of_not_faults hf] at ht
      cases ht
      exact forall_le_two_append hgs fun g hg => ungroup_le_two (clampCode_le code) hg

/-! ## SEQ after a mantissa (R199, R220) -/

theorem stageMantissa_seq_of_lt {s : State} (hb : s.seq.blk < 5) (v : Int) :
    (stageMantissa v s).seq = { s.seq with blk := s.seq.blk + 1 } :=
  congrArg State.seq (if_neg (Nat.not_le.2 hb))

theorem stageMantissa_seq_of_last {s : State} (hb : s.seq.blk = 5) (v : Int) :
    (stageMantissa v s).seq = { s.seq with
      bin := s.seq.bin + 1, blk := 0, k := if takesGain s.staging.mode s.binHebap then s.seq.k + 1 else s.seq.k } :=
  congrArg State.seq (if_pos hb.ge)

/-- Settles O36: the three elements stage a value and go on alike. -/
theorem mantissaElementsAdvanceBlocks : Obligations.MantissaElementsAdvanceBlocks := by
  intro s t i hi ht
  obtain ⟨v, rfl⟩ : ∃ v, t = stageMantissa v s := by
    rcases hi with ⟨h, w, m, rfl⟩ | ⟨h, w, g, m, rfl⟩ | ⟨h, w, g, l, rfl⟩ <;> cases ht <;> exact ⟨_, rfl⟩
  refine ⟨fun hb => stageMantissa_seq_of_lt hb v, fun hb => ?_⟩
  rw [stageMantissa_seq_of_last hb]
  simp only [takesGain_iff]

/-! ## The draws of DITHER_FILL (20_memory.md R92, R222) -/

/-- The `i`-th dither value from `s` on: the listed one, and past the list the free value of that call. -/
def ditherAt (s : State) (i : Nat) : BitVec 23 := s.dither[i]?.getD (Config.freeDither (s.ditherCount + i))

/-- The pre-mantissa of the `i`-th dither value from `s` on. -/
def ditherWord (s : State) (i : Nat) : Word := toReg (ditherValue (ditherAt s i))

theorem ditherBlock_spm (s : State) (blk : Nat) :
    (ditherBlock s blk).staging.spm = s.staging.spm.set (pmIndex s.seq.bin blk) (ditherWord s 0) := by
  rw [ditherWord, ditherAt, ← List.head?_eq_getElem?, ← List.headD_eq_head?_getD, Nat.add_zero, ← drawDither_value]
  simp only [ditherBlock, stagePremant_staging, drawDither_state]

/-- The draws before it leave the `n`-th draw the next one. -/
theorem ditherWord_foldl_ditherBlock (n : Nat) (s : State) :
    ditherWord ((List.range n).foldl ditherBlock s) 0 = ditherWord s n := by
  rw [foldl_ditherBlock_eq, ditherWord, ditherWord, ditherAt, ditherAt]
  simp

/-- Block `i` of the bin is staged with the `i`-th draw. -/
theorem foldl_ditherBlock_range_spm (n : Nat) (s : State) :
    ((List.range n).foldl ditherBlock s).staging.spm =
      (List.range n).foldl (fun m blk => m.set (pmIndex s.seq.bin blk) (ditherWord s blk)) s.staging.spm := by
  induction n with
  | zero => rfl
  | succ n ih =>
    have hseq : ((List.range n).foldl ditherBlock s).seq = s.seq := by rw [foldl_ditherBlock_eq]
    rw [List.range_succ, List.foldl_append, List.foldl_append, ← ih]
    simp only [List.foldl_cons, List.foldl_nil]
    rw [ditherBlock_spm, hseq, ditherWord_foldl_ditherBlock]

theorem exec_ditherFill (s : State) : exec .ditherFill s = .next (applyDitherFill s) := rfl

theorem applyDitherFill_spm (s : State) :
    (applyDitherFill s).staging.spm =
      (List.range 6).foldl (fun m blk => m.set (pmIndex s.seq.bin blk) (ditherWord s blk)) s.staging.spm := by
  rw [applyDitherFill, nextBin_staging, foldl_ditherBlock_range_spm]

theorem applyDitherFill_get {s : State} (hs : s.staging.spm.wf = true) (a : Nat) :
    (applyDitherFill s).staging.spm.get a =
      if 6 * s.seq.bin ≤ a ∧ a < 6 * s.seq.bin + 6 then ditherWord s (a - 6 * s.seq.bin) else s.staging.spm.get a := by
  rw [applyDitherFill_spm, foldl_set_bin_get hs _ (ditherWord s)]

/-- All that DITHER_FILL changes: the dither source, the staging copy and SEQ. -/
theorem applyDitherFill_frame (s : State) :
    applyDitherFill s = { s with
      dither := s.dither.drop 6
      ditherCount := s.ditherCount + 6
      staging := { s.staging with spm := (applyDitherFill s).staging.spm }
      seq := (nextBin s).seq } := by
  conv_lhs => rw [applyDitherFill, foldl_ditherBlock_eq]
  rw [applyDitherFill, nextBin_staging, List.length_range]
  rfl

/-- A dithered pre-mantissa is exact: a 23-bit value less 2^22 fits a word. -/
theorem ditherWord_toInt (s : State) (i : Nat) : (ditherWord s i).toInt = ((ditherAt s i).toNat : Int) - 4194304 := by
  have := (ditherAt s i).isLt
  exact toReg_toInt (by unfold ditherValue; omega) (by unfold ditherValue; omega)

/-- Settles O30: block `i` takes the `i`-th listed value, and a bin of hebap 0 takes no gain. -/
theorem ditherFillStagesSixDraws : Obligations.DitherFillStagesSixDraws := by
  intro s d rest hs hh hd
  have hgain : takesGain s.staging.mode s.binHebap = false := takesGain_eq_false_of_le (by rw [hh]; decide) _
  have hdrop : s.dither.drop 6 = rest := by rw [hd, List.drop_left' d.length_toList]
  refine ⟨_, exec_ditherFill s, ?_, fun i => ?_, fun a ha => ?_⟩
  · conv_lhs => rw [applyDitherFill_frame, hdrop, nextBin_of_no_gain hgain]
  · have hat : ditherAt s i.val = d[i.val]'i.isLt := by
      rw [ditherAt, hd, List.getElem?_append_left (by simp)]
      simp
    rw [applyDitherFill_get hs, if_pos (by omega), Nat.add_sub_cancel_left, ditherWord_toInt, hat]
    rfl
  · rw [applyDitherFill_get hs, if_neg (by omega)]

/-- Settles O31: listed or free, a dither value has 23 bits. -/
theorem ditherValuesStayInRange : Obligations.DitherValuesStayInRange := by
  intro s hs
  refine ⟨_, exec_ditherFill s, ?_, ?_, ?_, ?_, fun i => ?_⟩
  · rw [applyDitherFill_frame]
  · rw [applyDitherFill_frame]
  · rw [applyDitherFill_frame]
  · rw [applyDitherFill_frame]
  · have := (ditherAt s (6 * s.seq.bin + i.val - 6 * s.seq.bin)).isLt
    rw [applyDitherFill_get hs, if_pos (by omega), ditherWord_toInt]
    omega

end Sys2Proof.Machine
end

section
/-! PROOFS. Bounds of the values: the gain-adaptive mantissas (42_mantissa.md R230, R233), and the accumulator of IDCT with its
linearity up to the floors (43_idct.md R266, R267). -/

namespace Sys2Proof.Machine

/-! ## The mantissas (42_mantissa.md R230, R233) -/

/-- A signed field of `n` bits, shifted up by `k`, fills the signed range of `n + k` bits. -/
theorem shl_bounds {n k e : Nat} {m : Int} (hm : signedFits n m = true) (he : n - 1 + k = e) :
    -(2 : Int) ^ e ≤ shl m k ∧ shl m k < (2 : Int) ^ e := by
  obtain ⟨hlo, hhi⟩ := signedFits_iff.1 hm
  have hk : (0 : Int) < 2 ^ k := by positivity
  rw [← he, pow_add, shl]
  exact ⟨by nlinarith, by nlinarith⟩

/-- Settles O37: a field of w - g bits shifted up by 24 - w has 24 - g bits. -/
theorem gaqSmallValueIsBounded : Obligations.GaqSmallValueIsBounded := by
  intro h w g m hwf
  simp only [Instr.wf, Bool.and_eq_true, decide_eq_true_eq] at hwf
  obtain ⟨⟨-, -, hw, hw16, hg, hg2, -⟩, hm⟩ := hwf
  exact shl_bounds hm (by omega)

theorem referenceRemap1_bounds : ∀ h : Hebap, 0 ≤ remap1Of referenceParams h ∧ remap1Of referenceParams h ≤ 4681 := by
  decide

theorem referenceRemapA_bounds : ∀ (h : Hebap) (g : Fin 3),
    -32768 ≤ remapAOf referenceParams h g ∧ remapAOf referenceParams h g ≤ 0 := by
  decide

theorem referenceRemapB_bounds : ∀ (h : Hebap) (g : Fin 3),
    -32768 < remapBOf referenceParams h g ∧ remapBOf referenceParams h g ≤ 0 := by
  decide

/-- A factor between -1 and 0, floored, takes a non-negative value no further down than to 0, and a negative one no further up. -/
theorem asr_remap_bounds {a x : Int} (ha : -32768 ≤ a) (ha0 : a ≤ 0) :
    (0 ≤ x → -x ≤ asr (a * x) 15 ∧ asr (a * x) 15 ≤ 0) ∧ (x < 0 → 0 ≤ asr (a * x) 15 ∧ asr (a * x) 15 ≤ -x) := by
  unfold asr
  refine ⟨fun hx => ?_, fun hx => ?_⟩
  · have hlo : -x * 32768 ≤ a * x := by nlinarith
    have hhi : a * x ≤ 0 := by nlinarith
    omega
  · have hlo : 0 ≤ a * x := by nlinarith
    have hhi : a * x ≤ -x * 32768 := by nlinarith
    omega

theorem gaqLargeValue_reference_bounds {h : Hebap} {w g : Nat} {l : Int} (hwf : (Instr.gaqLarge h w g l).wf = true) :
    -(2 : Int) ^ 24 < gaqLargeValue referenceParams h w g l ∧ gaqLargeValue referenceParams h w g l < (2 : Int) ^ 24 := by
  simp only [Instr.wf, Bool.and_eq_true, decide_eq_true_eq] at hwf
  obtain ⟨⟨-, -, hw, hw16, hg, hg2⟩, hl⟩ := hwf
  obtain ⟨hA, hA0⟩ := referenceRemapA_bounds h ⟨g, by omega⟩
  obtain ⟨hB, hB0⟩ := referenceRemapB_bounds h ⟨g, by omega⟩
  obtain ⟨hxlo, hxhi⟩ := shl_bounds (k := 24 - (w - 2 + g)) (e := 23) hl (by omega)
  obtain ⟨hnonneg, hneg⟩ := asr_remap_bounds (x := shl l (24 - (w - 2 + g))) hA hA0
  have hoff : (2 : Int) ^ (23 - g) ≤ 2 ^ 22 := pow_le_pow_right₀ (by decide) (by omega)
  have hoff0 : (0 : Int) < 2 ^ (23 - g) := by positivity
  unfold gaqLargeValue largeOffset
  simp only at hB hB0 hnonneg hneg ⊢
  split
  · rename_i hx
    obtain ⟨hlo, hhi⟩ := hnonneg hx
    omega
  · rename_i hx
    obtain ⟨hlo, hhi⟩ := hneg (not_le.1 hx)
    omega

theorem gaqPlainValue_reference_bounds {h : Hebap} {w : Nat} {m : Int} (hwf : (Instr.gaqPlain h w m).wf = true) :
    -(115 * (2 : Int) ^ 23) < 100 * gaqPlainValue referenceParams h w m ∧
      100 * gaqPlainValue referenceParams h w m < 115 * (2 : Int) ^ 23 := by
  simp only [Instr.wf, Bool.and_eq_true, decide_eq_true_eq] at hwf
  obtain ⟨⟨-, hw, hw16⟩, hm⟩ := hwf
  obtain ⟨hR0, hR⟩ := referenceRemap1_bounds h
  obtain ⟨hxlo, hxhi⟩ := shl_bounds (k := 24 - w) (e := 23) hm (by omega)
  unfold gaqPlainValue asr
  generalize shl m (24 - w) = x at *
  generalize remap1Of referenceParams h = r at *
  have hlo : -(4681 * 2 ^ 23) ≤ r * x := by nlinarith
  have hhi : r * x ≤ 4681 * 2 ^ 23 := by nlinarith
  simp only
  omega

/-- Settles O38: the entries of REMAP_A and REMAP_B lie in [-1, 0], those of REMAP1 in [0, 1/7]. -/
theorem referenceTableValuesAreBounded : Obligations.ReferenceTableValuesAreBounded :=
  fun _ _ _ _ _ _ => ⟨gaqLargeValue_reference_bounds, gaqPlainValue_reference_bounds⟩

/-! ## The accumulator of IDCT (R262, R266) -/

theorem idctSum_eq (p : Params) (blk : Blk) (pm : Nat → Int) :
    idctSum p blk pm = pm 0 + asr (cosOf p blk 1 * pm 1) 23 + asr (cosOf p blk 2 * pm 2) 23 + asr (cosOf p blk 3 * pm 3) 23
      + asr (cosOf p blk 4 * pm 4) 23 + asr (cosOf p blk 5 * pm 5) 23 := rfl

/-- A product of a 25-bit table entry and a 32-bit pre-mantissa, floored, has 33 bits. -/
theorem asr_cosOf_mul_bounds (p : Params) (blk : Blk) (i : Nat) (x : Word) :
    -(2 : Int) ^ 32 ≤ asr (cosOf p blk i * x.toInt) 23 ∧ asr (cosOf p blk i * x.toInt) 23 ≤ (2 : Int) ^ 32 := by
  have hc : |cosOf p blk i| ≤ 2 ^ 24 := abs_le.2 ⟨BitVec.le_toInt _, BitVec.toInt_lt.le⟩
  have hx : |x.toInt| ≤ 2 ^ 31 := abs_le.2 ⟨BitVec.le_toInt _, BitVec.toInt_lt.le⟩
  have hprod : |cosOf p blk i * x.toInt| ≤ 2 ^ 24 * 2 ^ 31 := by
    rw [abs_mul]
    exact mul_le_mul hc hx (abs_nonneg _) (by positivity)
  obtain ⟨hlo, hhi⟩ := abs_le.1 hprod
  unfold asr
  omega

/-- Settles O49: one 32-bit term and five of 33 bits. -/
theorem idctAccumulatorIsBounded : Obligations.IdctAccumulatorIsBounded := by
  intro p blk c b
  have h0lo := BitVec.le_toInt (c.pm.get (pmIndex b 0))
  have h0hi := BitVec.toInt_lt (x := c.pm.get (pmIndex b 0))
  have h1 := asr_cosOf_mul_bounds p blk 1 (c.pm.get (pmIndex b 1))
  have h2 := asr_cosOf_mul_bounds p blk 2 (c.pm.get (pmIndex b 2))
  have h3 := asr_cosOf_mul_bounds p blk 3 (c.pm.get (pmIndex b 3))
  have h4 := asr_cosOf_mul_bounds p blk 4 (c.pm.get (pmIndex b 4))
  have h5 := asr_cosOf_mul_bounds p blk 5 (c.pm.get (pmIndex b 5))
  rw [idctSum_eq]
  unfold Channel.premant
  omega

/-! ## Linearity up to the floors (R267) -/

/-- Scaling before the floor gains less than scaling by `k` can lose. -/
theorem asr_mul_sub_bounds {k : Int} (hk : 0 < k) (a : Int) (n : Nat) :
    0 ≤ asr (k * a) n - k * asr a n ∧ asr (k * a) n - k * asr a n ≤ k - 1 := by
  have hpos : (0 : Int) < 2 ^ n := by positivity
  have hfloor : 2 ^ n * (a / 2 ^ n) ≤ a := Int.mul_ediv_self_le hpos.ne'
  have hceil : a < 2 ^ n * (a / 2 ^ n) + 2 ^ n := Int.lt_mul_ediv_self_add hpos
  unfold asr
  have hlo : k * (a / 2 ^ n) ≤ k * a / 2 ^ n := (Int.le_ediv_iff_mul_le hpos).2 (by nlinarith)
  have hhi : k * a / 2 ^ n < k * (a / 2 ^ n) + k := (Int.ediv_lt_iff_lt_mul hpos).2 (by nlinarith)
  omega

theorem asr_mul_of_dvd {a : Int} {n : Nat} (h : (2 : Int) ^ n ∣ a) (k : Int) : asr (k * a) n = k * asr a n :=
  Int.mul_ediv_assoc k h

/-- Settles O50: each of the five floored terms is linear up to its floor, and linear when nothing is floored off. -/
theorem idctIsLinearUpToFloors : Obligations.IdctIsLinearUpToFloors := by
  intro p blk pm k hk
  have hterm (i : Nat) : cosOf p blk i * (k * pm i) = k * (cosOf p blk i * pm i) := by ring
  simp only [idctSum_eq, hterm]
  refine ⟨?_, fun hdvd => ?_⟩
  · have h1 := asr_mul_sub_bounds hk (cosOf p blk 1 * pm 1) 23
    have h2 := asr_mul_sub_bounds hk (cosOf p blk 2 * pm 2) 23
    have h3 := asr_mul_sub_bounds hk (cosOf p blk 3 * pm 3) 23
    have h4 := asr_mul_sub_bounds hk (cosOf p blk 4 * pm 4) 23
    have h5 := asr_mul_sub_bounds hk (cosOf p blk 5 * pm 5) 23
    exact ⟨by linarith, by linarith⟩
  · rw [asr_mul_of_dvd (hdvd 1 (by omega) (by omega)), asr_mul_of_dvd (hdvd 2 (by omega) (by omega)),
      asr_mul_of_dvd (hdvd 3 (by omega) (by omega)), asr_mul_of_dvd (hdvd 4 (by omega) (by omega)),
      asr_mul_of_dvd (hdvd 5 (by omega) (by omega))]
    ring

end Sys2Proof.Machine
end

section
/-! PROOFS. What a step of the machine can do when SEQ is IDLE, the end of every command with SEQ IDLE (10_state.md R31,
20_memory.md R100), a command as its single steps, and STATUS in the error state (60_exceptions.md R313). -/

namespace Sys2Proof.Machine

open Sys2Proof.Safety

/-! ## All that a command word can do (40_commands.md R153) -/

/-- A bin that an error entry may name (10_state.md R34). -/
def ErrorBin (bin : BitVec 9) : Prop := bin = noBin ∨ ∃ b < 256, bin = binField b

/-- The outcomes of a command word. -/
inductive CommandCase (w : Word) (s : State) : State → Prop
  | kept : decodeCommand w ≠ .frameStart → CommandCase w s s
  | frameStart : decodeCommand w = .frameStart → CommandCase w s (returnFromError s)
  | error (o : Origin) (code : ErrCode) (bin : BitVec 9) : s.status.err = false → ErrorBin bin →
      CommandCase w s (raiseError o code bin s)
  | aht (ch : Chan) : s.status.err = false → AhtInputsOk s.rom (s.chan ch) →
      CommandCase w s (runToIdle commandFuel (beginAht ch s))
  | idct (ch : Chan) (blk : Blk) : s.status.err = false → IdctInputsOk (s.chan ch) →
      CommandCase w s (runToIdle commandFuel (beginIdct ch blk s))

theorem rangeError_bin {c : Channel} {e : ErrCode × BitVec 9} (h : rangeError c = some e) : e.2 = noBin := by
  unfold rangeError at h
  split_ifs at h <;> cases h <;> rfl

theorem ahtBinError_bin {p : Params} {c : Channel} {b : Nat} {e : ErrCode × BitVec 9} (h : ahtBinError p c b = some e) :
    e.2 = binField b := by
  unfold ahtBinError at h
  split_ifs at h <;> cases h <;> rfl

theorem idctBinError_bin {c : Channel} {b : Nat} {e : ErrCode × BitVec 9} (h : idctBinError c b = some e) :
    e.2 = binField b := by
  unfold idctBinError at h
  split_ifs at h <;> cases h <;> rfl

/-- The check of a range and then of its bins reports no bin or one of the 256. -/
theorem errorBin_of_checks {c : Channel} {f : Nat → Option (ErrCode × BitVec 9)} {e : ErrCode × BitVec 9}
    (hf : ∀ b e, f b = some e → e.2 = binField b)
    (h : (match rangeError c with | some e => some e | none => c.bins.findSome? f) = some e) : ErrorBin e.2 := by
  cases hr : rangeError c with
  | some e' =>
    rw [hr] at h
    cases h
    exact .inl (rangeError_bin hr)
  | none =>
    rw [hr] at h
    obtain ⟨-, -, h256⟩ := rangeError_none.1 hr
    obtain ⟨b, hb, he⟩ := List.exists_of_findSome?_eq_some h
    exact .inr ⟨b, (mem_bins.1 hb).2.trans_le h256, hf b e he⟩

theorem ahtDecode_case {w : Word} {ch : Chan} {s : State} (he : s.status.err = false) :
    CommandCase w s (ahtDecode ch s) := by
  cases h : ahtInputError s.rom (s.chan ch) with
  | some e =>
    simp only [ahtDecode, h]
    exact .error _ _ _ he (errorBin_of_checks (fun _ _ => ahtBinError_bin) h)
  | none =>
    simp only [ahtDecode, h]
    exact .aht ch he (ahtInputError_none.1 h)

theorem idct_case {w : Word} {ch : Chan} {blk : Blk} {s : State} (he : s.status.err = false) :
    CommandCase w s (idct ch blk s) := by
  cases h : idctInputError (s.chan ch) with
  | some e =>
    simp only [idct, h]
    exact .error _ _ _ he (errorBin_of_checks (fun _ _ => idctBinError_bin) h)
  | none =>
    simp only [idct, h]
    exact .idct ch blk he (idctInputError_none.1 h)

theorem exec_decodeCommand_case {w : Word} {s t : State} (h : exec (decodeCommand w) s = .next t) : CommandCase w s t := by
  cases he : s.status.err with
  | true =>
    by_cases hw : decodeCommand w = .frameStart
    · rw [hw] at h
      cases h
      exact .frameStart hw
    · rw [exec_decodeCommand_of_error he hw] at h
      cases h
      exact .kept hw
  | false =>
    obtain hw | hw | ⟨ch, hw⟩ | ⟨ch, blk, hw⟩ | hw := decodeCommand_cases w <;> rw [hw] at h
    · rw [exec_nop] at h
      cases h
      exact .kept (by simp [hw])
    · cases h
      exact .frameStart hw
    · cases (unlessInError_of_ok (ahtDecode ch) he).symm.trans h
      exact ahtDecode_case he
    · cases (unlessInError_of_ok (idct ch blk) he).symm.trans h
      exact idct_case he
    · cases (exec_illegal_of_ok he w).symm.trans h
      exact .error _ _ _ he (.inl rfl)

/-! ## All that the host's next event can do -/

/-- The outcomes of a step with SEQ IDLE. -/
inductive HostCase (s : State) : State → Prop
  | none : HostCase s s
  | read (r : Reg) (rest : List Event) : HostCase s (readReg r { s with host := rest })
  | command (w : Word) (rest : List Event) (t : State) : s.host = .access (cmdWrite w) :: rest →
      CommandCase w { s with host := rest } t → HostCase s t
  | writeRange (ch : Chan) (v : Word) (rest : List Event) :
      HostCase s ({ s with host := rest }.setChan ch ((s.chan ch).writeRange v))
  | writeBap (ch : Chan) (bin : Fin 256) (v : Word) (rest : List Event) :
      HostCase s ({ s with host := rest }.setChan ch ((s.chan ch).writeBap bin.val v))
  | writeDexp (ch : Chan) (bin : Fin 256) (v : Word) (rest : List Event) :
      HostCase s ({ s with host := rest }.setChan ch ((s.chan ch).writeDexp bin.val v))
  | reset (rest : List Event) : s.host = .reset :: rest → HostCase s (resetBlock { s with host := rest })
  | placeCursor (bits : Bits) (rest : List Event) : HostCase s (placeCursor bits { s with host := rest })
  | seedDither (draws : List (BitVec 23)) (rest : List Event) : HostCase s (seedDither draws { s with host := rest })

theorem exec_hostRead_next {width : Nat} {a : HostAddr} {s t : State} (h : exec (.hostRead width a) s = .next t) :
    ∃ r, t = readReg r s := by
  cases hb : busTarget width a Reg.readable with
  | error f =>
    rw [exec_hostRead_of_error hb] at h
    cases h
  | ok r =>
    rw [exec_hostRead_of_ok hb] at h
    cases h
    exact ⟨r, rfl⟩

/-- An access to another address than that of CMD, or of another width, does not reach CMD. -/
theorem busTarget_ne_cmd {width : Nat} {a : HostAddr} {allowed : Reg → Bool} (h : ¬ (width = 32 ∧ a = 0)) :
    busTarget width a allowed ≠ .ok .cmd := by
  intro hb
  obtain ⟨hw, h4, hr, -⟩ := busTarget_eq_ok_iff.1 hb
  have ha : Reg.cmd.addr = a.toNat := addr_of_regAt h4 hr
  exact h ⟨hw, BitVec.eq_of_toNat_eq ha.symm⟩

theorem exec_decodeBus_case {s t : State} {r : BusReq} {rest : List Event} (hhost : s.host = .access r :: rest)
    (h : exec (decodeBus r) { s with host := rest } = .next t) : HostCase s t := by
  cases r with
  | read width a =>
    obtain ⟨r, rfl⟩ := exec_hostRead_next h
    exact .read r rest
  | write width a v =>
    by_cases hcmd : width = 32 ∧ a = 0
    · obtain ⟨rfl, rfl⟩ := hcmd
      rw [show BusReq.write 32 0 v = cmdWrite v from rfl, decodeBus_cmdWrite] at h
      exact .command v rest t hhost (exec_decodeCommand_case h)
    · rw [decodeBus, if_neg hcmd] at h
      cases hb : busTarget width a Reg.writable with
      | error f =>
        rw [exec_hostWrite_of_error hb] at h
        cases h
      | ok r =>
        rw [exec_hostWrite_of_ok hb] at h
        cases r with
        | cmd => exact absurd hb (busTarget_ne_cmd hcmd)
        | range ch =>
          cases h
          exact .writeRange ch v rest
        | bap ch bin =>
          cases h
          exact .writeBap ch bin v rest
        | dexp ch bin =>
          cases h
          exact .writeDexp ch bin v rest
        | status | gaqmode | coef | pm => cases h

theorem step_host_case {s t : State} (hidle : s.seq.phase = .idle) (h : step s = .next t) : HostCase s t := by
  rw [step_of_idle hidle] at h
  unfold stepHost at h
  split at h
  case h_1 =>
    cases h
    exact .none
  case h_2 r rest hhost => exact exec_decodeBus_case hhost h
  case h_3 rest hhost =>
    cases h
    exact .reset rest hhost
  case h_4 bits rest hhost =>
    cases h
    exact .placeCursor bits rest
  case h_5 draws rest hhost =>
    cases h
    exact .seedDither draws rest

/-- A read changes the returned word and counts a draw at most. -/
theorem readReg_eq (r : Reg) (s : State) : readReg r s = { s with rdata := (readReg r s).rdata, draws := (readReg r s).draws } := by
  cases h : r.stored s with
  | some v => rw [readReg_of_some h]
  | none => rw [readReg_of_none h]

/-! ## STATUS in the error state (R313, R314) -/

/-- Settles O18: in the error state a command word is dropped unless it is FRAME_START, and no other event but a reset writes
STATUS. -/
theorem onlyFrameStartOrResetClearsStatus : Obligations.OnlyFrameStartOrResetClearsStatus := by
  intro s t hidle herr ht
  have running_false {u : State} (hu : u.status = s.status) (h : u.status.err = false) : False := by
    rw [hu, herr] at h
    cases h
  cases step_host_case hidle ht with
  | none | writeRange | writeBap | writeDexp | placeCursor | seedDither => exact .inl rfl
  | read r rest =>
    rw [readReg_eq]
    exact .inl rfl
  | reset rest hhost => exact .inr ⟨Status.word_clear, rest, .inl hhost⟩
  | command w rest t hhost hc =>
    cases hc with
    | kept => exact .inl rfl
    | frameStart hw =>
      rw [decodeCommand_eq_frameStart_iff.1 hw] at hhost
      exact .inr ⟨Status.word_clear, rest, .inr hhost⟩
    | error o code bin he => exact (running_false rfl he).elim
    | aht ch he => exact (running_false rfl he).elim
    | idct ch blk he => exact (running_false rfl he).elim

/-! ## Every command ends with SEQ IDLE and nothing staged (R31, R357) -/

theorem runToIdle_ready {n : Nat} {s : State} (hrun : s.seq.phase ≠ .idle) (hp : Placed s) (hn : remaining s ≤ n) :
    Ready (runToIdle n s) := by
  have hidle : (runToIdle n s).seq.phase = .idle := runToIdle_placed_ends (fun _ => hp) fun _ => hn
  refine runToIdle_keeps (P := fun u => u.seq.phase = .idle → Ready u) (fun u _ hu hu' => ?_) n (fun h => absurd h hrun) hidle
  rcases seqStep_goesOn_or_ends hu with hg | he
  · exact absurd hu' hg.running
  · exact he.ready

theorem beginAht_ready {s : State} {ch : Chan} (h : AhtInputsOk s.rom (s.chan ch)) :
    Ready (runToIdle commandFuel (beginAht ch s)) := by
  have hlast : (s.chan ch).last ≤ 256 := h.range.2
  refine runToIdle_ready (by simp) ⟨fun hm => absurd rfl hm, h.range.1, fun hm => by simp at hm⟩ ?_
  change 7 * ((s.chan ch).last - (s.chan ch).first) + 3 ≤ 2048
  omega

theorem beginIdct_ready {s : State} {ch : Chan} {blk : Blk} (h : IdctInputsOk (s.chan ch)) :
    Ready (runToIdle commandFuel (beginIdct ch blk s)) := by
  have hlast : (s.chan ch).last ≤ 256 := h.range.2
  refine runToIdle_ready (by simp) ⟨fun _ => h.range.1, h.range.1, fun hm => by simp at hm⟩ ?_
  change ((s.chan ch).last - (s.chan ch).first) + 1 ≤ 2048
  omega

theorem CommandCase.ready {w : Word} {s t : State} (h : CommandCase w s t) (hs : Ready s) : Ready t := by
  cases h with
  | kept => exact hs
  | frameStart => exact hs
  | error o code bin => exact ⟨raiseError_seq o code bin s, raiseError_staging o code bin s⟩
  | aht ch he hok => exact beginAht_ready hok
  | idct ch blk he hok => exact beginIdct_ready hok

/-- Settles O54: the host's events leave SEQ and the staging state alone, and a command runs to its end. -/
theorem hostAlwaysSeesIdleSequencer : Obligations.HostAlwaysSeesIdleSequencer := by
  intro s t hs ht
  cases step_host_case (by rw [hs.1]; rfl) ht with
  | none | writeRange | writeBap | writeDexp | placeCursor | seedDither => exact hs
  | read r rest =>
    rw [readReg_eq]
    exact hs
  | reset rest => exact ⟨rfl, rfl⟩
  | command w rest t hhost hc => exact hc.ready hs

/-! ## A command is its single steps (R100) -/

/-- A run of the sequencer is a run of the machine. -/
theorem run_of_runToIdle (n : Nat) (s : State) : ∃ k, Host.Core.run Sys2Proof.core k s = .next (runToIdle n s) := by
  induction n generalizing s with
  | zero => exact ⟨0, rfl⟩
  | succ n ih =>
    by_cases hidle : s.seq.phase = .idle
    · exact ⟨0, by rw [runToIdle_of_idle _ hidle]; rfl⟩
    · obtain ⟨k, hk⟩ := ih (seqStep s)
      have hstep : Sys2Proof.core.step s = .next (seqStep s) := step_of_running hidle
      refine ⟨k + 1, ?_⟩
      rw [runToIdle_succ n hidle, ← hk]
      simp only [Host.Core.run, hstep]

/-- Settles O9: the whole command is the run of its sequencer, which the machine's steps make too. -/
theorem commandIsItsSingleSteps : Obligations.CommandIsItsSingleSteps := by
  intro s ch blk he
  refine ⟨fun hok => ?_, fun hok => ?_⟩
  · obtain ⟨k, hk⟩ := run_of_runToIdle commandFuel (beginAht ch s)
    exact ⟨k, _, hk, exec_ahtDecode_of_ok he hok, (beginAht_ready hok).1⟩
  · obtain ⟨k, hk⟩ := run_of_runToIdle commandFuel (beginIdct ch blk s)
    exact ⟨k, _, hk, exec_idct_of_ok he hok, (beginIdct_ready hok).1⟩

end Sys2Proof.Machine
end

section
/-! PROOFS. The invariant of the machine (10_state.md section 3 and 6, 20_memory.md R82): one action of a running command keeps it, the
end of a command keeps it, and so do the host's events; what every step keeps of the tables and the written bits. -/

namespace Sys2Proof.Machine

open Sys2Proof.Safety

/-! ## The clauses of the invariant -/

theorem channelValidOk_iff {c : Channel} : channelValidOk c = true ↔ (c.gaqValid = false → c.gaqMode = 0 ∧ c.pmv = []) := by
  cases h : c.gaqValid <;> simp [channelValidOk, h]

theorem rangeOk_iff {c : Channel} : rangeOk c = true ↔ c.wRange = true ∧ c.first ≤ c.last ∧ c.last ≤ 256 := by
  simp [rangeOk]

theorem seqOk_of_ready {s : State} (h : Ready s) : seqOk s = true := by
  obtain ⟨hseq, hstaging⟩ := h
  rw [seqOk, hseq]
  simp [Seq.idle, hstaging]

theorem ready_of_seqOk {s : State} (hidle : s.seq.phase = .idle) (h : seqOk s = true) : Ready s := by
  simpa [seqOk, hidle, Ready] using h

/-- Where a running command stands: SEQ inside the range, `gc` and `blk` inside theirs. -/
structure InRange (s : State) : Prop where
  bin : s.seq.phase ≠ .mode → s.seq.bin ≤ s.running.last
  gc  : s.seq.phase = .gain → s.seq.gc ≤ 2
  blk : s.seq.phase = .mant → s.seq.blk ≤ 5

theorem seqOk_iff_of_running {s : State} (h : s.seq.phase ≠ .idle) :
    seqOk s = true ↔ s.status.err = false ∧ rangeOk s.running = true ∧ InRange s := by
  have split_inRange : InRange s ↔ (s.seq.phase ≠ .mode → s.seq.bin ≤ s.running.last) ∧
      (s.seq.phase = .gain → s.seq.gc ≤ 2) ∧ (s.seq.phase = .mant → s.seq.blk ≤ 5) :=
    ⟨fun hi => ⟨hi.bin, hi.gc, hi.blk⟩, fun ⟨hbin, hgc, hblk⟩ => ⟨hbin, hgc, hblk⟩⟩
  rw [split_inRange]
  cases hp : s.seq.phase with
  | idle => exact absurd hp h
  | mode | gain | mant | idct => simp [seqOk, hp, and_assoc]

/-- The invariant reads the channels, STATUS, SEQ and the staging state only. -/
theorem inv_of_eq {s t : State} (h : Safety.Inv s) (hchans : t.chans = s.chans) (hstatus : t.status = s.status)
    (hseq : t.seq = s.seq) (hstaging : t.staging = s.staging) : Safety.Inv t := by
  cases s
  cases t
  subst hchans hstatus hseq hstaging
  exact ⟨h.stores, h.valid, h.staged, h.status, h.seq⟩

/-! ## An action that goes on -/

/-- What an action has to keep that goes on: canonical staging stores, and SEQ inside the range. -/
structure Inside (s : State) : Prop extends InRange s where
  spm   : s.staging.spm.wf = true
  coefs : s.staging.coefs.wf = true

theorem foldl_set_bin_wf {m : Memory 32} (hm : m.wf = true) (bin : Nat) (f : Nat → Word) (blks : List Nat) :
    (blks.foldl (fun m blk => m.set (pmIndex bin blk) (f blk)) m).wf = true := by
  induction blks generalizing m with
  | nil => exact hm
  | cons blk blks ih => exact ih (Memory.wf_set hm _ _)

theorem stageMantissa_running (v : Int) (s : State) : (stageMantissa v s).running = s.running := by
  rw [stageMantissa_frame]
  rfl

/-- A GAQ element stages one cell and goes on inside its bin or to the next one. -/
theorem stageMantissa_inside {s : State} (hp : s.seq.phase = .mant) (hb : s.seq.bin < s.running.last) (hi : Inside s) (v : Int) :
    Inside (stageMantissa v s) := by
  have hspm : (stageMantissa v s).staging.spm.wf = true := by
    rw [stageMantissa_spm]
    exact Memory.wf_set hi.spm _ _
  have hcoefs : (stageMantissa v s).staging.coefs.wf = true := by
    rw [stageMantissa_frame]
    exact hi.coefs
  have hblk := hi.blk hp
  rcases hblk.lt_or_eq with hlt | heq
  · have hseq := stageMantissa_seq_of_lt hlt v
    refine ⟨⟨fun _ => ?_, fun hg => ?_, fun _ => ?_⟩, hspm, hcoefs⟩
    · rw [stageMantissa_running, hseq]
      exact hb.le
    · rw [hseq] at hg
      simp [hp] at hg
    · rw [hseq]
      exact hlt
  · have hseq := stageMantissa_seq_of_last heq v
    refine ⟨⟨fun _ => ?_, fun hg => ?_, fun _ => ?_⟩, hspm, hcoefs⟩
    · rw [stageMantissa_running, hseq]
      exact hb
    · rw [hseq] at hg
      simp [hp] at hg
    · rw [hseq]
      exact Nat.zero_le 5

theorem applyDitherFill_inside {s : State} (hp : s.seq.phase = .mant) (hb : s.seq.bin < s.running.last) (hi : Inside s) :
    Inside (applyDitherFill s) := by
  have hspm : (applyDitherFill s).staging.spm.wf = true := by
    rw [applyDitherFill_spm]
    exact foldl_set_bin_wf hi.spm _ _ _
  rw [applyDitherFill_frame]
  exact ⟨⟨fun _ => hb, fun hg => absurd (hp.symm.trans hg) (by decide), fun _ => Nat.zero_le 5⟩, hspm, hi.coefs⟩

theorem applyVqDecode_inside {s : State} (hp : s.seq.phase = .mant) (hb : s.seq.bin < s.running.last)
    (hh : s.binHebap.toNat ≤ 7) (hi : Inside s) (h : Hebap) (w v : Nat) : Inside (applyVqDecode h w v s) := by
  have hspm : (applyVqDecode h w v s).staging.spm.wf = true := by
    rw [applyVqDecode_spm]
    exact foldl_set_bin_wf hi.spm _ (fun blk => toReg (vqValue s.rom h v blk)) _
  rw [applyVqDecode_frame hh]
  exact ⟨⟨fun _ => hb, fun hg => absurd (hp.symm.trans hg) (by decide), fun _ => Nat.zero_le 5⟩, hspm, hi.coefs⟩

/-- An action that goes on keeps SEQ inside the range and the staging stores canonical. -/
theorem seqStep_inside {s : State} (hrun : s.seq.phase ≠ .idle) (hrange : s.running.first ≤ s.running.last) (hi : Inside s)
    (hg : GoesOn s (seqStep s)) : Inside (seqStep s) := by
  have of_case {t : State} (hg : GoesOn s t) (hc : SeqCase s t) : Inside t := by
    cases hc with
    | gaqmod u rest hp hr => exact ⟨⟨fun _ => hrange, fun _ => le_rfl, fun hm => by simp at hm⟩, hi.spm, hi.coefs⟩
    | toBins hp hm => exact ⟨⟨fun _ => hrange, fun hg => by simp at hg, fun _ => Nat.zero_le 5⟩, hi.spm, hi.coefs⟩
    | passBin hp hb | gaqgain u rest hp hb =>
      exact ⟨⟨fun _ => hb, fun _ => hi.gc hp, fun hm => absurd (hp.symm.trans hm) (by decide)⟩, hi.spm, hi.coefs⟩
    | gaqgrp u rest hp hb =>
      unfold applyGaqgrp at hg ⊢
      split
      case isTrue hf =>
        rw [if_pos hf] at hg
        exact absurd rfl hg.running
      case isFalse =>
        exact ⟨⟨fun _ => hb, fun _ => Nat.zero_le 2, fun hm => absurd (hp.symm.trans hm) (by decide)⟩, hi.spm, hi.coefs⟩
    | countBin hp hb hgain hm hgc =>
      have hgc2 := hi.gc hp
      exact ⟨⟨fun _ => hb, fun _ => show s.seq.gc + 1 ≤ 2 by omega, fun hm => absurd (hp.symm.trans hm) (by decide)⟩,
        hi.spm, hi.coefs⟩
    | dither hp hb => exact applyDitherFill_inside hp hb hi
    | vq v rest hp hb hh hh7 =>
      exact applyVqDecode_inside (s := { s with cursor := rest }) hp hb hh7 ⟨⟨hi.bin, hi.gc, hi.blk⟩, hi.spm, hi.coefs⟩ _ _ v
    | plain m rest hp hb | small m rest hp hb | large mid rest l hp hb =>
      exact stageMantissa_inside (s := { s with cursor := rest }) hp hb ⟨⟨hi.bin, hi.gc, hi.blk⟩, hi.spm, hi.coefs⟩ _
    | stageCoef hp hb =>
      exact ⟨⟨fun _ => hb, fun hg => absurd (hp.symm.trans hg) (by decide), fun hm => absurd (hp.symm.trans hm) (by decide)⟩,
        hi.spm, Memory.wf_set hi.coefs _ _⟩
    | cursorFail | commitAht | commitIdct => exact absurd rfl hg.running
  exact of_case hg (seqStep_case hrun)

/-! ## The end of a command -/

theorem copyRange_fits {w n a k : Nat} {dst : Memory w} (h : dst.Fits n) (src : Memory w) (hk : a + k ≤ n) :
    (copyRange dst src a k).Fits n where
  wf := copyRange_wf h.wf src a k
  below p hp := by
    rcases mem_copyRange hp with ⟨-, hlt⟩ | hp
    · omega
    · exact h.below p hp

theorem onesRange_fits {n a k : Nat} (hk : a + k ≤ n) : (onesRange a k).Fits n where
  wf := onesRange_wf a k
  below p hp := by
    have := mem_onesRange hp
    omega

theorem commitPremants_storesOk {c : Channel} (h : StoresOk c) (hr : rangeOk c = true) (mode : BitVec 2) (spm : Memory 32) :
    StoresOk (c.commitPremants mode spm) := by
  obtain ⟨-, hfirst, hlast⟩ := rangeOk_iff.1 hr
  have hcount := Channel.first_add_count hfirst
  exact { h with
    pm := copyRange_fits h.pm spm (by unfold pmIndex; omega)
    pmv := onesRange_fits (by omega) }

theorem commitCoefs_storesOk {c : Channel} (h : StoresOk c) (hr : rangeOk c = true) (coefs : Memory 32) :
    StoresOk (c.commitCoefs coefs) := by
  obtain ⟨-, hfirst, hlast⟩ := rangeOk_iff.1 hr
  have hcount := Channel.first_add_count hfirst
  exact { h with
    coef := copyRange_fits h.coef coefs (by omega)
    cv := onesRange_fits (by omega) }

/-- A state between commands meets the invariant when its channels and STATUS do. -/
theorem inv_of_ready {s : State} (hready : Ready s) (hstatus : s.status.legal = true) (hstores : ∀ ch, StoresOk (s.chan ch))
    (hvalid : ∀ ch, channelValidOk (s.chan ch) = true) : Safety.Inv s := by
  refine ⟨fun ch => channelStoresOk_iff.2 (hstores ch), hvalid, ?_, hstatus, seqOk_of_ready hready⟩
  rw [hready.2]
  exact ⟨rfl, rfl⟩

/-- Replacing one channel by a good one leaves all channels good. -/
theorem forall_chan_setChan {P : Channel → Prop} {s : State} {ch : Chan} {c : Channel} (hs : ∀ ch, P (s.chan ch)) (hc : P c)
    (c0 : Chan) : P ((s.setChan ch c).chan c0) := by
  by_cases h : c0 = ch
  · rw [h, chan_setChan_self]
    exact hc
  · rw [chan_setChan_ne _ _ h]
    exact hs c0

theorem errorStatus_legal (code : ErrCode) (ch : BitVec 3) {bin : BitVec 9} (h : ErrorBin bin) :
    Status.legal ⟨true, code.number, ch, bin⟩ = true := by
  have hcode : 1 ≤ code.number.toNat ∧ code.number.toNat ≤ 8 := by cases code <;> decide
  have hbin : bin.toNat < 256 ∨ bin = noBin := by
    rcases h with rfl | ⟨b, hb, rfl⟩
    · exact .inr rfl
    · exact .inl (by simp only [binField, BitVec.toNat_ofNat]; omega)
  simp [Status.legal, hcode, hbin]

/-- The error entry leaves every channel good. -/
theorem forall_chan_raiseError {P : Channel → Prop} {s : State} (hs : ∀ ch, P (s.chan ch))
    (haht : ∀ c, P c → P { c with pmv := [], gaqValid := false, gaqMode := 0 }) (hidct : ∀ c, P c → P { c with cv := [] })
    (o : Origin) (code : ErrCode) (bin : BitVec 9) (c0 : Chan) : P ((raiseError o code bin s).chan c0) := by
  cases o with
  | dispatch f => exact hs c0
  | aht ch =>
    rw [raiseError_aht_chan]
    split
    · exact haht _ (hs ch)
    · exact hs c0
  | idct ch =>
    rw [raiseError_idct_chan]
    split
    · exact hidct _ (hs ch)
    · exact hs c0

theorem inv_raiseError {s : State} (hstores : ∀ ch, StoresOk (s.chan ch)) (hvalid : ∀ ch, channelValidOk (s.chan ch) = true)
    (o : Origin) (code : ErrCode) {bin : BitVec 9} (hbin : ErrorBin bin) : Safety.Inv (raiseError o code bin s) := by
  refine inv_of_ready ⟨raiseError_seq _ _ _ _, raiseError_staging _ _ _ _⟩ ?_ ?_ ?_
  · rw [raiseError_status]
    exact errorStatus_legal code _ hbin
  · exact forall_chan_raiseError hstores (fun c h => { h with pmv := .nil }) (fun c h => { h with cv := .nil }) o code bin
  · exact forall_chan_raiseError (P := fun c => channelValidOk c = true) hvalid (fun c _ => rfl) (fun c h => h) o code bin

/-! ## One action keeps the invariant -/

theorem inv_of_ends {s t : State} (hrun : s.seq.phase ≠ .idle) (h : Safety.Inv s) (he : Ends s t) : Safety.Inv t := by
  obtain ⟨-, hrange, -⟩ := (seqOk_iff_of_running hrun).1 h.seq
  have hstores (ch : Chan) : StoresOk (s.chan ch) := channelStoresOk_iff.1 (h.stores ch)
  cases he with
  | commitAht =>
    exact inv_of_ready ⟨rfl, rfl⟩ h.status
      (forall_chan_setChan hstores (commitPremants_storesOk (hstores _) hrange _ _))
      (forall_chan_setChan (P := fun c => channelValidOk c = true) h.valid rfl)
  | commitIdct =>
    exact inv_of_ready ⟨rfl, rfl⟩ h.status
      (forall_chan_setChan hstores (commitCoefs_storesOk (hstores _) hrange _))
      (forall_chan_setChan (P := fun c => channelValidOk c = true) h.valid (h.valid _))
  | error code bin u hcode hbin hchans =>
    have hchan (ch : Chan) : u.chan ch = s.chan ch := by simp only [State.chan, hchans]
    obtain ⟨-, -, h256⟩ := rangeOk_iff.1 hrange
    refine inv_raiseError (fun ch => ?_) (fun ch => ?_) _ code ?_
    · rw [hchan]
      exact hstores ch
    · rw [hchan]
      exact h.valid ch
    · exact hbin.imp id fun ⟨hb, hlt⟩ => ⟨s.seq.bin, hlt.trans_le h256, hb⟩

theorem inv_of_goesOn {s : State} (hrun : s.seq.phase ≠ .idle) (h : Safety.Inv s) (hg : GoesOn s (seqStep s)) :
    Safety.Inv (seqStep s) := by
  obtain ⟨herr, hrange, hin⟩ := (seqOk_iff_of_running hrun).1 h.seq
  obtain ⟨-, hfirst, -⟩ := rangeOk_iff.1 hrange
  have hinside := seqStep_inside hrun hfirst ⟨hin, h.staged.1, h.staged.2⟩ hg
  have hchan (ch : Chan) : (seqStep s).chan ch = s.chan ch := by simp only [State.chan, hg.chans]
  refine ⟨fun ch => ?_, fun ch => ?_, ⟨hinside.spm, hinside.coefs⟩, ?_,
    (seqOk_iff_of_running hg.running).2 ⟨?_, ?_, hinside.toInRange⟩⟩
  · rw [hchan]
    exact h.stores ch
  · rw [hchan]
    exact h.valid ch
  · rw [hg.status]
    exact h.status
  · rw [hg.status]
    exact herr
  · rw [running_of_goesOn hg]
    exact hrange

theorem inv_seqStep {s : State} (h : Safety.Inv s) (hrun : s.seq.phase ≠ .idle) : Safety.Inv (seqStep s) :=
  (seqStep_goesOn_or_ends hrun).elim (inv_of_goesOn hrun h) (inv_of_ends hrun h)

/-! ## A command and a host event keep the invariant -/

theorem rangeOk_of_ahtInputsOk {p : Params} {c : Channel} (h : AhtInputsOk p c) : rangeOk c = true :=
  rangeOk_iff.2 ⟨h.written, h.range⟩

theorem rangeOk_of_idctInputsOk {c : Channel} (h : IdctInputsOk c) : rangeOk c = true :=
  rangeOk_iff.2 ⟨h.written, h.range⟩

theorem inv_beginAht {s : State} {ch : Chan} (h : Safety.Inv s) (he : s.status.err = false) (hok : AhtInputsOk s.rom (s.chan ch)) :
    Safety.Inv (beginAht ch s) :=
  ⟨h.stores, h.valid, ⟨rfl, rfl⟩, h.status, (seqOk_iff_of_running (by simp)).2 ⟨he, rangeOk_of_ahtInputsOk hok,
    fun hm => absurd rfl hm, fun hg => by simp at hg, fun hm => by simp at hm⟩⟩

theorem inv_beginIdct {s : State} {ch : Chan} {blk : Blk} (h : Safety.Inv s) (he : s.status.err = false)
    (hok : IdctInputsOk (s.chan ch)) : Safety.Inv (beginIdct ch blk s) :=
  ⟨h.stores, h.valid, ⟨rfl, rfl⟩, h.status, (seqOk_iff_of_running (by simp)).2 ⟨he, rangeOk_of_idctInputsOk hok,
    fun _ => hok.range.1, fun hg => by simp at hg, fun hm => by simp at hm⟩⟩

theorem inv_returnFromError {s : State} (h : Safety.Inv s) (hready : Ready s) : Safety.Inv (returnFromError s) := by
  refine inv_of_ready hready rfl (fun ch => ?_) fun ch => ?_
  · rw [returnFromError_chan]
    exact { channelStoresOk_iff.1 (h.stores ch) with pmv := .nil, cv := .nil }
  · rw [returnFromError_chan]
    rfl

theorem inv_resetBlock (s : State) : Safety.Inv (resetBlock s) := by
  refine inv_of_ready ⟨rfl, rfl⟩ rfl (fun ch => ?_) fun ch => ?_
  · rw [resetBlock_chan]
    exact ⟨.nil, .nil, .nil, .nil, .nil, .nil, .nil, .nil⟩
  · rw [resetBlock_chan]
    rfl

theorem CommandCase.inv {w : Word} {s t : State} (hc : CommandCase w s t) (h : Safety.Inv s) (hready : Ready s) : Safety.Inv t := by
  cases hc with
  | kept => exact h
  | frameStart => exact inv_returnFromError h hready
  | error o code bin _ hbin => exact inv_raiseError (fun ch => channelStoresOk_iff.1 (h.stores ch)) h.valid o code hbin
  | aht ch he hok => exact runToIdle_keeps (fun _ => inv_seqStep) _ (inv_beginAht h he hok)
  | idct ch blk he hok => exact runToIdle_keeps (fun _ => inv_seqStep) _ (inv_beginIdct h he hok)

theorem inv_setChan {s : State} {ch : Chan} {c : Channel} (h : Safety.Inv s) (hready : Ready s) (hc : StoresOk c)
    (hv : channelValidOk c = true) (rest : List Event) : Safety.Inv ({ s with host := rest }.setChan ch c) :=
  inv_of_ready hready h.status
    (forall_chan_setChan (P := StoresOk) (s := { s with host := rest }) (fun ch => channelStoresOk_iff.1 (h.stores ch)) hc)
    (forall_chan_setChan (P := fun c => channelValidOk c = true) (s := { s with host := rest }) h.valid hv)

theorem writeRange_storesOk {c : Channel} (h : StoresOk c) (v : Word) : StoresOk (c.writeRange v) := { h with }

theorem writeBap_storesOk {c : Channel} (h : StoresOk c) (bin : Fin 256) (v : Word) : StoresOk (c.writeBap bin.val v) :=
  { h with bap := h.bap.set bin.isLt _, wBap := h.wBap.set bin.isLt _ }

theorem writeDexp_storesOk {c : Channel} (h : StoresOk c) (bin : Fin 256) (v : Word) : StoresOk (c.writeDexp bin.val v) :=
  { h with dexp := h.dexp.set bin.isLt _, wDexp := h.wDexp.set bin.isLt _ }

theorem HostCase.inv {s t : State} (hc : HostCase s t) (h : Safety.Inv s) (hready : Ready s) : Safety.Inv t := by
  have hstores (ch : Chan) : StoresOk (s.chan ch) := channelStoresOk_iff.1 (h.stores ch)
  cases hc with
  | none => exact h
  | read r rest =>
    rw [readReg_eq]
    exact inv_of_eq h rfl rfl rfl rfl
  | command w rest t _ hc => exact hc.inv (inv_of_eq h rfl rfl rfl rfl) hready
  | writeRange ch v rest => exact inv_setChan h hready (writeRange_storesOk (hstores ch) v) (h.valid ch) rest
  | writeBap ch bin v rest => exact inv_setChan h hready (writeBap_storesOk (hstores ch) bin v) (h.valid ch) rest
  | writeDexp ch bin v rest => exact inv_setChan h hready (writeDexp_storesOk (hstores ch) bin v) (h.valid ch) rest
  | reset rest => exact inv_resetBlock _
  | placeCursor bits rest => exact inv_of_eq h rfl rfl rfl rfl
  | seedDither draws rest => exact inv_of_eq h rfl rfl rfl rfl

/-- Settles O55: an idle step is an event of the host, and any other one action of the running command. -/
theorem everyStepKeepsInvariant : Obligations.EveryStepKeepsInvariant := by
  intro s t h ht
  by_cases hidle : s.seq.phase = .idle
  · exact (step_host_case hidle ht).inv h (ready_of_seqOk hidle h.seq)
  · cases (step_of_running hidle).symm.trans ht
    exact inv_seqStep h hidle

/-! ## The tables and the written bits (00_scope.md R23, 10_state.md R42) -/

/-- The written bits of a channel are those of another. -/
structure SameWritten (c d : Channel) : Prop where
  range : d.wRange = c.wRange
  bap   : d.wBap = c.wBap
  dexp  : d.wDexp = c.wDexp

theorem SameWritten.refl (c : Channel) : SameWritten c c := ⟨rfl, rfl, rfl⟩

theorem sameWritten_commitPremants (c : Channel) (mode : BitVec 2) (spm : Memory 32) :
    SameWritten c (c.commitPremants mode spm) := ⟨rfl, rfl, rfl⟩

theorem sameWritten_commitCoefs (c : Channel) (coefs : Memory 32) : SameWritten c (c.commitCoefs coefs) := ⟨rfl, rfl, rfl⟩

/-- What a command keeps: the tables and every written bit. -/
structure InputsKept (s t : State) : Prop where
  rom     : t.rom = s.rom
  written : ∀ ch, SameWritten (s.chan ch) (t.chan ch)

theorem InputsKept.trans {s t u : State} (h : InputsKept s t) (h' : InputsKept t u) : InputsKept s u where
  rom := h'.rom.trans h.rom
  written ch := ⟨(h'.written ch).range.trans (h.written ch).range, (h'.written ch).bap.trans (h.written ch).bap,
    (h'.written ch).dexp.trans (h.written ch).dexp⟩

theorem InputsKept.of_chans {s t : State} (hrom : t.rom = s.rom) (hchans : t.chans = s.chans) : InputsKept s t where
  rom := hrom
  written ch := by
    rw [show t.chan ch = s.chan ch by simp only [State.chan, hchans]]
    exact .refl _

theorem InputsKept.setChan {s : State} {ch : Chan} {c : Channel} (h : SameWritten (s.chan ch) c) :
    InputsKept s (s.setChan ch c) where
  rom := rfl
  written c0 := by
    by_cases hc : c0 = ch
    · rw [hc, chan_setChan_self]
      exact h
    · rw [chan_setChan_ne _ _ hc]
      exact .refl _

theorem inputsKept_raiseError (o : Origin) (code : ErrCode) (bin : BitVec 9) (s : State) :
    InputsKept s (raiseError o code bin s) where
  rom := raiseError_rom o code bin s
  written c0 := by
    cases o with
    | dispatch f => exact .refl _
    | aht ch =>
      rw [raiseError_aht_chan]
      split
      · rename_i h
        rw [h]
        exact ⟨rfl, rfl, rfl⟩
      · exact .refl _
    | idct ch =>
      rw [raiseError_idct_chan]
      split
      · rename_i h
        rw [h]
        exact ⟨rfl, rfl, rfl⟩
      · exact .refl _

theorem inputsKept_seqStep {s : State} (hrun : s.seq.phase ≠ .idle) : InputsKept s (seqStep s) := by
  rcases seqStep_goesOn_or_ends hrun with hg | he
  · exact .of_chans hg.rom hg.chans
  · generalize seqStep s = t at he
    cases he with
    | commitAht => exact (InputsKept.setChan (sameWritten_commitPremants _ _ _)).trans (.of_chans rfl rfl)
    | commitIdct => exact (InputsKept.setChan (sameWritten_commitCoefs _ _)).trans (.of_chans rfl rfl)
    | error code bin u _ _ hchans hrom => exact (InputsKept.of_chans hrom hchans).trans (inputsKept_raiseError _ code bin u)

theorem inputsKept_runToIdle {s u : State} (h : InputsKept s u) (n : Nat) : InputsKept s (runToIdle n u) :=
  runToIdle_keeps (P := InputsKept s) (fun _ hv hrun => hv.trans (inputsKept_seqStep hrun)) n h

theorem CommandCase.inputsKept {w : Word} {s t : State} (h : CommandCase w s t) : InputsKept s t := by
  cases h with
  | kept => exact .of_chans rfl rfl
  | frameStart => exact ⟨rfl, fun ch => by rw [returnFromError_chan]; exact ⟨rfl, rfl, rfl⟩⟩
  | error o code bin => exact inputsKept_raiseError o code bin s
  | aht ch => exact inputsKept_runToIdle (InputsKept.of_chans (s := s) (t := beginAht ch s) rfl rfl) _
  | idct ch blk => exact inputsKept_runToIdle (InputsKept.of_chans (s := s) (t := beginIdct ch blk s) rfl rfl) _

/-- Every written bit that is 1 in the one channel is 1 in the other. -/
structure WrittenStays (c d : Channel) : Prop where
  range : c.wRange = true → d.wRange = true
  bap   : ∀ b, c.wBap.get b = 1 → d.wBap.get b = 1
  dexp  : ∀ b, c.wDexp.get b = 1 → d.wDexp.get b = 1

theorem SameWritten.stays {c d : Channel} (h : SameWritten c d) : WrittenStays c d := by
  obtain ⟨hr, hb, hd⟩ := h
  refine ⟨fun h => ?_, fun b h => ?_, fun b h => ?_⟩
  · rwa [hr]
  · rwa [hb]
  · rwa [hd]

theorem get_set_one {m : Memory 1} (hm : m.wf = true) {a b : Nat} (h : m.get b = 1) : (m.set a 1).get b = 1 := by
  rw [Memory.get_set hm]
  split
  · rfl
  · exact h

theorem writeRange_writtenStays (c : Channel) (v : Word) : WrittenStays c (c.writeRange v) :=
  ⟨fun _ => rfl, fun _ => id, fun _ => id⟩

theorem writeBap_writtenStays {c : Channel} (h : StoresOk c) (bin : Nat) (v : Word) : WrittenStays c (c.writeBap bin v) :=
  ⟨id, fun _ => get_set_one h.wBap.wf, fun _ => id⟩

theorem writeDexp_writtenStays {c : Channel} (h : StoresOk c) (bin : Nat) (v : Word) : WrittenStays c (c.writeDexp bin v) :=
  ⟨id, fun _ => id, fun _ => get_set_one h.wDexp.wf⟩

theorem WrittenStays.setChan {s : State} {ch : Chan} {c : Channel} (h : WrittenStays (s.chan ch) c) (c0 : Chan) :
    WrittenStays (s.chan c0) ((s.setChan ch c).chan c0) := by
  by_cases hc : c0 = ch
  · rw [hc, chan_setChan_self]
    exact h
  · rw [chan_setChan_ne _ _ hc]
    exact (SameWritten.refl _).stays

theorem HostCase.rom {s t : State} (h : HostCase s t) : t.rom = s.rom := by
  cases h with
  | none | writeRange | writeBap | writeDexp | reset | placeCursor | seedDither => rfl
  | read r rest => rw [readReg_eq]
  | command w rest t _ hc => exact hc.inputsKept.rom

/-- No event of the host but a reset clears a written bit. -/
theorem HostCase.writtenStays {s t : State} (h : HostCase s t) (hinv : Safety.Inv s) (hreset : ∀ rest, s.host ≠ .reset :: rest)
    (c0 : Chan) : WrittenStays (s.chan c0) (t.chan c0) := by
  have hstores (ch : Chan) : StoresOk (s.chan ch) := channelStoresOk_iff.1 (hinv.stores ch)
  cases h with
  | none | placeCursor | seedDither => exact (SameWritten.refl _).stays
  | read r rest =>
    rw [readReg_eq]
    exact (SameWritten.refl _).stays
  | command w rest t _ hc => exact (hc.inputsKept.written c0).stays
  | writeRange ch v rest => exact .setChan (s := { s with host := rest }) (writeRange_writtenStays _ v) c0
  | writeBap ch bin v rest => exact .setChan (s := { s with host := rest }) (writeBap_writtenStays (hstores ch) bin.val v) c0
  | writeDexp ch bin v rest => exact .setChan (s := { s with host := rest }) (writeDexp_writtenStays (hstores ch) bin.val v) c0
  | reset rest hhost => exact absurd hhost (hreset rest)

/-- Settles O56: a command keeps tables and written bits, and a write of the host sets written bits only. -/
theorem tablesAndWrittenBitsPersist : Obligations.TablesAndWrittenBitsPersist := by
  intro s t hinv ht
  by_cases hidle : s.seq.phase = .idle
  · have hc := step_host_case hidle ht
    refine ⟨hc.rom, fun hreset ch => ?_⟩
    obtain ⟨hr, hb, hd⟩ := hc.writtenStays hinv (fun rest => hreset rest hidle) ch
    exact ⟨hr, fun b => ⟨hb b, hd b⟩⟩
  · cases (step_of_running hidle).symm.trans ht
    have hk := inputsKept_seqStep hidle
    refine ⟨hk.rom, fun _ ch => ?_⟩
    obtain ⟨hr, hb, hd⟩ := (hk.written ch).stays
    exact ⟨hr, fun b => ⟨hb b, hd b⟩⟩

end Sys2Proof.Machine
end

section
/-! PROOFS. The run of an AHT_DECODE follows the pseudocode (41_gaq_gain.md R190 to R200, 42_mantissa.md R220 to R236): its actions lead
from the begin of the command to the commit of what the pseudocode reads, or to the error entry of the pseudocode's failure. -/

namespace Sys2Proof.Machine

open Sys2Proof.Safety

/-! ## Actions in a row -/

/-- The actions of a running command lead from the one state to the other. -/
inductive Steps : State → State → Prop
  | refl (s : State) : Steps s s
  | step {s t : State} : s.seq.phase ≠ .idle → Steps (seqStep s) t → Steps s t

theorem Steps.trans {s t u : State} (h : Steps s t) (h' : Steps t u) : Steps s u := by
  induction h with
  | refl => exact h'
  | step hrun _ ih => exact .step hrun (ih h')

theorem Steps.one {s t : State} (hrun : s.seq.phase ≠ .idle) (h : seqStep s = t) : Steps s t :=
  .step hrun (h ▸ .refl _)

/-- A run that ends with SEQ IDLE ends in the idle state its actions lead to. -/
theorem runToIdle_eq_of_steps {n : Nat} {s t : State} (h : Steps s t) (ht : t.seq.phase = .idle)
    (hidle : (runToIdle n s).seq.phase = .idle) : runToIdle n s = t := by
  induction h generalizing n with
  | refl => exact runToIdle_of_idle n ht
  | step hrun _ ih =>
    cases n with
    | zero => exact absurd hidle hrun
    | succ n =>
      rw [runToIdle_succ n hrun] at hidle ⊢
      exact ih ht hidle

/-! ## States in the middle of a command -/

/-- The agents of a state. -/
def State.source (s : State) : Source := ⟨s.cursor, s.dither, s.ditherCount⟩

/-- A state with other agents. -/
def State.withSource (s : State) (src : Source) : State :=
  { s with cursor := src.cursor, dither := src.dither, ditherCount := src.count }

/-- `s` in the middle of a command: other agents, and SEQ and the staging state of the command. -/
def midway (s : State) (q : Seq) (g : Staging) (src : Source) : State := { s.withSource src with seq := q, staging := g }

@[simp] theorem midway_seq (s : State) (q : Seq) (g : Staging) (src : Source) : (midway s q g src).seq = q := rfl
@[simp] theorem midway_staging (s : State) (q : Seq) (g : Staging) (src : Source) : (midway s q g src).staging = g := rfl
@[simp] theorem midway_rom (s : State) (q : Seq) (g : Staging) (src : Source) : (midway s q g src).rom = s.rom := rfl
@[simp] theorem midway_cursor (s : State) (q : Seq) (g : Staging) (src : Source) :
    (midway s q g src).cursor = src.cursor := rfl
@[simp] theorem midway_running (s : State) (q : Seq) (g : Staging) (src : Source) :
    (midway s q g src).running = s.chan g.ch := rfl
@[simp] theorem midway_binHebap (s : State) (q : Seq) (g : Staging) (src : Source) :
    (midway s q g src).binHebap = (s.chan g.ch).bap.get q.bin := rfl

theorem beginAht_eq_midway (ch : Chan) (s : State) :
    beginAht ch s = midway s ⟨.mode, 0, 0, 0, 0⟩ { Staging.empty with ch := ch } s.source := rfl

/-- The error entry of AHT_DECODE for a failure of the pseudocode (20_memory.md R90, 60_exceptions.md R310). -/
def failedAht (s : State) (ch : Chan) (f : Failure) : State :=
  raiseError (.aht ch) f.code f.bin (if f.code = .cursorFail then loseCursor (s.withSource f.src) else s.withSource f.src)

/-- The state that an outcome of the pseudocode stands for: `fin` of its result, or the error entry of its failure. -/
def outcome {α : Type} (s : State) (ch : Chan) (fin : α → State) : Except Failure α → State
  | .ok a => fin a
  | .error f => failedAht s ch f

theorem outcome_consOk {α : Type} (s : State) (ch : Chan) (fin : List α × Source → State) (x : α)
    (r : Except Failure (List α × Source)) :
    outcome s ch fin (consOk x r) = outcome s ch (fun p => fin (x :: p.1, p.2)) r := by
  cases r <;> rfl

theorem outcome_appendOk {α : Type} (s : State) (ch : Chan) (fin : List α × Source → State) (xs : List α)
    (r : Except Failure (List α × Source)) :
    outcome s ch fin (appendOk xs r) = outcome s ch (fun p => fin (xs ++ p.1, p.2)) r := by
  cases r <;> rfl

/-- The error entry forgets SEQ and the staging state. -/
theorem raiseError_midway (o : Origin) (code : ErrCode) (bin : BitVec 9) (s : State) (q : Seq) (g : Staging) (src : Source) :
    raiseError o code bin (midway s q g src) = raiseError o code bin (s.withSource src) := by
  cases o <;> rfl

theorem cursorError_midway {q : Seq} {bin : BitVec 9} (hbin : (if q.phase = .mode then noBin else binField q.bin) = bin)
    (s : State) (g : Staging) (src : Source) :
    cursorError (midway s q g src) = failedAht s g.ch ⟨.cursorFail, bin, src⟩ := by
  subst hbin
  rfl

/-! ## The action of each phase -/

theorem seqStep_of_move {s t : State} (h : nextAction s = .move t) : seqStep s = t := by
  simp only [seqStep, h]

/-- An element that is read at the cursor is run, with the cursor behind it. -/
theorem seqStep_midway_of_element {s : State} {q : Seq} {g : Staging} {src : Source} {slot : Slot} {i : Instr} {rest : Bits}
    (hact : nextAction (midway s q g src) = .element slot) (hd : decodeElement slot src.cursor = .element i rest) :
    seqStep (midway s q g src) = runElement i (midway s q g { src with cursor := rest }) := by
  simp only [seqStep, hact, midway_cursor, hd]
  rfl

/-- A failed read is the error entry of the pseudocode's failure. -/
theorem steps_midway_of_cursorFail {s : State} {q : Seq} {g : Staging} {src : Source} {slot : Slot} {rest : Bits} {bin : BitVec 9}
    (hrun : q.phase ≠ .idle) (hact : nextAction (midway s q g src) = .element slot)
    (hd : decodeElement slot src.cursor = .cursorFail rest)
    (hbin : (if q.phase = .mode then noBin else binField q.bin) = bin) :
    Steps (midway s q g src) (failedAht s g.ch ⟨.cursorFail, bin, { src with cursor := rest }⟩) := by
  refine .one hrun ?_
  simp only [seqStep, hact, midway_cursor, hd]
  exact cursorError_midway hbin s g { src with cursor := rest }

theorem nextAction_gain_over {s : State} (hp : s.seq.phase = .gain) (h : s.staging.mode = 0 ∨ s.running.last ≤ s.seq.bin) :
    nextAction s = .move (beginBins s) := by
  simp only [nextAction, hp, gainAction, if_pos h]

section Gain

variable {s : State} (hp : s.seq.phase = .gain) (hm : s.staging.mode ≠ 0) (hb : s.seq.bin < s.running.last)
include hp hm hb

theorem nextAction_gain : nextAction s =
    if takesGain s.staging.mode s.binHebap = false then .move (nextGainBin s.seq.gc s)
    else if s.staging.mode ≠ 3 then .element .gaqgain
    else if s.seq.gc = 2 then .element .gaqgrp
    else .move (nextGainBin (s.seq.gc + 1) s) := by
  have h : ¬ (s.staging.mode = 0 ∨ s.running.last ≤ s.seq.bin) := not_or.2 ⟨hm, Nat.not_le.2 hb⟩
  simp only [nextAction, hp, gainAction, if_neg h]

theorem nextAction_gain_pass (ht : takesGain s.staging.mode s.binHebap = false) :
    nextAction s = .move (nextGainBin s.seq.gc s) := by
  rw [nextAction_gain hp hm hb, if_pos ht]

theorem nextAction_gain_bit (ht : takesGain s.staging.mode s.binHebap = true) (h3 : s.staging.mode ≠ 3) :
    nextAction s = .element .gaqgain := by
  rw [nextAction_gain hp hm hb, if_neg (by simp [ht]), if_pos h3]

theorem nextAction_gain_group (ht : takesGain s.staging.mode s.binHebap = true) (h3 : s.staging.mode = 3)
    (hgc : s.seq.gc = 2) : nextAction s = .element .gaqgrp := by
  rw [nextAction_gain hp hm hb, if_neg (by simp [ht]), if_neg (not_not.2 h3), if_pos hgc]

theorem nextAction_gain_count (ht : takesGain s.staging.mode s.binHebap = true) (h3 : s.staging.mode = 3)
    (hgc : s.seq.gc ≠ 2) : nextAction s = .move (nextGainBin (s.seq.gc + 1) s) := by
  rw [nextAction_gain hp hm hb, if_neg (by simp [ht]), if_neg (not_not.2 h3), if_neg hgc]

end Gain

theorem nextAction_mant_over {s : State} (hp : s.seq.phase = .mant) (hb : s.running.last ≤ s.seq.bin) :
    nextAction s = .move (commitAht s) := by
  simp only [nextAction, hp, mantAction, if_pos hb]

section Mantissa

variable {s : State} (hp : s.seq.phase = .mant) (hb : s.seq.bin < s.running.last)
include hp hb

theorem nextAction_mant : nextAction s =
    if s.binHebap = 0 then .element .dither
    else if s.binHebap.toNat ≤ 7 then .element (.vqcw s.binHebap (widthOf s.rom s.binHebap))
    else .element (.gmant s.binHebap (widthOf s.rom s.binHebap) (binGain s)) := by
  simp only [nextAction, hp, mantAction, if_neg (Nat.not_le.2 hb)]

theorem nextAction_dither (hh : s.binHebap = 0) : nextAction s = .element .dither := by
  rw [nextAction_mant hp hb, if_pos hh]

theorem nextAction_vqcw (hh : s.binHebap ≠ 0) (h7 : s.binHebap.toNat ≤ 7) :
    nextAction s = .element (.vqcw s.binHebap (widthOf s.rom s.binHebap)) := by
  rw [nextAction_mant hp hb, if_neg hh, if_pos h7]

theorem nextAction_gmant (h7 : 7 < s.binHebap.toNat) :
    nextAction s = .element (.gmant s.binHebap (widthOf s.rom s.binHebap) (binGain s)) := by
  have hh : s.binHebap ≠ 0 := fun h0 => by simp [h0] at h7
  rw [nextAction_mant hp hb, if_neg hh, if_neg (Nat.not_le.2 h7)]

end Mantissa

/-! ## The gain phase (R195 to R200) -/

theorem takesGain_iff_of_ne_zero {mode : BitVec 2} {h : Hebap} (hm : mode ≠ 0) :
    takesGain mode h = true ↔ 7 < h.toNat ∧ h.toNat < (if mode.toNat < 2 then 12 else 17) :=
  takesGain_iff.trans (and_iff_right hm)

theorem nextGainBin_midway (gc' : Nat) (s : State) (b gc : Nat) (g : Staging) (src : Source) :
    nextGainBin gc' (midway s ⟨.gain, b, 0, 0, gc⟩ g src) = midway s ⟨.gain, b + 1, 0, 0, gc'⟩ g src := rfl

theorem runElement_gaqgain_midway {u : Nat} (hu : u < 2 ^ 1) (s : State) (b gc : Nat) (g : Staging) (src : Source) :
    runElement (.gaqgain (BitVec.ofNat 1 u)) (midway s ⟨.gain, b, 0, 0, gc⟩ g src) =
      midway s ⟨.gain, b + 1, 0, 0, gc⟩ { g with gains := g.gains ++ [u * 2 ^ (g.mode.toNat - 1)] } src := by
  have hgain : gainOfBit g.mode (BitVec.ofNat 1 u) = u * 2 ^ (g.mode.toNat - 1) := by
    rw [gainOfBit, BitVec.toNat_ofNat, Nat.mod_eq_of_lt hu]
  rw [← hgain]
  rfl

theorem decodeElement_gaqgain_of_some {u : Nat} {bs rest : Bits} (hr : readBits 1 bs = some (u, rest)) :
    decodeElement .gaqgain bs = .element (.gaqgain (BitVec.ofNat 1 u)) rest := by
  simp only [decodeElement, hr]

theorem decodeElement_gaqgain_of_none {bs : Bits} (hr : readBits 1 bs = none) : decodeElement .gaqgain bs = .cursorFail bs := by
  simp only [decodeElement, hr]

theorem decodeElement_gaqgrp_of_some {u : Nat} {bs rest : Bits} (hr : readBits 5 bs = some (u, rest)) :
    decodeElement .gaqgrp bs = .element (.gaqgrp (BitVec.ofNat 5 u)) rest := by
  simp only [decodeElement, hr]

theorem decodeElement_gaqgrp_of_none {bs : Bits} (hr : readBits 5 bs = none) : decodeElement .gaqgrp bs = .cursorFail bs := by
  simp only [decodeElement, hr]

theorem decodeElement_gaqmod_of_some {u : Nat} {bs rest : Bits} (hr : readBits 2 bs = some (u, rest)) :
    decodeElement .gaqmod bs = .element (.gaqmod (BitVec.ofNat 2 u)) rest := by
  simp only [decodeElement, hr]

theorem decodeElement_gaqmod_of_none {bs : Bits} (hr : readBits 2 bs = none) : decodeElement .gaqmod bs = .cursorFail bs := by
  simp only [decodeElement, hr]

/-- HALF-STEP and QUARTER-STEP: the gain phase reads a gain for each bin that takes one. -/
theorem steps_gainBits {s : State} {g : Staging} {gc n b : Nat} {src : Source} (hm : g.mode ≠ 0) (h3 : g.mode ≠ 3)
    (hlast : b + n = (s.chan g.ch).last) :
    Steps (midway s ⟨.gain, b, 0, 0, gc⟩ g src)
      (outcome s g.ch (fun p => midway s ⟨.gain, b + n, 0, 0, gc⟩ { g with gains := g.gains ++ p.1 } p.2)
        (gainBits g.mode (fun b => (s.chan g.ch).bap.get b) (List.range' b n) src)) := by
  induction n generalizing b g src with
  | zero =>
    simp only [List.range'_zero, gainBits, outcome, List.append_nil]
    exact .refl _
  | succ n ih =>
    have hb : b < (s.chan g.ch).last := by omega
    rw [List.range'_succ, gainBits, ← Nat.add_assoc, Nat.add_right_comm]
    by_cases ht : takesGain g.mode ((s.chan g.ch).bap.get b) = true
    · rw [if_pos ((takesGain_iff_of_ne_zero hm).1 ht)]
      have hact : nextAction (midway s ⟨.gain, b, 0, 0, gc⟩ g src) = .element .gaqgain := nextAction_gain_bit rfl hm hb ht h3
      cases hr : readBits 1 src.cursor with
      | none => exact steps_midway_of_cursorFail (by simp) hact (decodeElement_gaqgain_of_none hr) rfl
      | some p =>
        obtain ⟨u, rest⟩ := p
        obtain ⟨-, -, -, hu⟩ := readBits_spec hr
        have hnext := ih (g := { g with gains := g.gains ++ [u * 2 ^ (g.mode.toNat - 1)] }) (b := b + 1)
          (src := { src with cursor := rest }) hm h3 (by rw [← hlast]; omega)
        simp only [List.append_assoc, List.singleton_append] at hnext
        refine .step (by simp) ?_
        rw [seqStep_midway_of_element hact (decodeElement_gaqgain_of_some hr), runElement_gaqgain_midway hu, outcome_consOk]
        exact hnext
    · rw [if_neg fun h => ht ((takesGain_iff_of_ne_zero hm).2 h)]
      refine .step (by simp) ?_
      rw [seqStep_of_move (nextAction_gain_pass (s := midway s ⟨.gain, b, 0, 0, gc⟩ g src) rfl hm hb (Bool.eq_false_iff.2 ht))]
      exact ih (g := g) (b := b + 1) hm h3 (by omega)

/-- The group counter after the bins (R196). -/
def groupCounterAfter (hebap : Nat → Hebap) : Nat → List Nat → Nat
  | gc, [] => gc
  | gc, b :: bs =>
    if 7 < (hebap b).toNat ∧ (hebap b).toNat < 17 then groupCounterAfter hebap (if gc = 2 then 0 else gc + 1) bs
    else groupCounterAfter hebap gc bs

/-- A group code read in MIXED: the error entry under FAULT above 26, else the three gains. -/
theorem runElement_gaqgrp_midway {u : Nat} (hu : u < 2 ^ 5) (s : State) (b gc : Nat) (g : Staging) (src : Source) :
    runElement (.gaqgrp (BitVec.ofNat 5 u)) (midway s ⟨.gain, b, 0, 0, gc⟩ g src) =
      if 26 < u ∧ s.rom.policy = .fault then failedAht s g.ch ⟨.gaqGroupRange, BitVec.ofNat 9 b, src⟩
      else midway s ⟨.gain, b + 1, 0, 0, 0⟩ { g with gains := g.gains ++ ungroup (if 26 < u then 26 else u) } src := by
  have hval : (BitVec.ofNat 5 u).toNat = u := by rw [BitVec.toNat_ofNat, Nat.mod_eq_of_lt hu]
  have hfault : groupFaults s.rom (BitVec.ofNat 5 u) = true ↔ 26 < u ∧ s.rom.policy = .fault := by
    simp [groupFaults, hval]
  have hclamp : clampCode (BitVec.ofNat 5 u) = if 26 < u then 26 else u := by rw [clampCode, hval]
  rw [← hclamp]
  simp only [← hfault]
  rfl

/-- MIXED: the gain phase reads a group code at every third bin that takes a gain. -/
theorem steps_gainGroups {s : State} {g : Staging} {gc n b : Nat} {src : Source} (h3 : g.mode = 3)
    (hlast : b + n = (s.chan g.ch).last) :
    Steps (midway s ⟨.gain, b, 0, 0, gc⟩ g src)
      (outcome s g.ch (fun p => midway s
          ⟨.gain, b + n, 0, 0, groupCounterAfter (fun b => (s.chan g.ch).bap.get b) gc (List.range' b n)⟩
          { g with gains := g.gains ++ p.1 } p.2)
        (gainGroups s.rom.policy (fun b => (s.chan g.ch).bap.get b) gc (List.range' b n) src)) := by
  have hm : g.mode ≠ 0 := by rw [h3]; decide
  induction n generalizing b gc g src with
  | zero =>
    simp only [List.range'_zero, gainGroups, groupCounterAfter, outcome, List.append_nil]
    exact .refl _
  | succ n ih =>
    have hb : b < (s.chan g.ch).last := by omega
    have hgain : takesGain g.mode ((s.chan g.ch).bap.get b) = true ↔
        7 < ((s.chan g.ch).bap.get b).toNat ∧ ((s.chan g.ch).bap.get b).toNat < 17 := by
      rw [takesGain_iff_of_ne_zero hm, h3]
      exact Iff.rfl
    rw [List.range'_succ, gainGroups, groupCounterAfter, ← Nat.add_assoc, Nat.add_right_comm]
    by_cases ht : takesGain g.mode ((s.chan g.ch).bap.get b) = true
    · rw [if_pos (hgain.1 ht), if_pos (hgain.1 ht)]
      by_cases hgc : gc = 2
      · rw [if_pos hgc, if_pos hgc]
        have hact : nextAction (midway s ⟨.gain, b, 0, 0, gc⟩ g src) = .element .gaqgrp :=
          nextAction_gain_group rfl hm hb ht h3 hgc
        cases hr : readBits 5 src.cursor with
        | none => exact steps_midway_of_cursorFail (by simp) hact (decodeElement_gaqgrp_of_none hr) rfl
        | some p =>
          obtain ⟨u, rest⟩ := p
          obtain ⟨-, -, -, hu⟩ := readBits_spec hr
          refine .step (by simp) ?_
          rw [seqStep_midway_of_element hact (decodeElement_gaqgrp_of_some hr), runElement_gaqgrp_midway hu]
          by_cases hfault : 26 < u ∧ s.rom.policy = .fault
          · simp only [if_pos hfault]
            exact .refl _
          · have hnext := ih (g := { g with gains := g.gains ++ ungroup (if 26 < u then 26 else u) }) (b := b + 1) (gc := 0)
              (src := { src with cursor := rest }) h3 (by rw [← hlast]; omega) hm
            simp only [List.append_assoc] at hnext
            simp only [if_neg hfault, outcome_appendOk]
            exact hnext
      · rw [if_neg hgc, if_neg hgc]
        refine .step (by simp) ?_
        rw [seqStep_of_move (nextAction_gain_count (s := midway s ⟨.gain, b, 0, 0, gc⟩ g src) rfl hm hb ht h3 hgc)]
        exact ih (g := g) (b := b + 1) h3 (by omega) hm
    · rw [if_neg fun h => ht (hgain.2 h), if_neg fun h => ht (hgain.2 h)]
      refine .step (by simp) ?_
      rw [seqStep_of_move (nextAction_gain_pass (s := midway s ⟨.gain, b, 0, 0, gc⟩ g src) rfl hm hb (Bool.eq_false_iff.2 ht))]
      exact ih (g := g) (b := b + 1) h3 (by omega) hm

/-- The gain phase, in every mode, up to the first bin of the per-bin phase. -/
theorem steps_readGains {s : State} {g : Staging} {src : Source} (hg : g.gains = [])
    (hrange : (s.chan g.ch).first ≤ (s.chan g.ch).last) :
    ∃ gc, Steps (midway s ⟨.gain, (s.chan g.ch).first, 0, 0, 2⟩ g src)
      (outcome s g.ch (fun p => midway s ⟨.mant, (s.chan g.ch).first, 0, 0, gc⟩ { g with gains := p.1 } p.2)
        (readGains s.rom.policy g.mode (fun b => (s.chan g.ch).bap.get b)
          (List.range' (s.chan g.ch).first (s.chan g.ch).count) src)) := by
  have hcount := Channel.first_add_count hrange
  -- past the range the gain phase goes on to the bins
  have past_range {gc : Nat} {r : Except Failure (List Nat × Source)}
      (h : Steps (midway s ⟨.gain, (s.chan g.ch).first, 0, 0, 2⟩ g src)
        (outcome s g.ch (fun p => midway s ⟨.gain, (s.chan g.ch).first + (s.chan g.ch).count, 0, 0, gc⟩
          { g with gains := g.gains ++ p.1 } p.2) r)) :
      Steps (midway s ⟨.gain, (s.chan g.ch).first, 0, 0, 2⟩ g src)
        (outcome s g.ch (fun p => midway s ⟨.mant, (s.chan g.ch).first, 0, 0, gc⟩ { g with gains := p.1 } p.2) r) := by
    cases r with
    | error f => exact h
    | ok p =>
      simp only [hg, List.nil_append] at h
      exact h.trans (.one (by simp [outcome]) (seqStep_of_move (nextAction_gain_over rfl (.inr hcount.ge))))
  unfold readGains
  by_cases hm : g.mode = 0
  · rw [if_pos hm]
    refine ⟨2, .one (by simp) ((seqStep_of_move (nextAction_gain_over rfl (.inl hm))).trans ?_)⟩
    rw [outcome, ← hg]
    rfl
  · rw [if_neg hm]
    by_cases h3 : g.mode = 3
    · rw [if_pos h3]
      exact ⟨_, past_range (steps_gainGroups h3 hcount)⟩
    · rw [if_neg h3]
      exact ⟨_, past_range (steps_gainBits hm h3 hcount)⟩

end Sys2Proof.Machine
end

section
/-! PROOFS. The per-bin phase of an AHT_DECODE follows the pseudocode (42_mantissa.md R220 to R231), and so does the whole command
(41_gaq_gain.md R190, 42_mantissa.md R236). -/

namespace Sys2Proof.Machine

open Sys2Proof.Safety

/-! ## The staged words -/

/-- The words `ws` in the cells from `a` on. -/
def storeWords : Memory 32 → Nat → List Word → Memory 32
  | m, _, [] => m
  | m, a, w :: ws => storeWords (m.set a w) (a + 1) ws

/-- The words of the bins from `b` on, six cells a bin. -/
def storeBins : Memory 32 → Nat → List (List Word) → Memory 32
  | m, _, [] => m
  | m, b, ws :: wss => storeBins (storeWords m (6 * b) ws) (b + 1) wss

/-- Six blocks staged one after the other are six words in a row. -/
theorem storeWords_map_range (m : Memory 32) (b : Nat) (f : Nat → Word) :
    storeWords m (6 * b) ((List.range 6).map f) = (List.range 6).foldl (fun m blk => m.set (pmIndex b blk) (f blk)) m := rfl

/-! ## One mantissa (R227, R229, R231) -/

/-- The pseudocode's read of one mantissa, with its value. -/
def readMantissa (p : Params) (b : Nat) (h : Hebap) (w g : Nat) (src : Source) : Except Failure (Int × Source) :=
  match readSBits (w - g) src.cursor with
  | none => .error ⟨.cursorFail, BitVec.ofNat 9 b, src⟩
  | some (m, rest) =>
    if 0 < g ∧ m = escapeValue w g then
      match readSBits (w - 2 + g) rest with
      | none => .error ⟨.cursorFail, BitVec.ofNat 9 b, { src with cursor := rest }⟩
      | some (l, rest') => .ok (gaqLargeValue p h w g l, { src with cursor := rest' })
    else .ok (if g = 0 then gaqPlainValue p h w m else gaqSmallValue w m, { src with cursor := rest })

theorem mantissas_succ (p : Params) (b : Nat) (h : Hebap) (w g n : Nat) (src : Source) :
    mantissas p b h w g (n + 1) src = match readMantissa p b h w g src with
      | .error f => .error f
      | .ok (v, src') => consOk (toReg v) (mantissas p b h w g n src') := by
  rw [mantissas, readMantissa]
  cases readSBits (w - g) src.cursor with
  | none => rfl
  | some q =>
    obtain ⟨m, rest⟩ := q
    by_cases hesc : 0 < g ∧ m = escapeValue w g
    · simp only [if_pos hesc]
      rw [if_pos (show 0 < g ∧ m = -(2 : Int) ^ (w - g - 1) from hesc)]
      cases readSBits (w - 2 + g) rest <;> rfl
    · simp only [if_neg hesc]
      rw [if_neg (show ¬ (0 < g ∧ m = -(2 : Int) ^ (w - g - 1)) from hesc)]
      rfl

/-- The gain shift of a bin whose next gain stands at `k`. -/
def shiftOf (g : Staging) (k : Nat) (h : Hebap) : Nat := if takesGain g.mode h then g.gains.getD k 0 else 0

/-- The gain index after a bin. -/
def nextGain (g : Staging) (k : Nat) (h : Hebap) : Nat := if takesGain g.mode h then k + 1 else k

/-- A GMANT is the pseudocode's mantissa, staged for the block SEQ stands at. -/
theorem steps_readMantissa {s : State} {g : Staging} {b blk k gc : Nat} {src : Source} (hb : b < (s.chan g.ch).last)
    (h7 : 7 < ((s.chan g.ch).bap.get b).toNat) :
    Steps (midway s ⟨.mant, b, blk, k, gc⟩ g src)
      (outcome s g.ch (fun p => stageMantissa p.1 (midway s ⟨.mant, b, blk, k, gc⟩ g p.2))
        (readMantissa s.rom b ((s.chan g.ch).bap.get b) (widthOf s.rom ((s.chan g.ch).bap.get b))
          (shiftOf g k ((s.chan g.ch).bap.get b)) src)) := by
  generalize hh : (s.chan g.ch).bap.get b = h at h7 ⊢
  generalize hw : widthOf s.rom h = w
  generalize hs : shiftOf g k h = sh
  have hact : nextAction (midway s ⟨.mant, b, blk, k, gc⟩ g src) = .element (.gmant h w sh) := by
    subst hh hw hs
    exact nextAction_gmant rfl hb h7
  have run {i : Instr} {rest : Bits} {t : State} (hd : decodeElement (.gmant h w sh) src.cursor = .element i rest)
      (ht : runElement i (midway s ⟨.mant, b, blk, k, gc⟩ g { src with cursor := rest }) = t) :
      Steps (midway s ⟨.mant, b, blk, k, gc⟩ g src) t :=
    .one (by simp) ((seqStep_midway_of_element hact hd).trans ht)
  unfold readMantissa
  cases hr : readSBits (w - sh) src.cursor with
  | none => exact steps_midway_of_cursorFail (by simp) hact (decodeElement_gmant_of_none hr h) rfl
  | some q =>
    obtain ⟨m, rest⟩ := q
    have hd := decodeElement_gmant_of_some hr h
    by_cases hesc : 0 < sh ∧ m = escapeValue w sh
    · obtain ⟨hpos, rfl⟩ := hesc
      simp only [hpos, and_self, if_true]
      cases hl : readSBits (w - 2 + sh) rest with
      | none => exact steps_midway_of_cursorFail (by simp) hact (hd.trans (decodeMantissa_escape_of_none hpos hl h)) rfl
      | some q => exact run (hd.trans (decodeMantissa_escape_of_some hpos hl h)) rfl
    · simp only [if_neg hesc]
      by_cases h0 : sh = 0
      · subst h0
        exact run (hd.trans (decodeMantissa_zero h w m rest)) rfl
      · have hpos : 0 < sh := Nat.pos_of_ne_zero h0
        rw [if_neg h0]
        exact run (hd.trans (decodeMantissa_of_ne_escape hpos (fun hm => hesc ⟨hpos, hm⟩) h rest)) rfl

theorem stageMantissa_midway_of_lt {blk : Nat} (hblk : blk < 5) (v : Int) (s : State) (b k gc : Nat) (g : Staging) (src : Source) :
    stageMantissa v (midway s ⟨.mant, b, blk, k, gc⟩ g src) =
      midway s ⟨.mant, b, blk + 1, k, gc⟩ { g with spm := g.spm.set (6 * b + blk) (toReg v) } src := by
  rw [stageMantissa_frame, stageMantissa_spm, stageMantissa_seq_of_lt hblk]
  rfl

theorem stageMantissa_midway_of_last (v : Int) (s : State) (b k gc : Nat) (g : Staging) (src : Source) :
    stageMantissa v (midway s ⟨.mant, b, 5, k, gc⟩ g src) =
      midway s ⟨.mant, b + 1, 0, nextGain g k ((s.chan g.ch).bap.get b), gc⟩
        { g with spm := g.spm.set (6 * b + 5) (toReg v) } src := by
  rw [stageMantissa_frame, stageMantissa_spm, stageMantissa_seq_of_last rfl]
  rfl

/-- The mantissas of the blocks from `blk` to 5, and on to the next bin. -/
theorem steps_mantissas {s : State} {g : Staging} {b k gc n blk : Nat} {src : Source} (hblk : blk + n = 5)
    (hb : b < (s.chan g.ch).last) (h7 : 7 < ((s.chan g.ch).bap.get b).toNat) :
    Steps (midway s ⟨.mant, b, blk, k, gc⟩ g src)
      (outcome s g.ch (fun p => midway s ⟨.mant, b + 1, 0, nextGain g k ((s.chan g.ch).bap.get b), gc⟩
          { g with spm := storeWords g.spm (6 * b + blk) p.1 } p.2)
        (mantissas s.rom b ((s.chan g.ch).bap.get b) (widthOf s.rom ((s.chan g.ch).bap.get b))
          (shiftOf g k ((s.chan g.ch).bap.get b)) (n + 1) src)) := by
  induction n generalizing blk g src with
  | zero =>
    obtain rfl : blk = 5 := hblk
    have hone := steps_readMantissa (blk := 5) (k := k) (gc := gc) (src := src) hb h7
    rw [mantissas_succ]
    cases hr : readMantissa s.rom b ((s.chan g.ch).bap.get b) (widthOf s.rom ((s.chan g.ch).bap.get b))
        (shiftOf g k ((s.chan g.ch).bap.get b)) src with
    | error f =>
      rw [hr] at hone
      exact hone
    | ok p =>
      rw [hr] at hone
      simp only [outcome, stageMantissa_midway_of_last] at hone
      exact hone
  | succ n ih =>
    have hone := steps_readMantissa (blk := blk) (k := k) (gc := gc) (src := src) hb h7
    rw [mantissas_succ]
    cases hr : readMantissa s.rom b ((s.chan g.ch).bap.get b) (widthOf s.rom ((s.chan g.ch).bap.get b))
        (shiftOf g k ((s.chan g.ch).bap.get b)) src with
    | error f =>
      rw [hr] at hone
      exact hone
    | ok p =>
      obtain ⟨v, src'⟩ := p
      rw [hr] at hone
      simp only [outcome, stageMantissa_midway_of_lt (show blk < 5 by omega)] at hone
      refine hone.trans ?_
      simp only [outcome_consOk]
      exact ih (g := { g with spm := g.spm.set (6 * b + blk) (toReg v) }) (blk := blk + 1) (src := src') (by omega) hb h7

/-! ## One bin (R220, R222, R224) -/

theorem nextGain_of_le {h : Hebap} (hh : h.toNat ≤ 7) (g : Staging) (k : Nat) : nextGain g k h = k := by
  rw [nextGain, takesGain_eq_false_of_le hh]
  rfl

/-- The pseudocode's draws are those of the dither source. -/
theorem ditherWords_eq (n : Nat) (s : State) (q : Seq) (g : Staging) (src : Source) :
    ditherWords n src = ((List.range n).map (ditherWord (midway s q g src)),
      { src with dither := src.dither.drop n, count := src.count + n }) := by
  induction n generalizing src with
  | zero => rfl
  | succ n ih =>
    obtain ⟨cursor, dither, count⟩ := src
    rw [List.range_succ_eq_map, List.map_cons, List.map_map]
    have hcount (i : Nat) : count + 1 + i = count + (i + 1) := by omega
    cases dither with
    | nil =>
      simp only [ditherWords, ih]
      simp [ditherWord, ditherAt, ditherValue, midway, State.withSource, Function.comp_def, hcount]
    | cons d ds =>
      simp only [ditherWords, ih]
      simp [ditherWord, ditherAt, ditherValue, midway, State.withSource, Function.comp_def, hcount]

theorem applyDitherFill_midway {s : State} {g : Staging} {b : Nat} (hh : (s.chan g.ch).bap.get b = 0) (k gc : Nat) (src : Source) :
    applyDitherFill (midway s ⟨.mant, b, 0, k, gc⟩ g src) =
      midway s ⟨.mant, b + 1, 0, k, gc⟩ { g with spm := storeWords g.spm (6 * b) (ditherWords 6 src).1 } (ditherWords 6 src).2 := by
  have hgain : takesGain g.mode ((s.chan g.ch).bap.get b) = false := takesGain_eq_false_of_le (by rw [hh]; decide) _
  rw [ditherWords_eq 6 s ⟨.mant, b, 0, k, gc⟩ g src, storeWords_map_range, applyDitherFill_frame, applyDitherFill_spm,
    nextBin_of_no_gain hgain]
  rfl

theorem applyVqDecode_midway {s : State} {g : Staging} {b : Nat} (hh : ((s.chan g.ch).bap.get b).toNat ≤ 7) (h : Hebap)
    (w v k gc : Nat) (src : Source) :
    applyVqDecode h w v (midway s ⟨.mant, b, 0, k, gc⟩ g src) =
      midway s ⟨.mant, b + 1, 0, k, gc⟩
        { g with spm := storeWords g.spm (6 * b) ((List.range 6).map fun blk => toReg (vqEntry s.rom h v blk * 256)) } src := by
  have hbin : (midway s ⟨.mant, b, 0, k, gc⟩ g src).binHebap.toNat ≤ 7 := hh
  rw [storeWords_map_range, applyVqDecode_frame hbin, applyVqDecode_spm]
  rfl

/-- The elements of a bin stage what the pseudocode decodes for it. -/
theorem steps_decodeBin {s : State} {g : Staging} {b k gc : Nat} {src : Source} (hb : b < (s.chan g.ch).last) :
    Steps (midway s ⟨.mant, b, 0, k, gc⟩ g src)
      (outcome s g.ch (fun p => midway s ⟨.mant, b + 1, 0, nextGain g k ((s.chan g.ch).bap.get b), gc⟩
          { g with spm := storeWords g.spm (6 * b) p.1 } p.2)
        (decodeBin s.rom (fun b => (s.chan g.ch).bap.get b) (shiftOf g k ((s.chan g.ch).bap.get b)) b src)) := by
  unfold decodeBin
  by_cases h0 : (s.chan g.ch).bap.get b = 0
  · have hact : nextAction (midway s ⟨.mant, b, 0, k, gc⟩ g src) = .element .dither := nextAction_dither rfl hb h0
    simp only [if_pos h0, nextGain_of_le (show ((s.chan g.ch).bap.get b).toNat ≤ 7 by rw [h0]; decide)]
    exact .one (by simp) ((seqStep_midway_of_element hact rfl).trans (applyDitherFill_midway h0 k gc src))
  · simp only [if_neg h0]
    by_cases h7 : ((s.chan g.ch).bap.get b).toNat ≤ 7
    · have hact : nextAction (midway s ⟨.mant, b, 0, k, gc⟩ g src) =
          .element (.vqcw ((s.chan g.ch).bap.get b) (widthOf s.rom ((s.chan g.ch).bap.get b))) := nextAction_vqcw rfl hb h0 h7
      simp only [if_pos h7, nextGain_of_le h7]
      cases hr : readBits (widthOf s.rom ((s.chan g.ch).bap.get b)) src.cursor with
      | none => exact steps_midway_of_cursorFail (by simp) hact (decodeElement_vqcw_of_none hr _) rfl
      | some p =>
        exact .one (by simp) ((seqStep_midway_of_element hact (decodeElement_vqcw_of_some hr _)).trans
          (applyVqDecode_midway h7 _ (widthOf s.rom ((s.chan g.ch).bap.get b)) p.1 k gc _))
    · simp only [if_neg h7]
      exact steps_mantissas (n := 5) rfl hb (Nat.not_le.1 h7)

/-! ## All bins, and the commit (R236) -/

/-- The state after an AHT_DECODE whose staging copy is `spm`. -/
def committedAht (s : State) (ch : Chan) (mode : BitVec 2) (spm : Memory 32) (src : Source) : State :=
  endCommand ((s.withSource src).setChan ch ((s.chan ch).commitPremants mode spm))

/-- The pseudocode's bins, with the model's word for a bin that takes a gain. -/
theorem decodeBins_cons (p : Params) (mode : BitVec 2) (hebap : Nat → Hebap) (b : Nat) (bs gs : List Nat) (src : Source) :
    decodeBins p mode hebap (b :: bs) gs src =
      match decodeBin p hebap (if takesGain mode (hebap b) then gs.headD 0 else 0) b src with
      | .error e => .error e
      | .ok (ws, src') => consOk ws (decodeBins p mode hebap bs (if takesGain mode (hebap b) then gs.tail else gs) src') := by
  have hgain : takesGain mode (hebap b) = true ↔
      mode ≠ 0 ∧ 8 ≤ (hebap b).toNat ∧ (hebap b).toNat < (if mode.toNat < 2 then 12 else 17) := takesGain_iff
  simp only [decodeBins, hgain] <;> rfl

/-- The per-bin phase decodes the bins of the range and commits them. -/
theorem steps_decodeBins {s : State} {g : Staging} {gc n b k : Nat} {src : Source} (hlast : b + n = (s.chan g.ch).last) :
    Steps (midway s ⟨.mant, b, 0, k, gc⟩ g src)
      (outcome s g.ch (fun p => committedAht s g.ch g.mode (storeBins g.spm b p.1) p.2)
        (decodeBins s.rom g.mode (fun b => (s.chan g.ch).bap.get b) (List.range' b n) (g.gains.drop k) src)) := by
  induction n generalizing b k g src with
  | zero => exact .one (by simp) (seqStep_of_move (nextAction_mant_over rfl hlast.ge))
  | succ n ih =>
    have hbin := steps_decodeBin (k := k) (gc := gc) (src := src) (show b < (s.chan g.ch).last by omega)
    have hshift : (if takesGain g.mode ((s.chan g.ch).bap.get b) then (g.gains.drop k).headD 0 else 0) =
        shiftOf g k ((s.chan g.ch).bap.get b) := by
      simp [shiftOf, List.headD_eq_head?_getD]
    have hrest : (if takesGain g.mode ((s.chan g.ch).bap.get b) then (g.gains.drop k).tail else g.gains.drop k) =
        g.gains.drop (nextGain g k ((s.chan g.ch).bap.get b)) := by
      unfold nextGain
      split
      · rw [List.tail_drop]
      · rfl
    rw [List.range'_succ, decodeBins_cons, hshift, hrest]
    cases hd : decodeBin s.rom (fun b => (s.chan g.ch).bap.get b) (shiftOf g k ((s.chan g.ch).bap.get b)) b src with
    | error f =>
      rw [hd] at hbin
      exact hbin
    | ok p =>
      obtain ⟨ws, src'⟩ := p
      rw [hd] at hbin
      refine hbin.trans ?_
      simp only [outcome_consOk]
      exact ih (g := { g with spm := storeWords g.spm (6 * b) ws }) (b := b + 1) (by rw [← hlast]; omega)

/-! ## The whole command (R190) -/

/-- The state that an outcome of AHT_DECODE's pseudocode stands for. -/
def ahtOutcome (s : State) (ch : Chan) : Except Failure (BitVec 2 × List (List Word) × Source) → State :=
  outcome s ch fun p => committedAht s ch p.1 (storeBins [] (s.chan ch).first p.2.1) p.2.2

theorem runElement_gaqmod_midway (mode : BitVec 2) (s : State) (q : Seq) (g : Staging) (src : Source) :
    runElement (.gaqmod mode) (midway s q g src) =
      midway s ⟨.gain, (s.chan g.ch).first, 0, 0, 2⟩ { g with mode := mode, gains := [] } src := rfl

/-- The pseudocode after the mode is read, with the bins named as the model names them. -/
theorem decodeChannel_of_mode {p : Params} {c : Channel} {src : Source} {u : Nat} {rest : Bits}
    (hr : readBits 2 src.cursor = some (u, rest)) :
    decodeChannel p c src =
      match readGains p.policy (BitVec.ofNat 2 u) (fun b => c.bap.get b) c.bins { src with cursor := rest } with
      | .error e => .error e
      | .ok (gs, src') =>
        match decodeBins p (BitVec.ofNat 2 u) (fun b => c.bap.get b) c.bins gs src' with
        | .error e => .error e
        | .ok (ws, src'') => .ok (BitVec.ofNat 2 u, ws, src'') := by
  simp only [decodeChannel, hr]
  rfl

theorem decodeChannel_of_no_mode {p : Params} {c : Channel} {src : Source} (hr : readBits 2 src.cursor = none) :
    decodeChannel p c src = .error ⟨.cursorFail, noBin, src⟩ := by
  simp only [decodeChannel, hr]
  rfl

/-- Once the mode is read, the gain phase and the per-bin phase follow the pseudocode. -/
theorem steps_afterMode {s : State} {g : Staging} {src : Source} (hgains : g.gains = []) (hspm : g.spm = [])
    (hrange : (s.chan g.ch).first ≤ (s.chan g.ch).last) :
    Steps (midway s ⟨.gain, (s.chan g.ch).first, 0, 0, 2⟩ g src) (ahtOutcome s g.ch
      (match readGains s.rom.policy g.mode (fun b => (s.chan g.ch).bap.get b) (s.chan g.ch).bins src with
      | .error e => .error e
      | .ok (gs, src') =>
        match decodeBins s.rom g.mode (fun b => (s.chan g.ch).bap.get b) (s.chan g.ch).bins gs src' with
        | .error e => .error e
        | .ok (ws, src'') => .ok (g.mode, ws, src''))) := by
  obtain ⟨gc, hsteps⟩ := steps_readGains (src := src) hgains hrange
  rw [← Channel.bins] at hsteps
  cases hg : readGains s.rom.policy g.mode (fun b => (s.chan g.ch).bap.get b) (s.chan g.ch).bins src with
  | error f =>
    rw [hg] at hsteps
    exact hsteps
  | ok p =>
    obtain ⟨gs, src'⟩ := p
    rw [hg] at hsteps
    have hbins := steps_decodeBins (s := s) (g := { g with gains := gs }) (gc := gc) (k := 0) (src := src')
      (Channel.first_add_count hrange)
    rw [← Channel.bins, List.drop_zero] at hbins
    refine hsteps.trans (hbins.trans ?_)
    simp only [hspm]
    cases decodeBins s.rom g.mode (fun b => (s.chan g.ch).bap.get b) (s.chan g.ch).bins gs src' <;> exact .refl _

theorem steps_decodeChannel {s : State} {ch : Chan} (hrange : (s.chan ch).first ≤ (s.chan ch).last) :
    Steps (beginAht ch s) (ahtOutcome s ch (decodeChannel s.rom (s.chan ch) s.source)) := by
  have hact : nextAction (beginAht ch s) = .element .gaqmod := rfl
  rw [beginAht_eq_midway] at hact ⊢
  cases hr : readBits 2 s.source.cursor with
  | none =>
    rw [decodeChannel_of_no_mode hr]
    exact steps_midway_of_cursorFail (by simp) hact (decodeElement_gaqmod_of_none hr) rfl
  | some p =>
    obtain ⟨u, rest⟩ := p
    rw [decodeChannel_of_mode hr]
    refine .step (by simp) ?_
    rw [seqStep_midway_of_element hact (decodeElement_gaqmod_of_some hr), runElement_gaqmod_midway]
    exact steps_afterMode (g := { Staging.empty with ch := ch, mode := BitVec.ofNat 2 u }) rfl rfl hrange

theorem ahtOutcome_ready (s : State) (ch : Chan) (r : Except Failure (BitVec 2 × List (List Word) × Source)) :
    Ready (ahtOutcome s ch r) := by
  cases r with
  | ok p => exact ⟨rfl, rfl⟩
  | error f => exact ⟨raiseError_seq _ _ _ _, raiseError_staging _ _ _ _⟩

/-- Outside the error state AHT_DECODE with good inputs answers what its pseudocode gives. -/
theorem exec_ahtDecode_eq_outcome {s : State} {ch : Chan} (he : s.status.err = false) (hok : AhtInputsOk s.rom (s.chan ch)) :
    exec (.ahtDecode ch) s = .next (ahtOutcome s ch (decodeChannel s.rom (s.chan ch) s.source)) := by
  have hidle {t : State} (h : Ready t) : t.seq.phase = .idle := by rw [h.1]; rfl
  rw [exec_ahtDecode_of_ok he hok, runToIdle_eq_of_steps (steps_decodeChannel hok.range.1) (hidle (ahtOutcome_ready _ _ _))
    (hidle (beginAht_ready hok))]

end Sys2Proof.Machine
end

section
/-! PROOFS. What the pseudocode reads of the agents when it succeeds, how many words it gives, and the statements about AHT_DECODE that
follow (42_mantissa.md R236, 41_gaq_gain.md R202, 70_reset_and_hazards.md R357). -/

namespace Sys2Proof.Machine

open Sys2Proof.Safety

/-! ## Reads of the cursor -/

/-- The one source has at most `n` bits off the front of the cursor of the other. -/
def BitsUsed (n : Nat) (src src' : Source) : Prop := ∃ used, src.cursor = used ++ src'.cursor ∧ used.length ≤ n

theorem BitsUsed.refl (src : Source) : BitsUsed 0 src src := ⟨[], rfl, le_rfl⟩

theorem BitsUsed.mono {m n : Nat} {src src' : Source} (h : BitsUsed m src src') (hmn : m ≤ n) : BitsUsed n src src' := by
  obtain ⟨used, hused, hlen⟩ := h
  exact ⟨used, hused, hlen.trans hmn⟩

theorem BitsUsed.trans {m n : Nat} {src src' src'' : Source} (h : BitsUsed m src src') (h' : BitsUsed n src' src'') :
    BitsUsed (m + n) src src'' := by
  obtain ⟨used, hused, hlen⟩ := h
  obtain ⟨used', hused', hlen'⟩ := h'
  exact ⟨used ++ used', by rw [hused, hused', List.append_assoc], by rw [List.length_append]; omega⟩

theorem bitsUsed_of_readBits {n u : Nat} {src : Source} {rest : Bits} (h : readBits n src.cursor = some (u, rest)) :
    BitsUsed n src { src with cursor := rest } := by
  obtain ⟨used, hused, hlen, -⟩ := readBits_spec h
  exact ⟨used, hused, hlen.le⟩

theorem bitsUsed_of_readSBits {n : Nat} {m : Int} {src : Source} {rest : Bits} (h : readSBits n src.cursor = some (m, rest)) :
    BitsUsed n src { src with cursor := rest } := by
  obtain ⟨u, hu, -⟩ := readSBits_eq_some.1 h
  exact bitsUsed_of_readBits hu

theorem consOk_eq_ok {α ε σ : Type} {x : α} {r : Except ε (List α × σ)} {ys : List α} {src : σ} :
    consOk x r = .ok (ys, src) ↔ ∃ xs, ys = x :: xs ∧ r = .ok (xs, src) := by
  cases r with
  | error e => simp [consOk]
  | ok p => simp [consOk, Prod.ext_iff, eq_comm, and_comm]

theorem appendOk_eq_ok {α ε σ : Type} {xs : List α} {r : Except ε (List α × σ)} {ys : List α} {src : σ} :
    appendOk xs r = .ok (ys, src) ↔ ∃ zs, ys = xs ++ zs ∧ r = .ok (zs, src) := by
  cases r with
  | error e => simp [appendOk]
  | ok p => simp [appendOk, Prod.ext_iff, eq_comm, and_comm]

/-! ## The gain phase: at most 5 bits for three gains, each at most 2 -/

/-- What a successful gain phase reads and gives. -/
structure GainsRead (n : Nat) (src : Source) (gs : List Nat) (src' : Source) : Prop where
  bits  : BitsUsed n src src'
  count : src'.count = src.count
  le    : ∀ g ∈ gs, g ≤ 2

theorem GainsRead.nil (src : Source) : GainsRead 0 src [] src := ⟨.refl src, rfl, by simp⟩

theorem GainsRead.mono {m n : Nat} {src src' : Source} {gs : List Nat} (h : GainsRead m src gs src') (hmn : m ≤ n) :
    GainsRead n src gs src' := ⟨h.bits.mono hmn, h.count, h.le⟩

/-- A read before a gain phase adds its bits and its gains. -/
theorem GainsRead.after_read {m n u : Nat} {src src' : Source} {rest : Bits} {gs hs : List Nat}
    (hr : readBits m src.cursor = some (u, rest)) (hgs : ∀ g ∈ gs, g ≤ 2)
    (h : GainsRead n { src with cursor := rest } hs src') : GainsRead (m + n) src (gs ++ hs) src' :=
  ⟨(bitsUsed_of_readBits hr).trans h.bits, h.count, forall_le_two_append hgs h.le⟩

theorem scaled_gain_le_two {mode : BitVec 2} {u : Nat} (h3 : mode ≠ 3) (hu : u < 2 ^ 1) : u * 2 ^ (mode.toNat - 1) ≤ 2 := by
  have hmode : ∀ mode : BitVec 2, mode ≠ 3 → 2 ^ (mode.toNat - 1) ≤ 2 := by decide
  have hscale := hmode mode h3
  have hu1 : u ≤ 1 := Nat.le_of_lt_succ hu
  calc u * 2 ^ (mode.toNat - 1) ≤ 1 * 2 := Nat.mul_le_mul hu1 hscale
    _ = 2 := rfl

theorem gainBits_ok {mode : BitVec 2} (h3 : mode ≠ 3) {hebap : Nat → Hebap} {bs gs : List Nat} {src src' : Source}
    (h : gainBits mode hebap bs src = .ok (gs, src')) : GainsRead bs.length src gs src' := by
  induction bs generalizing gs src with
  | nil =>
    cases h
    exact .nil _
  | cons b bs ih =>
    rw [gainBits] at h
    by_cases hq : 7 < (hebap b).toNat ∧ (hebap b).toNat < (if mode.toNat < 2 then 12 else 17)
    · rw [if_pos hq] at h
      cases hr : readBits 1 src.cursor with
      | none =>
        rw [hr] at h
        cases h
      | some p =>
        obtain ⟨u, rest⟩ := p
        obtain ⟨-, -, -, hu⟩ := readBits_spec hr
        rw [hr] at h
        obtain ⟨hs, rfl, hrest⟩ := consOk_eq_ok.1 h
        refine (GainsRead.after_read hr (gs := [_]) ?_ (ih hrest)).mono (by rw [List.length_cons]; omega)
        simpa using scaled_gain_le_two h3 hu
    · rw [if_neg hq] at h
      exact (ih h).mono (by simp)

theorem gainGroups_ok {policy : OorPolicy} {hebap : Nat → Hebap} {gc : Nat} {bs gs : List Nat} {src src' : Source}
    (hgc : gc ≤ 2) (h : gainGroups policy hebap gc bs src = .ok (gs, src')) :
    GainsRead (5 * ((bs.length + gc) / 3)) src gs src' := by
  induction bs generalizing gc gs src with
  | nil =>
    cases h
    exact (GainsRead.nil _).mono (Nat.zero_le _)
  | cons b bs ih =>
    rw [gainGroups] at h
    split at h
    · split at h
      case isTrue hgc2 =>
        cases hr : readBits 5 src.cursor with
        | none =>
          rw [hr] at h
          cases h
        | some p =>
          obtain ⟨u, rest⟩ := p
          rw [hr] at h
          simp only at h
          split at h
          · cases h
          · obtain ⟨hs, rfl, hrest⟩ := appendOk_eq_ok.1 h
            have hcode : (if 26 < u then 26 else u) ≤ 26 := by split <;> omega
            refine (GainsRead.after_read hr (fun g hg => ungroup_le_two hcode hg) (ih (Nat.zero_le 2) hrest)).mono ?_
            rw [List.length_cons]
            omega
      case isFalse hgc2 =>
        refine (ih (by omega) h).mono ?_
        rw [List.length_cons]
        omega
    · refine (ih hgc h).mono ?_
      rw [List.length_cons]
      omega

theorem readGains_ok {policy : OorPolicy} {mode : BitVec 2} {hebap : Nat → Hebap} {bs gs : List Nat} {src src' : Source}
    (h : readGains policy mode hebap bs src = .ok (gs, src')) : GainsRead (5 * ((bs.length + 2) / 3)) src gs src' := by
  unfold readGains at h
  split at h
  · cases h
    exact (GainsRead.nil _).mono (Nat.zero_le _)
  · split at h
    case isTrue => exact gainGroups_ok le_rfl h
    case isFalse h3 => exact (gainBits_ok h3 h).mono (by omega)

/-! ## The bins: six words each -/

/-- How many bits a mantissa takes at most: its GMANT, and the GLARGE of an escape. -/
def mantissaBits (w g : Nat) : Nat := w - g + if 0 < g then w - 2 + g else 0

theorem readMantissa_ok {p : Params} {b w g : Nat} {h : Hebap} {src src' : Source} {v : Int}
    (hr : readMantissa p b h w g src = .ok (v, src')) : BitsUsed (mantissaBits w g) src src' ∧ src'.count = src.count := by
  unfold readMantissa at hr
  unfold mantissaBits
  cases hm : readSBits (w - g) src.cursor with
  | none =>
    rw [hm] at hr
    cases hr
  | some q =>
    obtain ⟨m, rest⟩ := q
    rw [hm] at hr
    have hgmant := bitsUsed_of_readSBits hm
    simp only at hr
    split at hr
    case isTrue hesc =>
      cases hl : readSBits (w - 2 + g) rest with
      | none =>
        rw [hl] at hr
        cases hr
      | some q =>
        rw [hl] at hr
        cases hr
        rw [if_pos hesc.1]
        exact ⟨hgmant.trans (bitsUsed_of_readSBits (src := { src with cursor := rest }) hl), rfl⟩
    case isFalse =>
      cases hr
      exact ⟨hgmant.mono (Nat.le_add_right _ _), rfl⟩

theorem mantissas_ok {p : Params} {b w g n : Nat} {h : Hebap} {src src' : Source} {ws : List Word}
    (hr : mantissas p b h w g n src = .ok (ws, src')) :
    ws.length = n ∧ BitsUsed (n * mantissaBits w g) src src' ∧ src'.count = src.count := by
  induction n generalizing src ws with
  | zero =>
    cases hr
    exact ⟨rfl, (BitsUsed.refl _).mono (Nat.zero_le _), rfl⟩
  | succ n ih =>
    rw [mantissas_succ] at hr
    cases hm : readMantissa p b h w g src with
    | error f =>
      rw [hm] at hr
      cases hr
    | ok q =>
      rw [hm] at hr
      obtain ⟨vs, rfl, hrest⟩ := consOk_eq_ok.1 hr
      obtain ⟨hbits, hcount⟩ := readMantissa_ok hm
      obtain ⟨hlen, hbits', hcount'⟩ := ih hrest
      refine ⟨by rw [List.length_cons, hlen], (hbits.trans hbits').mono ?_, hcount'.trans hcount⟩
      rw [Nat.succ_mul, Nat.add_comm]

/-- How many bits a bin of hebap `h` takes at most with the gain shift `g`. -/
def binBits (p : Params) (h : Hebap) (g : Nat) : Nat :=
  if h = 0 then 0 else if h.toNat ≤ 7 then widthOf p h else 6 * mantissaBits (widthOf p h) g

/-- What a successful bin reads and gives. -/
structure BinRead (p : Params) (h : Hebap) (g : Nat) (src : Source) (ws : List Word) (src' : Source) : Prop where
  length : ws.length = 6
  bits   : BitsUsed (binBits p h g) src src'
  count  : src'.count = src.count + if h = 0 then 6 else 0

theorem decodeBin_ok {p : Params} {hebap : Nat → Hebap} {g b : Nat} {src src' : Source} {ws : List Word}
    (hr : decodeBin p hebap g b src = .ok (ws, src')) : BinRead p (hebap b) g src ws src' := by
  unfold decodeBin at hr
  by_cases h0 : hebap b = 0
  · simp only [if_pos h0, Except.ok.injEq, Prod.ext_iff] at hr
    obtain ⟨rfl, rfl⟩ := hr
    rw [ditherWords_eq 6 State.reset Seq.idle Staging.empty src]
    exact ⟨by simp, ⟨[], rfl, Nat.zero_le _⟩, by rw [if_pos h0]⟩
  · simp only [if_neg h0] at hr
    by_cases h7 : (hebap b).toNat ≤ 7
    · simp only [if_pos h7] at hr
      cases hv : readBits (widthOf p (hebap b)) src.cursor with
      | none =>
        rw [hv] at hr
        cases hr
      | some q =>
        rw [hv] at hr
        cases hr
        refine ⟨by simp, ?_, by rw [if_neg h0]; rfl⟩
        rw [binBits, if_neg h0, if_pos h7]
        exact bitsUsed_of_readBits hv
    · simp only [if_neg h7] at hr
      obtain ⟨hlen, hbits, hcount⟩ := mantissas_ok hr
      refine ⟨hlen, ?_, by rw [if_neg h0]; exact hcount⟩
      rw [binBits, if_neg h0, if_neg h7]
      exact hbits

/-- Bins that are read are a first bin that is read, and the others after it. -/
theorem decodeBins_cons_ok {p : Params} {mode : BitVec 2} {hebap : Nat → Hebap} {b : Nat} {bs gs : List Nat} {src src' : Source}
    {wss : List (List Word)} (h : decodeBins p mode hebap (b :: bs) gs src = .ok (wss, src')) :
    ∃ ws wss' src₁, wss = ws :: wss' ∧
      BinRead p (hebap b) (if takesGain mode (hebap b) then gs.headD 0 else 0) src ws src₁ ∧
      decodeBins p mode hebap bs (if takesGain mode (hebap b) then gs.tail else gs) src₁ = .ok (wss', src') := by
  rw [decodeBins_cons] at h
  cases hd : decodeBin p hebap (if takesGain mode (hebap b) then gs.headD 0 else 0) b src with
  | error f =>
    rw [hd] at h
    cases h
  | ok q =>
    obtain ⟨ws, src₁⟩ := q
    rw [hd] at h
    obtain ⟨wss', rfl, hrest⟩ := consOk_eq_ok.1 h
    exact ⟨ws, wss', src₁, rfl, decodeBin_ok hd, hrest⟩

theorem decodeBins_lengths {p : Params} {mode : BitVec 2} {hebap : Nat → Hebap} {bs gs : List Nat} {src src' : Source}
    {wss : List (List Word)} (h : decodeBins p mode hebap bs gs src = .ok (wss, src')) :
    wss.length = bs.length ∧ ∀ ws ∈ wss, ws.length = 6 := by
  induction bs generalizing gs src wss with
  | nil =>
    cases h
    exact ⟨rfl, by simp⟩
  | cons b bs ih =>
    obtain ⟨ws, wss', src₁, rfl, hbin, hrest⟩ := decodeBins_cons_ok h
    obtain ⟨hlen, hall⟩ := ih hrest
    exact ⟨by rw [List.length_cons, List.length_cons, hlen], List.forall_mem_cons.2 ⟨hbin.length, hall⟩⟩

/-- Six draws for each bin of hebap 0 (R222). -/
theorem decodeBins_count {p : Params} {mode : BitVec 2} {hebap : Nat → Hebap} {bs gs : List Nat} {src src' : Source}
    {wss : List (List Word)} (h : decodeBins p mode hebap bs gs src = .ok (wss, src')) :
    src'.count = src.count + 6 * (bs.filter fun b => hebap b == 0).length := by
  induction bs generalizing gs src wss with
  | nil =>
    cases h
    rfl
  | cons b bs ih =>
    obtain ⟨ws, wss', src₁, rfl, hbin, hrest⟩ := decodeBins_cons_ok h
    rw [ih hrest, hbin.count]
    by_cases h0 : hebap b = 0
    · rw [List.filter_cons_of_pos (by simp [h0]), List.length_cons, if_pos h0]
      omega
    · rw [List.filter_cons_of_neg (by simpa using h0), if_neg h0]
      omega

/-- Where a bin takes at most `m` bits, the bins take at most `m` bits each. -/
theorem decodeBins_bits {p : Params} {mode : BitVec 2} {m : Nat}
    (hm : ∀ (h : Hebap) (g : Nat), g ≤ 2 → (takesGain mode h = false → g = 0) → binBits p h g ≤ m) {hebap : Nat → Hebap}
    {bs gs : List Nat} {src src' : Source} {wss : List (List Word)} (hgs : ∀ g ∈ gs, g ≤ 2)
    (h : decodeBins p mode hebap bs gs src = .ok (wss, src')) : BitsUsed (m * bs.length) src src' := by
  induction bs generalizing gs src wss with
  | nil =>
    cases h
    exact .refl _
  | cons b bs ih =>
    obtain ⟨ws, wss', src₁, rfl, hbin, hrest⟩ := decodeBins_cons_ok h
    have hhead : (if takesGain mode (hebap b) then gs.headD 0 else 0) ≤ 2 := by
      split
      · cases gs with
        | nil => exact Nat.zero_le 2
        | cons g gs => exact hgs g List.mem_cons_self
      · exact Nat.zero_le 2
    have htail : ∀ g ∈ (if takesGain mode (hebap b) then gs.tail else gs), g ≤ 2 := by
      split
      · exact fun g hg => hgs g (List.mem_of_mem_tail hg)
      · exact hgs
    have hfirst : binBits p (hebap b) (if takesGain mode (hebap b) then gs.headD 0 else 0) ≤ m :=
      hm _ _ hhead fun ht => by simp [ht]
    refine ((hbin.bits.mono hfirst).trans (ih htail hrest)).mono ?_
    rw [List.length_cons, Nat.mul_succ, Nat.add_comm]

/-! ## The whole pseudocode -/

/-- A decode that succeeds has read the mode, the gains and the bins. -/
theorem decodeChannel_ok {p : Params} {c : Channel} {src src' : Source} {mode : BitVec 2} {words : List (List Word)}
    (h : decodeChannel p c src = .ok (mode, words, src')) :
    ∃ u rest gs src₁, readBits 2 src.cursor = some (u, rest) ∧
      GainsRead (5 * ((c.bins.length + 2) / 3)) { src with cursor := rest } gs src₁ ∧
      decodeBins p mode (fun b => c.bap.get b) c.bins gs src₁ = .ok (words, src') := by
  cases hr : readBits 2 src.cursor with
  | none =>
    rw [decodeChannel_of_no_mode hr] at h
    cases h
  | some q =>
    obtain ⟨u, rest⟩ := q
    rw [decodeChannel_of_mode hr] at h
    cases hg : readGains p.policy (BitVec.ofNat 2 u) (fun b => c.bap.get b) c.bins { src with cursor := rest } with
    | error f =>
      rw [hg] at h
      cases h
    | ok q =>
      obtain ⟨gs, src₁⟩ := q
      rw [hg] at h
      simp only at h
      cases hd : decodeBins p (BitVec.ofNat 2 u) (fun b => c.bap.get b) c.bins gs src₁ with
      | error f =>
        rw [hd] at h
        cases h
      | ok q =>
        rw [hd] at h
        cases h
        exact ⟨u, rest, gs, src₁, rfl, readGains_ok hg, hd⟩

@[simp] theorem Channel.bins_length (c : Channel) : c.bins.length = c.count := List.length_range'

/-! ## What the words are stored as -/

theorem storeWords_wf {m : Memory 32} (hm : m.wf = true) (a : Nat) (ws : List Word) : (storeWords m a ws).wf = true := by
  induction ws generalizing m a with
  | nil => exact hm
  | cons w ws ih => exact ih (Memory.wf_set hm a w) (a + 1)

theorem storeWords_get_below {m : Memory 32} (hm : m.wf = true) {a x : Nat} (hx : x < a) (ws : List Word) :
    (storeWords m a ws).get x = m.get x := by
  induction ws generalizing m a with
  | nil => rfl
  | cons w ws ih => rw [storeWords, ih (Memory.wf_set hm a w) (by omega), Memory.get_set_ne hm (by omega)]

theorem storeWords_get {m : Memory 32} (hm : m.wf = true) {a i : Nat} {ws : List Word} (hi : i < ws.length) :
    ws[i]? = some ((storeWords m a ws).get (a + i)) := by
  induction ws generalizing m a i with
  | nil => simp at hi
  | cons w ws ih =>
    cases i with
    | zero =>
      change some w = some ((storeWords (m.set a w) (a + 1) ws).get a)
      rw [storeWords_get_below (Memory.wf_set hm a w) (Nat.lt_succ_self a), Memory.get_set_self hm]
    | succ i =>
      rw [List.getElem?_cons_succ, storeWords, ih (Memory.wf_set hm a w) (a := a + 1) (by simpa using hi)]
      congr 2
      omega

theorem storeBins_get_below {m : Memory 32} (hm : m.wf = true) {b x : Nat} (hx : x < 6 * b) (wss : List (List Word)) :
    (storeBins m b wss).get x = m.get x := by
  induction wss generalizing m b with
  | nil => rfl
  | cons ws wss ih => rw [storeBins, ih (storeWords_wf hm _ ws) (by omega), storeWords_get_below hm hx]

/-- The word of each block of each bin stands in its cell. -/
theorem storeBins_get {m : Memory 32} (hm : m.wf = true) {b i blk : Nat} {wss : List (List Word)}
    (hlen : ∀ ws ∈ wss, ws.length = 6) (hi : i < wss.length) (hblk : blk < 6) :
    (wss[i]?.bind fun ws => ws[blk]?) = some ((storeBins m b wss).get (6 * (b + i) + blk)) := by
  induction wss generalizing m b i with
  | nil => simp at hi
  | cons ws wss ih =>
    obtain ⟨hws, hrest⟩ := List.forall_mem_cons.1 hlen
    have hwf := storeWords_wf hm (6 * b) ws
    cases i with
    | zero =>
      change ws[blk]? = some ((storeBins (storeWords m (6 * b) ws) (b + 1) wss).get (6 * b + blk))
      rw [storeBins_get_below hwf (by omega)]
      exact storeWords_get hm (by omega)
    | succ i =>
      rw [List.getElem?_cons_succ, storeBins, ih hwf (b := b + 1) hrest (by simpa using hi)]
      congr 3
      omega

/-! ## The state after AHT_DECODE -/

theorem committedAht_of_ready {s : State} (h : Ready s) (ch : Chan) (mode : BitVec 2) (spm : Memory 32) (src : Source) :
    committedAht s ch mode spm src = (s.withSource src).setChan ch ((s.chan ch).commitPremants mode spm) :=
  endCommand_of_ready (s := (s.withSource src).setChan ch ((s.chan ch).commitPremants mode spm)) h

@[simp] theorem committedAht_chan_self (s : State) (ch : Chan) (mode : BitVec 2) (spm : Memory 32) (src : Source) :
    (committedAht s ch mode spm src).chan ch = (s.chan ch).commitPremants mode spm := chan_setChan_self _ _ _

theorem commitPremants_pmv_get {c : Channel} (h : c.first ≤ c.last) (mode : BitVec 2) (spm : Memory 32) (b : Nat) :
    (c.commitPremants mode spm).pmv.get b = if c.first ≤ b ∧ b < c.last then 1 else 0 := by
  rw [Channel.commitPremants, onesRange_get, Channel.first_add_count h]

theorem commitPremants_pm_get {c : Channel} (hs : c.pm.wf = true) (h : c.first ≤ c.last) (mode : BitVec 2) (spm : Memory 32)
    (a : Nat) : (c.commitPremants mode spm).pm.get a = if 6 * c.first ≤ a ∧ a < 6 * c.last then spm.get a else c.pm.get a := by
  have hend : pmIndex c.first 0 + 6 * c.count = 6 * c.last := by
    have := Channel.first_add_count h
    unfold pmIndex
    omega
  rw [Channel.commitPremants, copyRange_get hs, hend]
  rfl

/-- Settles O40: the run of the command follows its pseudocode, and the commit copies the staged words into PM. -/
theorem ahtDecodeFollowsPseudocode : Obligations.AhtDecodeFollowsPseudocode := by
  intro s ch he hready hstores hok
  have hexec := exec_ahtDecode_eq_outcome he hok
  have hfirst : (s.chan ch).first ≤ (s.chan ch).last := hok.range.1
  have hpm : (s.chan ch).pm.wf = true := (channelStoresOk_iff.1 hstores).pm.wf
  rw [show (⟨s.cursor, s.dither, s.ditherCount⟩ : Source) = s.source from rfl]
  cases hd : decodeChannel s.rom (s.chan ch) s.source with
  | error f =>
    obtain ⟨code, bin, src⟩ := f
    rw [hd] at hexec
    cases code <;> exact hexec
  | ok p =>
    obtain ⟨mode, words, src⟩ := p
    obtain ⟨u, rest, gs, src₁, -, -, hbins⟩ := decodeChannel_ok hd
    obtain ⟨hlen, hwords⟩ := decodeBins_lengths hbins
    rw [Channel.bins_length] at hlen
    rw [hd] at hexec
    refine ⟨_, hexec.trans (congrArg _ (committedAht_of_ready hready ch mode _ src)), rfl,
      fun c hc => chan_setChan_ne _ _ hc, ?_⟩
    rw [chan_setChan_self]
    refine ⟨rfl, commitPremants_pmv_get hfirst mode _,
      fun b (hb : (s.chan ch).first ≤ b) (hb' : b < (s.chan ch).last) blk => ?_, fun a ha => ?_⟩
    · have hin : b - (s.chan ch).first < words.length := by
        rw [hlen, Channel.count]
        exact Nat.sub_lt_sub_right hb hb'
      have hcell : 6 * ((s.chan ch).first + (b - (s.chan ch).first)) + blk.val = 6 * b + blk.val := by
        rw [Nat.add_sub_cancel' hb]
      have hinside : 6 * (s.chan ch).first ≤ 6 * b + blk.val ∧ 6 * b + blk.val < 6 * (s.chan ch).last := by omega
      rw [commitPremants_pm_get hpm hfirst, if_pos hinside, ← hcell]
      exact storeBins_get Memory.wf_nil hwords hin blk.isLt
    · rw [commitPremants_pm_get hpm hfirst]
      exact if_neg fun hin => ha.elim (Nat.not_lt.2 hin.1) (Nat.not_le.2 hin.2)

/-! ## All or nothing (R311, R236) -/

/-- A run leaves STATUS as it is, or records one of the two errors of the decode. -/
theorem runToIdle_status (n : Nat) (s : State) :
    (runToIdle n s).status = s.status ∨ (runToIdle n s).status.code = 4 ∨ (runToIdle n s).status.code = 5 := by
  refine runToIdle_keeps (P := fun u => u.status = s.status ∨ u.status.code = 4 ∨ u.status.code = 5) (fun u hu hrun => ?_) n
    (.inl rfl)
  rcases seqStep_goesOn_or_ends hrun with hg | he
  · rwa [hg.status]
  · generalize seqStep u = t at he
    cases he with
    | commitAht => exact hu
    | commitIdct => exact hu
    | error code bin v hcode =>
      rw [raiseError_status]
      rcases hcode with rfl | rfl
      · exact .inr (.inr rfl)
      · exact .inr (.inl rfl)

theorem decodeChannel_error_code {s : State} {ch : Chan} {f : Failure} (he : s.status.err = false)
    (hok : AhtInputsOk s.rom (s.chan ch)) (hd : decodeChannel s.rom (s.chan ch) s.source = .error f) :
    f.code.number = 4 ∨ f.code.number = 5 := by
  have hrun : runToIdle commandFuel (beginAht ch s) = failedAht s ch f := by
    have h := (exec_ahtDecode_of_ok he hok).symm.trans (exec_ahtDecode_eq_outcome he hok)
    rw [hd] at h
    exact Host.Outcome.next.inj h
  have hstatus : (failedAht s ch f).status = ⟨true, f.code.number, BitVec.ofNat 3 ch.val, f.bin⟩ := raiseError_status _ _ _ _
  have hcase := runToIdle_status commandFuel (beginAht ch s)
  rw [hrun, hstatus] at hcase
  rcases hcase with h | h
  · rw [beginAht_status] at h
    rw [← h] at he
    cases he
  · exact h

/-- Settles O41: a success is the commit, a failure the error entry of CURSOR_FAIL or GAQ_GROUP_RANGE. -/
theorem ahtDecodeIsAllOrNothing : Obligations.AhtDecodeIsAllOrNothing := by
  intro s ch he hok
  refine ⟨_, exec_ahtDecode_eq_outcome he hok, ahtOutcome_ready _ _ _, ?_⟩
  cases hd : decodeChannel s.rom (s.chan ch) s.source with
  | ok p =>
    refine .inl ⟨rfl, ?_⟩
    simp only [ahtOutcome, outcome, committedAht_chan_self]
    exact ⟨rfl, commitPremants_pmv_get hok.range.1 _ _⟩
  | error f =>
    refine .inr ?_
    simp only [ahtOutcome, outcome, failedAht, raiseError_status, raiseError_aht_chan_self]
    exact ⟨trivial, decodeChannel_error_code he hok hd, rfl, rfl, Memory.get_nil⟩

/-! ## An AHT_DECODE that succeeds -/

/-- Without an error at its end AHT_DECODE has committed what its pseudocode gives. -/
theorem committed_of_no_error {s t : State} {ch : Chan} (he : s.status.err = false) (hok : AhtInputsOk s.rom (s.chan ch))
    (ht : exec (.ahtDecode ch) s = .next t) (hte : t.status.err = false) :
    ∃ mode words src, decodeChannel s.rom (s.chan ch) s.source = .ok (mode, words, src) ∧
      t = committedAht s ch mode (storeBins [] (s.chan ch).first words) src := by
  rw [exec_ahtDecode_eq_outcome he hok] at ht
  cases ht
  cases hd : decodeChannel s.rom (s.chan ch) s.source with
  | ok p => exact ⟨_, _, _, rfl, rfl⟩
  | error f =>
    rw [hd] at hte
    simp only [ahtOutcome, outcome, failedAht, raiseError_status] at hte
    cases hte

/-- Settles O44: only the bins of hebap 0 draw, six times each. -/
theorem ahtDecodeDrawsSixPerZeroBin : Obligations.AhtDecodeDrawsSixPerZeroBin := by
  intro s t ch he hok ht hte
  obtain ⟨mode, words, src, hd, rfl⟩ := committed_of_no_error he hok ht hte
  obtain ⟨u, rest, gs, src₁, -, hgains, hbins⟩ := decodeChannel_ok hd
  have hcount := decodeBins_count hbins
  rw [hgains.count] at hcount
  exact hcount

theorem widthOf_eq_reference {p : Params} (hp : p.bits = referenceBits) (h : Hebap) : widthOf p h = widthOf referenceParams h := by
  rw [widthOf, widthOf]
  simp only [hp]
  rfl

/-- With the reference BITS a bin takes at most 120 bits: six mantissas of 9 and 11 bits at hebap 16. -/
theorem binBits_reference_le {p : Params} (hp : p.bits = referenceBits) (mode : BitVec 2) (h : Hebap) (g : Nat) (hg : g ≤ 2)
    (hgain : takesGain mode h = false → g = 0) : binBits p h g ≤ 120 := by
  have hwidth : ∀ h : Hebap, widthOf referenceParams h ≤ 16 := by decide
  have hwidth_gain : ∀ h : Hebap, 7 < h.toNat → h.toNat < 17 →
      3 ≤ widthOf referenceParams h ∧ widthOf referenceParams h ≤ 11 := by decide
  have hw := hwidth h
  unfold binBits mantissaBits
  rw [widthOf_eq_reference hp]
  split
  · omega
  · split
    · omega
    · cases ht : takesGain mode h with
      | false =>
        rw [hgain ht, if_neg (lt_irrefl 0)]
        omega
      | true =>
        obtain ⟨-, h7, hthr⟩ := takesGain_iff.1 ht
        have h17 : threshold mode ≤ 17 := by unfold threshold; split <;> omega
        obtain ⟨h3, h11⟩ := hwidth_gain h h7 (by omega)
        split <;> omega

/-- Settles O43: two bits of the mode, five for each three gains, and 120 for each of at most 256 bins. -/
theorem ahtDecodeReadsBoundedBits : Obligations.AhtDecodeReadsBoundedBits := by
  intro s t ch hp he hok ht hte
  obtain ⟨mode, words, src, hd, rfl⟩ := committed_of_no_error he hok ht hte
  obtain ⟨u, rest, gs, src₁, hmode, hgains, hbins⟩ := decodeChannel_ok hd
  obtain ⟨first, hfirst, hlen, -⟩ := readBits_spec hmode
  obtain ⟨used, hused, hle⟩ := hgains.bits.trans (decodeBins_bits (binBits_reference_le hp mode) hgains.le hbins)
  have h256 : (s.chan ch).last ≤ 256 := hok.range.2
  have hcount : (s.chan ch).bins.length ≤ 256 := by
    rw [Channel.bins_length, Channel.count]
    omega
  refine ⟨first ++ used, ?_, ?_, ?_⟩
  · rw [List.append_assoc]
    exact hfirst.trans (congrArg (first ++ ·) hused)
  · rw [List.length_append]
    omega
  · rw [List.length_append]
    omega

/-! ## The empty range (R202) -/

theorem readBits_two (b1 b0 : Bool) (rest : Bits) : readBits 2 (b1 :: b0 :: rest) = some (2 * b1.toNat + b0.toNat, rest) := by
  simp [readBits_succ_cons, Nat.mul_comm]

theorem readGains_nil (policy : OorPolicy) (mode : BitVec 2) (hebap : Nat → Hebap) (src : Source) :
    readGains policy mode hebap [] src = .ok ([], src) := by
  unfold readGains
  split
  · rfl
  · split <;> rfl

/-- Without bins the pseudocode reads the mode only. -/
theorem decodeChannel_of_no_bins {p : Params} {c : Channel} {src : Source} {u : Nat} {rest : Bits} (hbins : c.bins = [])
    (hr : readBits 2 src.cursor = some (u, rest)) :
    decodeChannel p c src = .ok (BitVec.ofNat 2 u, [], { src with cursor := rest }) := by
  rw [decodeChannel_of_mode hr, hbins, readGains_nil]
  rfl

/-- Settles O42: an empty range has no bins to check, to read or to copy. -/
theorem emptyRangeReadsOnlyTheMode : Obligations.EmptyRangeReadsOnlyTheMode := by
  intro s ch b1 b0 rest he hready hw hempty hlast hcursor
  have hcount : (s.chan ch).count = 0 := by
    rw [Channel.count, Channel.first, Channel.last, hempty, Nat.sub_self]
  have hbins : (s.chan ch).bins = [] := by rw [Channel.bins, hcount, List.range'_zero]
  have hok : AhtInputsOk s.rom (s.chan ch) := ⟨hw, ⟨by rw [hempty], hlast⟩, fun b hb hb' => by rw [hempty] at hb; omega⟩
  have hread : readBits 2 s.source.cursor = some (2 * b1.toNat + b0.toNat, rest) := by
    rw [State.source, hcursor, readBits_two]
  have hexec := exec_ahtDecode_eq_outcome he hok
  rw [decodeChannel_of_no_bins hbins hread] at hexec
  refine ⟨_, hexec.trans (congrArg _ (committedAht_of_ready hready ch _ _ _)), rfl, fun c hc => chan_setChan_ne _ _ hc, ?_⟩
  rw [chan_setChan_self, Channel.commitPremants, hcount]
  rfl

end Sys2Proof.Machine
end

section
/-! PROOFS. What AHT_DECODE and IDCT depend on and what they leave alone (40_commands.md R161, R25, 70_reset_and_hazards.md R349, R351,
43_idct.md R260): every answer of theirs, case by case, and the statements about other channels and unread inputs. -/

namespace Sys2Proof.Machine

open Sys2Proof.Safety

/-! ## IDCT after another command (R349, R260) -/

/-- Settles O47: FRAME_START leaves no valid pre-mantissa, so the check of the first bin fails. -/
theorem idctBeforeDecodeRaisesPremantUnwritten : Obligations.IdctBeforeDecodeRaisesPremantUnwritten := by
  intro s t ch blk ht hw hne hlast
  rw [exec_frameStart] at ht
  cases ht
  have hbin : binField (s.chan ch).first = (s.chan ch).start := by simp [binField, Channel.first]
  refine exec_idct_of_error (returnFromError_status s ▸ rfl) ?_
  rw [returnFromError_chan, ← hbin]
  exact idctInputError_of_lowest_bin (c := (s.chan ch).newFrame) hw hlast le_rfl hne (fun b hb hb' => absurd hb (Nat.not_le.2 hb'))
    (idctBinError_of_premantUnwritten (Memory.get_nil _))

theorem endCommand_setChan_endCommand (s : State) (ch : Chan) (x y : Channel) :
    endCommand ((endCommand (s.setChan ch x)).setChan ch y) = endCommand (s.setChan ch y) := by
  change endCommand ((s.setChan ch x).setChan ch y) = endCommand (s.setChan ch y)
  rw [setChan_setChan]

/-- A commit overwrites the commit before it. -/
theorem commitCoefs_commitCoefs {c : Channel} (hc : c.coef.wf = true) (m n : Memory 32) :
    (c.commitCoefs m).commitCoefs n = c.commitCoefs n := by
  have hcoef : copyRange (copyRange c.coef m c.first c.count) n c.first c.count = copyRange c.coef n c.first c.count := by
    refine Memory.ext_of_get (copyRange_wf (copyRange_wf hc _ _ _) _ _ _) (copyRange_wf hc _ _ _) fun b => ?_
    rw [copyRange_get (copyRange_wf hc _ _ _), copyRange_get hc, copyRange_get hc]
    split <;> rfl
  exact congrArg (fun coef => { c with coef := coef, cv := onesRange c.first c.count }) hcoef

/-- An IDCT answers the same state whether or not another one ran before it: that one changed neither its inputs nor anything that it
does not overwrite. -/
theorem exec_idct_after_idct {s u : State} {ch : Chan} (he : s.status.err = false) (hcoef : (s.chan ch).coef.wf = true)
    (hok : IdctInputsOk (s.chan ch)) (blk : Blk) {other : Blk} (hu : exec (.idct ch other) s = .next u) :
    exec (.idct ch blk) u = exec (.idct ch blk) s := by
  rw [exec_idct_eq_commit he hok] at hu
  generalize addCoefs s.rom (s.chan ch) other (s.chan ch).bins [] = m at hu
  obtain rfl := Host.Outcome.next.inj hu
  have hok' : IdctInputsOk ((s.chan ch).commitCoefs m) := ⟨hok.written, hok.range, hok.bins⟩
  have hexec := exec_idct_eq_commit (s := endCommand (s.setChan ch ((s.chan ch).commitCoefs m))) (ch := ch) (blk := blk) he
  rw [endCommand_chan, chan_setChan_self, commitCoefs_commitCoefs hcoef] at hexec
  rw [hexec hok', exec_idct_eq_commit he hok, endCommand_setChan_endCommand]
  rfl

/-- Settles O48: the IDCT before changes nothing that the IDCT after it reads or keeps. -/
theorem idctIsRepeatable : Obligations.IdctIsRepeatable := by
  intro s t u ch blk other he _ hstores hok ht hu
  have hcoef := coef_wf_of_channelStoresOk hstores
  exact ⟨(exec_idct_after_idct he hcoef hok blk ht).trans ht, (exec_idct_after_idct he hcoef hok blk hu).trans ht⟩

/-! ## The answers of the two commands -/

/-- A state after the reads of a decode that failed: past a failed read the cursor is free. -/
def afterFailure (s : State) (f : Failure) : State :=
  if f.code = .cursorFail then loseCursor (s.withSource f.src) else s.withSource f.src

@[simp] theorem afterFailure_chan (s : State) (f : Failure) (c : Chan) : (afterFailure s f).chan c = s.chan c := by
  unfold afterFailure
  split <;> rfl

@[simp] theorem afterFailure_rom (s : State) (f : Failure) : (afterFailure s f).rom = s.rom := by
  unfold afterFailure
  split <;> rfl

@[simp] theorem afterFailure_host (s : State) (f : Failure) : (afterFailure s f).host = s.host := by
  unfold afterFailure
  split <;> rfl

@[simp] theorem afterFailure_rdata (s : State) (f : Failure) : (afterFailure s f).rdata = s.rdata := by
  unfold afterFailure
  split <;> rfl

/-- The answers of AHT_DECODE(ch) in `s`. -/
inductive AhtAnswer (s : State) (ch : Chan) : State → Prop
  | dropped : s.status.err = true → AhtAnswer s ch s
  | invalid {code : ErrCode} {bin : BitVec 9} : s.status.err = false → ahtInputError s.rom (s.chan ch) = some (code, bin) →
      AhtAnswer s ch (raiseError (.aht ch) code bin s)
  | failed {f : Failure} : s.status.err = false → AhtInputsOk s.rom (s.chan ch) →
      decodeChannel s.rom (s.chan ch) s.source = .error f → AhtAnswer s ch (raiseError (.aht ch) f.code f.bin (afterFailure s f))
  | decoded {mode : BitVec 2} {words : List (List Word)} {src : Source} : s.status.err = false →
      AhtInputsOk s.rom (s.chan ch) → decodeChannel s.rom (s.chan ch) s.source = .ok (mode, words, src) →
      AhtAnswer s ch (committedAht s ch mode (storeBins [] (s.chan ch).first words) src)

/-- The answers of IDCT(ch, blk) in `s`. -/
inductive IdctAnswer (s : State) (ch : Chan) (blk : Blk) : State → Prop
  | dropped : s.status.err = true → IdctAnswer s ch blk s
  | invalid {code : ErrCode} {bin : BitVec 9} : s.status.err = false → idctInputError (s.chan ch) = some (code, bin) →
      IdctAnswer s ch blk (raiseError (.idct ch) code bin s)
  | done : s.status.err = false → IdctInputsOk (s.chan ch) →
      IdctAnswer s ch blk (endCommand (s.setChan ch ((s.chan ch).commitCoefs (addCoefs s.rom (s.chan ch) blk (s.chan ch).bins []))))

theorem AhtAnswer.exec_eq {s t : State} {ch : Chan} (h : AhtAnswer s ch t) : exec (.ahtDecode ch) s = .next t := by
  cases h with
  | dropped he => exact unlessInError_of_error _ he
  | invalid he hin => exact exec_ahtDecode_of_error he hin
  | failed he hok hd => rw [exec_ahtDecode_eq_outcome he hok, hd]; rfl
  | decoded he hok hd => rw [exec_ahtDecode_eq_outcome he hok, hd]; rfl

theorem IdctAnswer.exec_eq {s t : State} {ch : Chan} {blk : Blk} (h : IdctAnswer s ch blk t) : exec (.idct ch blk) s = .next t := by
  cases h with
  | dropped he => exact unlessInError_of_error _ he
  | invalid he hin => exact exec_idct_of_error he hin
  | done he hok => exact exec_idct_eq_commit he hok

theorem exists_ahtAnswer (s : State) (ch : Chan) : ∃ t, AhtAnswer s ch t := by
  cases he : s.status.err with
  | true => exact ⟨_, .dropped he⟩
  | false =>
    cases hin : ahtInputError s.rom (s.chan ch) with
    | some e => exact ⟨_, .invalid he hin⟩
    | none =>
      have hok := ahtInputError_none.1 hin
      cases hd : decodeChannel s.rom (s.chan ch) s.source with
      | error f => exact ⟨_, .failed he hok hd⟩
      | ok p => exact ⟨_, .decoded he hok hd⟩

theorem exists_idctAnswer (s : State) (ch : Chan) (blk : Blk) : ∃ t, IdctAnswer s ch blk t := by
  cases he : s.status.err with
  | true => exact ⟨_, .dropped he⟩
  | false =>
    cases hin : idctInputError (s.chan ch) with
    | some e => exact ⟨_, .invalid he hin⟩
    | none => exact ⟨_, .done he (idctInputError_none.1 hin)⟩

theorem ahtAnswer_of_exec {s t : State} {ch : Chan} (h : exec (.ahtDecode ch) s = .next t) : AhtAnswer s ch t := by
  obtain ⟨u, hu⟩ := exists_ahtAnswer s ch
  obtain rfl : u = t := Host.Outcome.next.inj (hu.exec_eq.symm.trans h)
  exact hu

theorem idctAnswer_of_exec {s t : State} {ch : Chan} {blk : Blk} (h : exec (.idct ch blk) s = .next t) : IdctAnswer s ch blk t := by
  obtain ⟨u, hu⟩ := exists_idctAnswer s ch blk
  obtain rfl : u = t := Host.Outcome.next.inj (hu.exec_eq.symm.trans h)
  exact hu

/-! ## What the commands change (R161) -/

@[simp] theorem raiseError_rdata (o : Origin) (code : ErrCode) (bin : BitVec 9) (s : State) :
    (raiseError o code bin s).rdata = s.rdata := by
  cases o <;> rfl

/-- Settles O51: each answer is the state itself, an error entry or a commit, and changes what they change. -/
theorem commandsTouchOnlyTheirChannel : Obligations.CommandsTouchOnlyTheirChannel := by
  intro s t ch blk hready
  refine ⟨fun h => ?_, fun h => ?_⟩
  · cases ahtAnswer_of_exec h with
    | dropped => exact ⟨fun c _ => rfl, rfl, rfl, rfl, rfl, fun hne => absurd rfl hne⟩
    | invalid =>
      refine ⟨fun c hc => raiseError_aht_chan_ne hc _ _ s, by simp, by simp, by simp, ?_, fun _ => rfl⟩
      rw [raiseError_aht_chan_self]
    | failed =>
      refine ⟨fun c hc => ?_, by simp, by simp, by simp, ?_, fun _ => rfl⟩
      · rw [raiseError_aht_chan_ne hc, afterFailure_chan]
      · rw [raiseError_aht_chan_self, afterFailure_chan]
    | decoded =>
      refine ⟨fun c hc => chan_setChan_ne _ _ hc, rfl, rfl, rfl, ?_, fun hne => absurd rfl hne⟩
      rw [committedAht_chan_self]
      rfl
  · have ⟨hseq, hstaging⟩ := hready
    cases idctAnswer_of_exec h with
    | dropped => exact ⟨fun c _ => rfl, rfl, rfl, fun hne => absurd rfl hne⟩
    | invalid =>
      refine ⟨fun c hc => raiseError_idct_chan_ne hc _ _ s, ?_, ?_, fun _ => rfl⟩
      · rw [raiseError_eq, ← hseq, ← hstaging]
      · rw [raiseError_idct_chan_self]
    | done =>
      rw [endCommand_of_ready (s := s.setChan ch _) hready]
      refine ⟨fun c hc => chan_setChan_ne _ _ hc, rfl, ?_, fun hne => absurd rfl hne⟩
      rw [chan_setChan_self]
      rfl

/-! ## What the commands do not read (R25, R38, R39, R351) -/

/-- One slot replaced by `f` of what it holds. -/
def State.updateChan (s : State) (c : Chan) (f : Channel → Channel) : State := s.setChan c (f (s.chan c))

/-- Other exponents, and other written bits of them. -/
def Channel.withDexp (m : Memory 5) (w : Memory 1) (x : Channel) : Channel := { x with dexp := m, wDexp := w }

/-- Other bit allocations, and other written bits of them. -/
def Channel.withBap (m : Memory 5) (w : Memory 1) (x : Channel) : Channel := { x with bap := m, wBap := w }

/-- Updates of two slots commute, and so do two updates of one slot that commute. -/
theorem updateChan_comm (s : State) {ch c : Chan} {f g : Channel → Channel}
    (h : c = ch → f (g (s.chan ch)) = g (f (s.chan ch))) :
    (s.updateChan c g).updateChan ch f = (s.updateChan ch f).updateChan c g := by
  unfold State.updateChan
  by_cases hc : c = ch
  · subst hc
    simp [h rfl]
  · rw [chan_setChan_ne _ _ (Ne.symm hc), chan_setChan_ne _ _ hc, setChan_comm _ hc]

/-- A slot after an update that is another slot's, or one of `put`: it is as `put` makes it, with some contents. -/
theorem chan_updateChan {α β : Type} {put : α → β → Channel → Channel} (hput : ∀ x, ∃ a b, put a b x = x)
    (s : State) {ch c : Chan} {g : Channel → Channel} (hg : c = ch → ∃ a b, g = put a b) :
    ∃ a b, (s.updateChan c g).chan ch = put a b (s.chan ch) := by
  by_cases hc : c = ch
  · obtain ⟨a, b, rfl⟩ := hg hc
    subst hc
    exact ⟨a, b, chan_setChan_self _ _ _⟩
  · obtain ⟨a, b, hab⟩ := hput (s.chan ch)
    exact ⟨a, b, (chan_setChan_ne _ _ (Ne.symm hc)).trans hab.symm⟩

theorem updateChan_afterFailure (s : State) (c : Chan) (g : Channel → Channel) (f : Failure) :
    afterFailure (s.updateChan c g) f = (afterFailure s f).updateChan c g := by
  unfold afterFailure
  split <;> rfl

section Aht

variable {s : State} {ch c : Chan} {g : Channel → Channel} (hg : c = ch → ∃ m w, g = Channel.withDexp m w)
include hg

theorem updateChan_raiseError_aht (code : ErrCode) (bin : BitVec 9) :
    raiseError (.aht ch) code bin (s.updateChan c g) = (raiseError (.aht ch) code bin s).updateChan c g := by
  refine updateChan_comm (endCommand { s with status := ⟨true, code.number, BitVec.ofNat 3 ch.val, bin⟩ })
    (f := fun x => { x with pmv := [], gaqValid := false, gaqMode := 0 }) fun hc => ?_
  obtain ⟨m, w, rfl⟩ := hg hc
  rfl

theorem updateChan_committedAht (mode : BitVec 2) (spm : Memory 32) (src : Source) :
    committedAht (s.updateChan c g) ch mode spm src = (committedAht s ch mode spm src).updateChan c g := by
  refine updateChan_comm (endCommand (s.withSource src)) (f := fun x => x.commitPremants mode spm) fun hc => ?_
  obtain ⟨m, w, rfl⟩ := hg hc
  rfl

/-- An update of another channel, or of DEXP and its written bits, before AHT_DECODE is one after it. -/
theorem AhtAnswer.updateChan {t : State} (h : AhtAnswer s ch t) : AhtAnswer (s.updateChan c g) ch (t.updateChan c g) := by
  obtain ⟨m, w, hchan⟩ := chan_updateChan (put := Channel.withDexp) (fun x => ⟨x.dexp, x.wDexp, rfl⟩) s hg
  have hchecks (hok : AhtInputsOk s.rom (s.chan ch)) : AhtInputsOk s.rom ((s.updateChan c g).chan ch) := by
    rw [hchan]
    exact ⟨hok.written, hok.range, hok.bins⟩
  have hdecode : decodeChannel s.rom ((s.updateChan c g).chan ch) s.source = decodeChannel s.rom (s.chan ch) s.source := by
    rw [hchan]
    rfl
  cases h with
  | dropped he => exact .dropped he
  | invalid he hin =>
    rw [← updateChan_raiseError_aht hg]
    exact .invalid he (by rw [hchan]; exact hin)
  | failed he hok hd =>
    rw [← updateChan_raiseError_aht hg, ← updateChan_afterFailure]
    exact .failed he (hchecks hok) (hdecode.trans hd)
  | decoded he hok hd =>
    have hfirst : (s.chan ch).first = ((s.updateChan c g).chan ch).first := by rw [hchan]; rfl
    rw [← updateChan_committedAht hg, hfirst]
    exact .decoded he (hchecks hok) (hdecode.trans hd)

end Aht

section Idct

variable {s : State} {ch c : Chan} {g : Channel → Channel} (hg : c = ch → ∃ m w, g = Channel.withBap m w)
include hg

theorem updateChan_raiseError_idct (code : ErrCode) (bin : BitVec 9) :
    raiseError (.idct ch) code bin (s.updateChan c g) = (raiseError (.idct ch) code bin s).updateChan c g := by
  refine updateChan_comm (endCommand { s with status := ⟨true, code.number, BitVec.ofNat 3 ch.val, bin⟩ })
    (f := fun x => { x with cv := [] }) fun hc => ?_
  obtain ⟨m, w, rfl⟩ := hg hc
  rfl

theorem updateChan_commitCoefs (m : Memory 32) :
    endCommand ((s.updateChan c g).updateChan ch fun x => x.commitCoefs m) =
      (endCommand (s.updateChan ch fun x => x.commitCoefs m)).updateChan c g := by
  refine congrArg endCommand (updateChan_comm s fun hc => ?_)
  obtain ⟨_, w, rfl⟩ := hg hc
  rfl

/-- An update of another channel, or of BAP and its written bits, before IDCT is one after it. -/
theorem IdctAnswer.updateChan {t : State} {blk : Blk} (h : IdctAnswer s ch blk t) :
    IdctAnswer (s.updateChan c g) ch blk (t.updateChan c g) := by
  obtain ⟨m, w, hchan⟩ := chan_updateChan (put := Channel.withBap) (fun x => ⟨x.bap, x.wBap, rfl⟩) s hg
  cases h with
  | dropped he => exact .dropped he
  | invalid he hin =>
    rw [← updateChan_raiseError_idct hg]
    exact .invalid he (by rw [hchan]; exact hin)
  | done he hok =>
    have hok' : IdctInputsOk ((s.updateChan c g).chan ch) := by
      rw [hchan]
      exact ⟨hok.written, hok.range, hok.bins⟩
    have hcoefs : addCoefs s.rom (s.chan ch) blk (s.chan ch).bins [] =
        addCoefs s.rom ((s.updateChan c g).chan ch) blk ((s.updateChan c g).chan ch).bins [] := by
      rw [hchan]
      rfl
    have hdone := IdctAnswer.done (s := s.updateChan c g) (blk := blk) he hok'
    rw [hcoefs]
    exact updateChan_commitCoefs hg _ ▸ hdone

end Idct

/-- Settles O52: the replacement of another slot is an update of it by a constant. -/
theorem otherChannelsDoNotMatter : Obligations.OtherChannelsDoNotMatter := by
  intro s t ch c blk x hc
  exact ⟨fun h => ((ahtAnswer_of_exec h).updateChan (g := fun _ => x) fun e => absurd e hc).exec_eq,
    fun h => ((idctAnswer_of_exec h).updateChan (g := fun _ => x) fun e => absurd e hc).exec_eq⟩

/-- Settles O53: the two replacements are updates that the commands do not read. -/
theorem unreadInputsDoNotMatter : Obligations.UnreadInputsDoNotMatter := by
  intro s t ch blk m w
  exact ⟨fun h => ((idctAnswer_of_exec h).updateChan (c := ch) (g := Channel.withBap m w) fun _ => ⟨m, w, rfl⟩).exec_eq,
    fun h => ((ahtAnswer_of_exec h).updateChan (c := ch) (g := Channel.withDexp m w) fun _ => ⟨m, w, rfl⟩).exec_eq⟩

end Sys2Proof.Machine
end
